-- ==== Sys2Proof/Word.lean ====
section
/-! DEFINITION. The words of huffman_tree_builder: 8-bit symbols and bytes, 32-bit register words, 24-bit register
offsets (00_scope.md R5, R7), and tables with one entry for each of the 256 symbols (10_state.md R30 to R32). -/

namespace Sys2Proof

/-- A symbol, or a byte of a buffer: "one 8-bit code unit (0-255)". -/
abbrev Byte := BitVec 8

/-- A register of the interface (REG_BITS = 32, R5). -/
abbrev Word := BitVec 32

/-- A byte offset of the register interface (ADDR_BITS = 24, R5, R50). -/
abbrev Offset := BitVec 24

/-- A table with one entry per symbol 0..255. -/
abbrev Table (α : Type) := Vector α 256

end Sys2Proof
end

