-- ==== Sys2Proof/Config.lean ====
section
/-! DEFINITION. What an implementation fixes (00_scope.md R5) and the free values of the spec
(93_implementation_defined.md U1 to U9). The opaque constants have no body: nothing can be proved of their values. -/

namespace Sys2Proof

/-- The identification word, ASCII "HUFF" (R2, R22). -/
def Config.idValue : Word := 0x48554646#32

/-- The interface version (R2, R22). -/
def Config.versionValue : Word := 0x00000001#32

/-- MAX_CODE_LEN, the longest codeword (R5). -/
def Config.maxCodeLen : Nat := 32

/-- HDR_BYTES, the length of a compressed stream's header (R5). -/
def Config.hdrBytes : Nat := 4

/-- TRIE_NODES, the room of the decode trie (R5, R35). -/
def Config.trieNodes : Nat := 8193

/-- The largest IN_CAP and OUT_CAP an implementation may choose (R5). -/
def Config.capLimit : Nat := 262144

/-- OPEN parameter (R5, PA1), counted from 0 so that every value is a legal one. DESIGN CHOICE, safe: log 1. -/
opaque Config.inCapIndex : Fin 262144

/-- OPEN parameter (R5, PA2), counted from 0 so that every value is a legal one. DESIGN CHOICE, safe: log 1. -/
opaque Config.outCapIndex : Fin 262144

/-- IN_CAP of the block that comes out of State.reset. -/
def Config.inCap : Nat := Config.inCapIndex.val + 1

/-- OUT_CAP of the block that comes out of State.reset. -/
def Config.outCap : Nat := Config.outCapIndex.val + 1

/-- The free bytes of draw `d`: the unspecified contents of a buffer, one byte per index (U1, U2, U4, U5).
DESIGN CHOICE, safe: logs 2 and 4. -/
opaque Config.anyByte (d k : Nat) : Byte

/-- The free word of draw `d`: LATCH after reset and the `any` of a busy-window read (U3, U6, U7, U8).
DESIGN CHOICE, safe: logs 3 and 5. -/
opaque Config.anyWord (d : Nat) : Word

/-- The free count of draw `d`: the host accesses between a command's issue and its completion (U9).
DESIGN CHOICE, safe: log 6. -/
opaque Config.busyDelay (d : Nat) : Nat

end Sys2Proof
end

