-- ==== Sys2Proof/Syntax.lean ====
section
/-! DEFINITION. The commands of the block, one constructor per row of spec/opcode_table.json (30_encoding.md R84).
A command has no operand fields (R81): its operands are block state. -/

namespace Sys2Proof

/-- The eleven commands of R84, in opcode order. -/
inductive Instr where
  | nop
  | softReset
  | freqCount
  | buildTree
  | assignCodes
  | buildDict
  | dictClear
  | dictWrite
  | encode
  | buildTrie
  | decode
  deriving DecidableEq, Repr

end Sys2Proof
end

