-- ==== Sys2Proof/WellFormed.lean ====
section
/-! DEFINITION. What may stand in a command word, at an offset and in the parameters. A command has no operand
fields, so an `Instr` is well-formed by its type; the checks are on the raw word it is decoded from (30_encoding.md
R80, R83), on an access's offset (20_memory.md R56) and on the parameters (00_scope.md R5). -/

namespace Sys2Proof

/-- RSVD, bits 31:8 of a command word, must be zero (R80). -/
def WellFormed.rsvdZero (w : Word) : Bool := w.extractLsb' 8 24 == 0#24

/-- OPCODE, bits 7:0 of a command word, is one of 0x00..0x0A (R83, R84). -/
def WellFormed.opcodeListed (w : Word) : Bool := (w.extractLsb' 0 8).toNat ≤ 0x0A

/-- A legal command word: every other word is illegal (R85). -/
def WellFormed.commandWord (w : Word) : Bool := WellFormed.rsvdZero w && WellFormed.opcodeListed w

/-- Every command is well-formed: it carries no field (R81). -/
def WellFormed.instr : Instr → Bool
  | .nop => true
  | .softReset => true
  | .freqCount => true
  | .buildTree => true
  | .assignCodes => true
  | .buildDict => true
  | .dictClear => true
  | .dictWrite => true
  | .encode => true
  | .buildTrie => true
  | .decode => true

/-- A host access is at an offset with `off[1:0] = 0` (R56). -/
def WellFormed.offset (off : Offset) : Bool := off.extractLsb' 0 2 == 0#2

/-- 1 <= IN_CAP, OUT_CAP <= 262144 (R5). -/
def WellFormed.capacity (cap : Nat) : Bool := 1 ≤ cap && cap ≤ Config.capLimit

end Sys2Proof
end

