-- ==== Sys2Proof/Decode.lean ====
section
/-! DEFINITION. Decoding a command word (30_encoding.md R80 to R85) and encoding a command. Total on every 32-bit
word; a word that is no command is rejected by the name of the field that makes it illegal. -/

namespace Sys2Proof

/-- Why a word is illegal (R85). R83 tests RSVD first. -/
inductive IllegalWord where
  | rsvdNonzero      -- w[31:8] != 0
  | opcodeReserved   -- w[31:8] = 0 and w[7:0] in 0x0B..0xFF
  deriving DecidableEq, Repr

/-- The OPCODE field (R80). -/
def opcodeField (w : Word) : Byte := w.extractLsb' 0 8

/-- The RSVD field (R80). -/
def rsvdField (w : Word) : BitVec 24 := w.extractLsb' 8 24

/-- The opcode map of R84, read from an opcode. -/
def instrOfOpcode : Nat → Option Instr
  | 0x00 => some .nop
  | 0x01 => some .softReset
  | 0x02 => some .freqCount
  | 0x03 => some .buildTree
  | 0x04 => some .assignCodes
  | 0x05 => some .buildDict
  | 0x06 => some .dictClear
  | 0x07 => some .dictWrite
  | 0x08 => some .encode
  | 0x09 => some .buildTrie
  | 0x0A => some .decode
  | _ => none

/-- `decode(w)` of R83. It depends on nothing but `w`. -/
def decode (w : Word) : Except IllegalWord Instr :=
  if rsvdField w ≠ 0#24 then .error .rsvdNonzero
  else
    match instrOfOpcode (opcodeField w).toNat with
    | some i => .ok i
    | none => .error .opcodeReserved

/-- The opcode map of R84, read from a command. -/
def Instr.opcode : Instr → Byte
  | .nop => 0x00#8
  | .softReset => 0x01#8
  | .freqCount => 0x02#8
  | .buildTree => 0x03#8
  | .assignCodes => 0x04#8
  | .buildDict => 0x05#8
  | .dictClear => 0x06#8
  | .dictWrite => 0x07#8
  | .encode => 0x08#8
  | .buildTrie => 0x09#8
  | .decode => 0x0A#8

/-- "The command word of each command is its OPCODE zero-extended to 32 bits" (R84). -/
def encode (i : Instr) : Word := i.opcode.setWidth 32

/-- The host's question: the command read from an instruction of `nbits` bits whose value is `w`. A command is one
32-bit word (R82); the bits above `nbits` are zero. -/
def decodeTableWord (nbits w : Nat) : Option Instr :=
  match decode (BitVec.ofNat 32 (w % 2 ^ nbits)) with
  | .ok i => some i
  | .error _ => none

end Sys2Proof
end

