-- ==== Sys2Proof/Machine/State.lean ====
section
/-! DEFINITION. The architectural state of the block (10_state.md), the reasons a step can stop, and the state after
reset (R41). -/

namespace Sys2Proof.Machine

/-- The engine phase, mirrored in STATUS.BUSY (R28). -/
inductive Phase where
  | idle
  | busy
  deriving DecidableEq, Repr

/-- The codes ERR_CODE may hold; "Every other code value is never written" (60_exceptions.md R270). -/
inductive ErrCode where
  | noError
  | illegalCommand
  | badLength
  | notReady
  | formatMalformed
  | formatDuplicateCodeword
  | formatDuplicateSymbol
  | codeTooLong
  | encodeSymbolMissing
  | bitCountOverflow
  | outputOverflow
  | decodeTreeCorrupt
  | streamTruncatedData
  | streamTruncatedMidcode
  | invalidCode
  deriving DecidableEq, Repr

/-- What a command's `raise E(info)` reports (R271). -/
structure ErrorRecord where
  code : ErrCode
  info : Word
  deriving DecidableEq, Repr

/-- An entry of DICT (R32): absent is `(0, 0, 0)`, present `(1, len, val)`. -/
structure Entry where
  valid : Bool
  len : BitVec 6
  val : Word
  deriving DecidableEq, Repr

/-- What a child pointer of a trie node holds (R35): nothing, a leaf with its symbol, or an internal node. -/
inductive Child where
  | absent
  | leaf (sym : Byte)
  | internal (child0 child1 : Child)
  deriving DecidableEq, Repr

/-- The decode trie, "always an `Internal` node (the root)" (R35): the root's two children. The decoder's cursor is
of the same type. -/
structure Trie where
  child0 : Child
  child1 : Child
  deriving DecidableEq, Repr

/-- A byte buffer: the cells that differ from the free bytes of draw `seed`, by rising index. An index with no cell
holds `Config.anyByte seed k` (R33, R34; log 2). -/
structure Buffer where
  cells : List Host.Cell
  seed : Nat
  deriving DecidableEq, Repr

/-- The width of a host access the block does not define (20_memory.md R56). -/
inductive NarrowWidth where
  | bits8
  | bits16
  deriving DecidableEq, Repr

/-- What the host program does next: the primitive statements of 30_encoding.md R87 with their offsets resolved, the
`wait` of R88, the stop of a failed stage (44_dictionary.md R184, 47_pipeline.md R259; log 14), the reads that collect
`OUT[0..OUT_LEN)` (R252, R253; log 14), the reset input (70_reset_and_hazards.md R300) and the accesses R56 refuses. -/
inductive HostStmt where
  | wr (off : Offset) (v : Word)
  | rd (off : Offset)
  | check (off : Offset) (v : Word)
  | checkm (off : Offset) (mask v : Word)
  | wait
  | stopIfError
  | readOut
  | reset
  | narrow (width : NarrowWidth) (off : Offset)
  deriving DecidableEq, Repr

/-- One bus transaction of R89, a read with the word it returned. -/
inductive BusTxn where
  | write (off : Offset) (v : Word)
  | read (off : Offset) (v : Word)
  deriving DecidableEq, Repr

/-- The state of the block (R20 to R35), then the model's own fields: the free values' counter, the host accesses
still to come in the busy window, the host's program, its bus trace and its two verdicts. -/
structure State where
  /-- IN_CAP, the parameter the read-only register shows (R22; log 1). -/
  inCap : Nat
  /-- OUT_CAP, the parameter the read-only register shows (R22; log 1). -/
  outCap : Nat
  /-- PHASE; STATUS.BUSY is computed from it (R28; log 16). -/
  phase : Phase
  /-- LATCH, the command word being executed (R28). -/
  latch : Word
  /-- STATUS bit 1 (R24). -/
  done : Bool
  /-- STATUS bit 2 (R24). -/
  error : Bool
  /-- STATUS bit 3 (R24). -/
  overrun : Bool
  /-- STATUS bit 4 (R24). -/
  lenValid : Bool
  /-- STATUS bit 5 (R24). -/
  trieValid : Bool
  /-- STATUS bit 6 (R24). -/
  outValid : Bool
  /-- STATUS bit 7 (R24). -/
  dictBad : Bool
  /-- ERR_CODE (R25). -/
  errCode : ErrCode
  /-- ERR_INFO (R25). -/
  errInfo : Word
  /-- IRQ_EN: bit 0 DONE_IE, bit 1 ERROR_IE (R26). -/
  irqEn : BitVec 2
  /-- IN_LEN (R27). -/
  inLen : Word
  /-- OUT_LEN (R27). -/
  outLen : Word
  /-- BIT_COUNT (R27). -/
  bitCount : Word
  /-- NSYM (R27). -/
  nsym : BitVec 9
  /-- ARG0 (R29). -/
  arg0 : Word
  /-- ARG1 (R29). -/
  arg1 : Word
  /-- FREQ (R30). -/
  freq : Table Word
  /-- LEN (R31). -/
  len : Table (BitVec 6)
  /-- DICT (R32). -/
  dict : Table Entry
  /-- TRIE (R35). -/
  trie : Trie
  /-- IN (R33). -/
  inBuf : Buffer
  /-- OUT (R34). -/
  outBuf : Buffer
  /-- Model's own: the index of the next free value (log 7). -/
  draws : Nat
  /-- Model's own: host accesses still to come before the engine moves (U9; log 6). -/
  delay : Nat
  /-- Model's own: the host's statements still to run (log 8). -/
  program : List HostStmt
  /-- Model's own: the bus transactions the program has made so far, first first (log 8). -/
  trace : List BusTxn
  /-- Model's own: some `check` or `checkm` of the program did not hold (R87; log 20). -/
  checkFailed : Bool
  /-- Model's own: the stage at hand has failed and its host program reports failure (R259; log 14). -/
  hostFailed : Bool
  deriving DecidableEq, Repr

/-- The block has no fault: "Every command completes, with success or with an error code"
(93_implementation_defined.md section 5). Nobody raises one. -/
inductive Fault where
  deriving DecidableEq, Repr

/-- Why a step has no meaning. -/
inductive Refusal where
  /-- A command whose meaning is not written yet; raised by no arm of `exec` (safe). -/
  | notModelled (mnemonic : String)
  /-- A host access at an offset with `off[1:0] != 0`: "A model refuses such an access" (R56, X2); raised by the host
  step (safe). -/
  | misalignedAccess
  /-- An 8-bit or 16-bit host access (R56, X1); raised by the host step (safe). -/
  | narrowAccess
  deriving DecidableEq, Repr

/-- An absent entry (R32). -/
def Entry.absent : Entry := { valid := false, len := 0#6, val := 0#32 }

/-- `Internal(none, none)` (R35). -/
def Trie.empty : Trie := { child0 := .absent, child1 := .absent }

/-- The state after hardware reset (R41, R301), with an empty host program. IN, OUT and LATCH, which R41 leaves
unspecified, are the free values of draws 0, 1 and 2 (logs 2, 3, 7). -/
def State.reset : State :=
  { inCap := Config.inCap
    outCap := Config.outCap
    phase := .idle
    latch := Config.anyWord 2
    done := false
    error := false
    overrun := false
    lenValid := false
    trieValid := false
    outValid := false
    dictBad := false
    errCode := .noError
    errInfo := 0#32
    irqEn := 0#2
    inLen := 0#32
    outLen := 0#32
    bitCount := 0#32
    nsym := 0#9
    arg0 := 0#32
    arg1 := 0#32
    freq := Vector.replicate 256 0#32
    len := Vector.replicate 256 0#6
    dict := Vector.replicate 256 Entry.absent
    trie := Trie.empty
    inBuf := { cells := [], seed := 0 }
    outBuf := { cells := [], seed := 1 }
    draws := 3
    delay := 0
    program := []
    trace := []
    checkFailed := false
    hostFailed := false }

end Sys2Proof.Machine
end

