-- ==== Sys2Proof/Machine/Ops.lean ====
section
/-! DEFINITION. The named operations over the state: tables, byte buffers, free values, error entry and command
completion (60_exceptions.md R271, 40_control.md R102), command issue (R100) and hardware reset
(70_reset_and_hazards.md R300). -/

namespace Sys2Proof.Machine

/-! ## Tables -/

/-- The symbols 0..255 in ascending order. -/
def allBytes : List Byte := (List.range 256).map (BitVec.ofNat 8)

/-- Entry `s` of a table. -/
def tableGet {α : Type} (t : Table α) (s : Byte) : α := t[s.toNat]'s.isLt

/-- A table with entry `s` replaced. -/
def tableSet {α : Type} (t : Table α) (s : Byte) (v : α) : Table α := t.set s.toNat v s.isLt

/-- The table whose entry `s` is `f s`. -/
def tableOf {α : Type} (f : Byte → α) : Table α := ⟨(allBytes.map f).toArray, by simp [allBytes]⟩

/-- The table with `v` at every symbol. -/
def tableFill {α : Type} (v : α) : Table α := Vector.replicate 256 v

/-- `dflt` everywhere, then the pairs of `l` stored, the first pair of a symbol winning. -/
def tableOfPairs {α : Type} (dflt : α) : List (Byte × α) → Table α
  | [] => tableFill dflt
  | (s, v) :: l => tableSet (tableOfPairs dflt l) s v

/-- The number of present entries of a dictionary (10_state.md R27 (d)). -/
def numPresent (d : Table Entry) : Nat := d.toList.countP (fun e => e.valid)

/-! ## Byte buffers -/

/-- The cell at index `k`, if one is listed. -/
def cellAt (k : Nat) : List Host.Cell → Option Byte
  | [] => none
  | (i, b) :: cells => if i = k then some b else cellAt k cells

/-- Byte `k` of a buffer: its cell, else the free byte of the buffer's draw. -/
def Buffer.read (b : Buffer) (k : Nat) : Byte := (cellAt k b.cells).getD (Config.anyByte b.seed k)

/-- The cells with index `k` taken out. -/
def eraseCell (k : Nat) (cells : List Host.Cell) : List Host.Cell := cells.filter (fun c => c.1 != k)

/-- The cells with a cell put in its place by rising index (no cell with index `k` is listed). -/
def insertCell (k : Nat) (v : Byte) : List Host.Cell → List Host.Cell
  | [] => [(k, v)]
  | (i, b) :: cells => if k < i then (k, v) :: (i, b) :: cells else (i, b) :: insertCell k v cells

/-- The buffer with byte `k` set to `v`, in canonical form: a byte equal to what an unlisted index reads as takes no
cell. -/
def Buffer.write (b : Buffer) (k : Nat) (v : Byte) : Buffer :=
  if v = Config.anyByte b.seed k then { b with cells := eraseCell k b.cells }
  else { b with cells := insertCell k v (eraseCell k b.cells) }

/-- Bytes `k, k+1, ...` set to the bytes of a list. -/
def Buffer.writeList (b : Buffer) (k : Nat) : List Byte → Buffer
  | [] => b
  | v :: vs => (b.write k v).writeList (k + 1) vs

/-- The first `n` bytes of a buffer. -/
def Buffer.bytes (b : Buffer) (n : Nat) : List Byte := (List.range n).map b.read

/-- A buffer whose every byte is the free byte of draw `d` (`any`, R9). -/
def Buffer.any (d : Nat) : Buffer := { cells := [], seed := d }

/-- The indexes of the cells rise strictly. -/
def risingFrom : Nat → List Host.Cell → Bool
  | _, [] => true
  | lo, (i, _) :: cells => lo ≤ i && risingFrom (i + 1) cells

/-- The canonical form of a buffer of `cap` bytes: indexes rise strictly and stay below `cap`, and no cell holds what
its index would read without it. -/
def Buffer.wf (cap : Nat) (b : Buffer) : Bool :=
  risingFrom 0 b.cells && b.cells.all (fun c => c.1 < cap && c.2 != Config.anyByte b.seed c.1)

/-! ## Ending a command -/

/-- What a command body returns: the state it leaves and the error it raised, if any (40_control.md R103). -/
abbrev BodyResult := State × Option ErrorRecord

/-- `finish` (R9). -/
def finish (s : State) : BodyResult := (s, none)

/-- `raise E(info)` (R9, R271): the state writes made before stand. -/
def raise (code : ErrCode) (info : Word) (s : State) : BodyResult := (s, some { code := code, info := info })

/-- Completion of a command (R102), and with an error the error entry of R271. Nothing else is saved: there is no
vector, no handler address, no saved program counter and no mode change, and no return operation (R275). -/
def complete (r : BodyResult) : State :=
  match r.2 with
  | none => { r.1 with phase := .idle, done := true }
  | some e => { r.1 with phase := .idle, done := true, error := true, errCode := e.code, errInfo := e.info }

/-- The completed command as an outcome of the engine step: every command completes. -/
def completed (r : BodyResult) : Host.Outcome State Fault Refusal := .next (complete r)

/-- What an illegal command does (40_control.md R107): it raises ILLEGAL_COMMAND with the latched word. -/
def bodyIllegal (s : State) : BodyResult := raise .illegalCommand s.latch s

/-- `fail(E, i)` of ENCODE and DECODE (45_bitstream_encoder.md R205, 46_trie_decoder.md R230): no output, and every
byte of OUT a fresh free value (U4, U5; log 4). -/
def failOutput (code : ErrCode) (info : Word) (s : State) : BodyResult :=
  raise code info
    { s with
      outLen := 0#32
      bitCount := 0#32
      outValid := false
      outBuf := Buffer.any s.draws
      draws := s.draws + 1 }

/-! ## Issue and reset -/

/-- The state changes of a command issue (40_control.md R100). -/
def latchCommand (w : Word) (s : State) : State :=
  { s with latch := w, phase := .busy, done := false, error := false, errCode := .noError, errInfo := 0#32 }

/-- A command issue: R100, and the free draw of how many host accesses come before its completion (U9; log 6). -/
def issue (w : Word) (s : State) : State :=
  { latchCommand w s with delay := Config.busyDelay s.draws, draws := s.draws + 1 }

/-- Hardware reset (R300): every piece of the block's state to its reset value (R41), the parameters kept, IN, OUT and
LATCH drawn anew. The host's program, trace and verdicts are not the block's. -/
def hardwareReset (s : State) : State :=
  { State.reset with
    inCap := s.inCap
    outCap := s.outCap
    inBuf := Buffer.any s.draws
    outBuf := Buffer.any (s.draws + 1)
    latch := Config.anyWord (s.draws + 2)
    draws := s.draws + 3
    program := s.program
    trace := s.trace
    checkFailed := s.checkFailed
    hostFailed := s.hostFailed }

end Sys2Proof.Machine
end

