-- ==== Sys2Proof/Machine/Control.lean ====
section
/-! DEFINITION. The control commands NOP and SOFT_RESET (40_control.md R105, R106). -/

namespace Sys2Proof.Machine

/-- The body of NOP: `finish` (R105). -/
def bodyNop (s : State) : BodyResult := finish s

/-- NOP (R105). -/
def execNop (s : State) : Host.Outcome State Fault Refusal := completed (bodyNop s)

/-- The body of SOFT_RESET (R106): everything to its reset value but IRQ_EN, IN, OUT, the parameters and LATCH, which
keeps the SOFT_RESET word (70_reset_and_hazards.md R303). -/
def bodySoftReset (s : State) : BodyResult :=
  finish
    { s with
      overrun := false
      lenValid := false
      trieValid := false
      outValid := false
      dictBad := false
      inLen := 0#32
      outLen := 0#32
      bitCount := 0#32
      nsym := 0#9
      arg0 := 0#32
      arg1 := 0#32
      freq := tableFill 0#32
      len := tableFill 0#6
      dict := tableFill Entry.absent
      trie := Trie.empty }

/-- SOFT_RESET (R106). -/
def execSoftReset (s : State) : Host.Outcome State Fault Refusal := completed (bodySoftReset s)

end Sys2Proof.Machine
end

