-- ==== Sys2Proof/Machine/Operands.lean ====
section
/-! DEFINITION. The operands commands read (30_encoding.md R81): the input bytes and their length check, DICT_WRITE's
operand registers, and codewords (00_scope.md R8). -/

namespace Sys2Proof.Machine

/-- `check_in_len()` (40_control.md R104): the error it raises, if any. -/
def checkInLen (s : State) : Option ErrorRecord :=
  if s.inCap < s.inLen.toNat then some { code := .badLength, info := s.inLen } else none

/-- The input bytes `IN[0..IN_LEN)`. -/
def inputBytes (s : State) : List Byte := s.inBuf.bytes s.inLen.toNat

/-- `sym = ARG0[7:0]` (R29, R81). -/
def argSymbol (s : State) : Byte := s.arg0.extractLsb' 0 8

/-- `len = ARG0[13:8]` (R29, R81). -/
def argLength (s : State) : BitVec 6 := s.arg0.extractLsb' 8 6

/-- `ARG0[31:14]`, required to be zero (R29, R81). -/
def argReserved (s : State) : BitVec 18 := s.arg0.extractLsb' 14 18

/-- A well-formed codeword operand: `1 <= len <= 32` and `val < 2^len` (44_dictionary.md R170). -/
def wellFormedCode (len : Nat) (val : Nat) : Bool := 1 ≤ len && len ≤ Config.maxCodeLen && val < 2 ^ len

/-- `bitsOf(len, val)`: `val[len-1], ..., val[0]` (R8, R9). -/
def bitsOf (len : Nat) (val : Word) : List Bool := (List.range len).map (fun i => val.getLsbD (len - 1 - i))

/-- `valOf(c)`: the number whose binary form, most significant bit first, is `c` (R9). -/
def valOf (c : List Bool) : Nat := c.foldl (fun acc b => 2 * acc + b.toNat) 0

/-- The codeword of an entry. -/
def Entry.bits (e : Entry) : List Bool := bitsOf e.len.toNat e.val

end Sys2Proof.Machine
end

