-- ==== Sys2Proof/Machine/Decoder.lean ====
section
/-! DEFINITION. trie_decoder: reconstruction of the decode trie, BUILD_TRIE and DECODE (46_trie_decoder.md R220 to
R236). -/

namespace Sys2Proof.Machine

/-! ## The trie -/

/-- `insert`'s path: the bits `val[len-1], ..., val[1]`, then the last bit `val[0]` (R220). For `len >= 1` it is the
codeword (log 11). -/
def insertPath (len : Nat) (val : Word) : List Bool :=
  (List.range (len - 1)).map (fun i => val.getLsbD (len - 1 - i)) ++ [val.getLsbD 0]

/-- `insert` below a child pointer: the rest of the path from it, `none` for CORRUPT (R220). -/
def Child.insert (s : Byte) : List Bool → Child → Option Child
  | [], .absent => some (.leaf s)
  | [], .leaf _ => none
  | [], .internal _ _ => none
  | _ :: _, .leaf _ => none
  | b :: path, .absent =>
    if b then (Child.insert s path .absent).map (.internal .absent ·)
    else (Child.insert s path .absent).map (.internal · .absent)
  | b :: path, .internal c0 c1 =>
    if b then (Child.insert s path c1).map (.internal c0 ·)
    else (Child.insert s path c0).map (.internal · c1)

/-- `insert` from the root (R220): the first bit picks the root's child. A path is never empty. -/
def Trie.insert (s : Byte) (path : List Bool) (t : Trie) : Option Trie :=
  match path with
  | [] => none
  | b :: rest =>
    if b then (Child.insert s rest t.child1).map (fun c => { t with child1 := c })
    else (Child.insert s rest t.child0).map (fun c => { t with child0 := c })

/-- `build_trie` over a list of symbols, in its order: the trie, or the symbol whose insertion found a violation
(R221). -/
def insertAll (d : Table Entry) : List Byte → Trie → Except Byte Trie
  | [], t => .ok t
  | s :: rest, t =>
    if (tableGet d s).valid then
      match t.insert s (insertPath (tableGet d s).len.toNat (tableGet d s).val) with
      | none => .error s
      | some t' => insertAll d rest t'
    else insertAll d rest t

/-- `build_trie(D)`: the present entries in ascending symbol order (R221). -/
def buildTrie (d : Table Entry) : Except Byte Trie := insertAll d allBytes Trie.empty

/-- The body of BUILD_TRIE (R225). -/
def bodyBuildTrie (s : State) : BodyResult :=
  if s.dictBad then raise .notReady 0x09#32 s
  else
    match buildTrie s.dict with
    | .error sym => raise .decodeTreeCorrupt (sym.setWidth 32) { s with trie := Trie.empty, trieValid := false }
    | .ok t => finish { s with trie := t, trieValid := true }

/-- BUILD_TRIE (R225). -/
def execBuildTrie (s : State) : Host.Outcome State Fault Refusal := completed (bodyBuildTrie s)

/-! ## The walk -/

/-- The child a bit selects: "Bit value `b` selects `child_b`" (R35). -/
def Trie.child (t : Trie) (b : Bool) : Child := if b then t.child1 else t.child0

/-- The walk over `n` bits from bit `j` on (R230, R232): the cursor `node` at depth `depth`, the symbols emitted so
far in `out`. It answers the depth it ends at and the symbols, or the error it meets. -/
def walk (root : Trie) (bit : Nat → Bool) (cap : Nat) :
    (n j : Nat) → Trie → Nat → List Byte → Except ErrorRecord (Nat × List Byte)
  | 0, _, _, depth, out => .ok (depth, out)
  | n + 1, j, node, depth, out =>
    match node.child (bit j) with
    | .absent => .error { code := .invalidCode, info := BitVec.ofNat 32 j }
    | .leaf s =>
      if out.length = cap then .error { code := .outputOverflow, info := BitVec.ofNat 32 j }
      else walk root bit cap n (j + 1) root 0 (out ++ [s])
    | .internal c0 c1 => walk root bit cap n (j + 1) { child0 := c0, child1 := c1 } (depth + 1) out

/-- The count in the header, most significant byte first (R231). -/
def headerCount (bytes : List Byte) : Nat :=
  (bytes.getD 0 0#8).toNat * 2 ^ 24 + (bytes.getD 1 0#8).toNat * 2 ^ 16 + (bytes.getD 2 0#8).toNat * 2 ^ 8
    + (bytes.getD 3 0#8).toNat

/-- Bit `j` of a stream: bit `7 - (j mod 8)` of byte `4 + j div 8` (R232). -/
def streamBit (bytes : List Byte) (j : Nat) : Bool := (bytes.getD (Config.hdrBytes + j / 8) 0#8).getLsbD (7 - j % 8)

/-- `decode(T, I)` (R236), with the capacity that OUTPUT_OVERFLOW depends on: the count and the symbols, or the
error. -/
def decodeStream (t : Trie) (cap : Nat) (bytes : List Byte) : Except ErrorRecord (Nat × List Byte) :=
  if bytes.length < Config.hdrBytes then
    .error { code := .streamTruncatedData, info := BitVec.ofNat 32 bytes.length }
  else
    let n := headerCount bytes
    if bytes.length - Config.hdrBytes < (n + 7) / 8 then
      .error { code := .streamTruncatedData, info := BitVec.ofNat 32 bytes.length }
    else
      match walk t (streamBit bytes) cap n 0 t 0 [] with
      | .error e => .error e
      | .ok (depth, out) =>
        if depth ≠ 0 then .error { code := .streamTruncatedMidcode, info := BitVec.ofNat 32 n } else .ok (n, out)

/-- The successful end of DECODE: the symbols into OUT from index 0, the bytes after them kept (R230). -/
def storeDecoded (n : Nat) (out : List Byte) (s : State) : State :=
  { s with
    outBuf := s.outBuf.writeList 0 out
    outLen := BitVec.ofNat 32 out.length
    bitCount := BitVec.ofNat 32 n
    outValid := true }

/-- The body of DECODE (R230). -/
def bodyDecode (s : State) : BodyResult :=
  match checkInLen s with
  | some e => failOutput e.code e.info s
  | none =>
    if s.trieValid then
      match decodeStream s.trie s.outCap (inputBytes s) with
      | .error e => failOutput e.code e.info s
      | .ok (n, out) => finish (storeDecoded n out s)
    else failOutput .notReady 0x0A#32 s

/-- DECODE (R230). -/
def execDecode (s : State) : Host.Outcome State Fault Refusal := completed (bodyDecode s)

end Sys2Proof.Machine
end

