-- ==== Sys2Proof/Machine/Dictionary.lean ====
section
/-! DEFINITION. dictionary_store: DICT_CLEAR and DICT_WRITE (44_dictionary.md R170 to R177). -/

namespace Sys2Proof.Machine

/-- The body of DICT_CLEAR (R171). -/
def bodyDictClear (s : State) : BodyResult :=
  finish { s with dict := tableFill Entry.absent, nsym := 0#9, trieValid := false, dictBad := false }

/-- DICT_CLEAR (R171). -/
def execDictClear (s : State) : Host.Outcome State Fault Refusal := completed (bodyDictClear s)

/-- A malformed operand (R173): a nonzero reserved field, or a codeword that is not well-formed (R170). -/
def malformedOperand (s : State) : Bool :=
  argReserved s != 0#18 || !wellFormedCode (argLength s).toNat s.arg1.toNat

/-- The symbol whose present entry holds the identical codeword (R174); the least one, should there be several
(log 10). -/
def codewordHolder (d : Table Entry) (len : BitVec 6) (val : Word) : Option Byte :=
  allBytes.find? (fun t => tableGet d t == { valid := true, len := len, val := val })

/-- A FORMAT_* error: DICT_BAD is set (R176). -/
def raiseFormat (code : ErrCode) (info : Word) (s : State) : BodyResult := raise code info { s with dictBad := true }

/-- The body of DICT_WRITE past its NOT_READY check, TRIE_VALID already cleared (R172 to R175). -/
def writeEntry (s : State) : BodyResult :=
  if malformedOperand s then raiseFormat .formatMalformed s.arg0 s
  else
    match codewordHolder s.dict (argLength s) s.arg1 with
    | some t => raiseFormat .formatDuplicateCodeword (t.setWidth 32) s
    | none =>
      if (tableGet s.dict (argSymbol s)).valid then
        raiseFormat .formatDuplicateSymbol ((argSymbol s).setWidth 32) s
      else
        finish
          { s with
            dict := tableSet s.dict (argSymbol s) { valid := true, len := argLength s, val := s.arg1 }
            nsym := s.nsym + 1#9 }

/-- The body of DICT_WRITE (R172). -/
def bodyDictWrite (s : State) : BodyResult :=
  if s.dictBad then raise .notReady 0x07#32 s else writeEntry { s with trieValid := false }

/-- DICT_WRITE (R172). -/
def execDictWrite (s : State) : Host.Outcome State Fault Refusal := completed (bodyDictWrite s)

end Sys2Proof.Machine
end

