-- ==== Sys2Proof/Machine/Encoder.lean ====
section
/-! DEFINITION. bitstream_encoder: the compressed stream and ENCODE (45_bitstream_encoder.md R200 to R207). -/

namespace Sys2Proof.Machine

/-- `ceil(N/8)`. -/
def packedLength (n : Nat) : Nat := (n + 7) / 8

/-- The byte whose bit `7 - j` is `bit j`, most significant first (R202). -/
def packByte (bit : Nat → Bool) : Byte :=
  BitVec.ofBool (bit 0) ++ BitVec.ofBool (bit 1) ++ BitVec.ofBool (bit 2) ++ BitVec.ofBool (bit 3)
    ++ BitVec.ofBool (bit 4) ++ BitVec.ofBool (bit 5) ++ BitVec.ofBool (bit 6) ++ BitVec.ofBool (bit 7)

/-- The packed bytes `P_0 P_1 ...`: bit `j` of `B` is bit `7 - (j mod 8)` of byte `j div 8`, the padding bits zero
(R202, R203). -/
def packBits (bits : List Bool) : List Byte :=
  (List.range (packedLength bits.length)).map (fun i => packByte (fun j => bits.getD (8 * i + j) false))

/-- The count's four header bytes, most significant first (R201). -/
def headerBytes (n : Word) : List Byte :=
  [n.extractLsb' 24 8, n.extractLsb' 16 8, n.extractLsb' 8 8, n.extractLsb' 0 8]

/-- `stream(|B|, B)` (R200). -/
def streamOf (bits : List Bool) : List Byte := headerBytes (BitVec.ofNat 32 bits.length) ++ packBits bits

/-- `encode_bits(D, S)`: the codewords one after another (R204, R206). -/
def encodeBits (d : Table Entry) (bytes : List Byte) : List Bool := bytes.flatMap (fun b => (tableGet d b).bits)

/-- The least index whose byte has no codeword, counted from `k` (R205). -/
def firstMissing (d : Table Entry) (k : Nat) : List Byte → Option Nat
  | [] => none
  | b :: bytes => if (tableGet d b).valid then firstMissing d (k + 1) bytes else some k

/-- The successful end of ENCODE: the stream into OUT from index 0, the bytes after it kept (R205). -/
def storeStream (bits : List Bool) (s : State) : State :=
  { s with
    outBuf := s.outBuf.writeList 0 (streamOf bits)
    outLen := BitVec.ofNat 32 (Config.hdrBytes + packedLength bits.length)
    bitCount := BitVec.ofNat 32 bits.length
    outValid := true }

/-- The body of ENCODE past its length and dictionary checks (R205). -/
def encodeInput (s : State) : BodyResult :=
  match firstMissing s.dict 0 (inputBytes s) with
  | some k => failOutput .encodeSymbolMissing (BitVec.ofNat 32 k) s
  | none =>
    let bits := encodeBits s.dict (inputBytes s)
    if 2 ^ 32 - 1 < bits.length then failOutput .bitCountOverflow 0xFFFFFFFF#32 s
    else
      let total := Config.hdrBytes + packedLength bits.length
      if s.outCap < total then failOutput .outputOverflow (BitVec.ofNat 32 total) s
      else finish (storeStream bits s)

/-- The body of ENCODE (R205). -/
def bodyEncode (s : State) : BodyResult :=
  match checkInLen s with
  | some e => failOutput e.code e.info s
  | none => if s.dictBad then failOutput .notReady 0x08#32 s else encodeInput s

/-- ENCODE (R205). -/
def execEncode (s : State) : Host.Outcome State Fault Refusal := completed (bodyEncode s)

end Sys2Proof.Machine
end

