-- ==== Sys2Proof/Machine/Canonical.lean ====
section
/-! DEFINITION. canonical_code_assigner: the canonical function and ASSIGN_CODES (43_canonical_assigner.md R150 to
R155). -/

namespace Sys2Proof.Machine

/-- The order of R150: length ascending, then symbol ascending. -/
abbrev lengthOrder (a b : Byte × Nat) : Prop := a.2 < b.2 ∨ (a.2 = b.2 ∧ a.1.toNat ≤ b.1.toNat)

/-- `E`: the symbols with a length, sorted (R150). -/
def sortedLengths (l : Table (BitVec 6)) : List (Byte × Nat) :=
  ((allBytes.map (fun s => (s, (tableGet l s).toNat))).filter (fun p => p.2 != 0)).insertionSort lengthOrder

/-- The codes after the first one: `code <- (code + 1) << (l - prev)` (R151). -/
def codesAfter (code prev : Nat) : List (Byte × Nat) → List (Byte × Nat × Nat)
  | [] => []
  | (s, l) :: rest =>
    let c := (code + 1) <<< (l - prev)
    (s, l, c) :: codesAfter c l rest

/-- The list of `(symbol, length, code)` in the order of R150, the first code 0 (R151). -/
def canonicalCodes : List (Byte × Nat) → List (Byte × Nat × Nat)
  | [] => []
  | (s, l) :: rest => (s, l, 0) :: codesAfter 0 l rest

/-- A present entry `(1, len, code)` (R32, R151). A code that does not fit its field, which R153 rules out for lengths
BUILD_TREE writes, keeps its low bits (log 9). -/
def presentEntry (len code : Nat) : Entry := { valid := true, len := BitVec.ofNat 6 len, val := BitVec.ofNat 32 code }

/-- `canonical(L)` (R151). -/
def canonical (l : Table (BitVec 6)) : Table Entry :=
  tableOfPairs Entry.absent ((canonicalCodes (sortedLengths l)).map (fun c => (c.1, presentEntry c.2.1 c.2.2)))

/-- DICT written by the assigner, with NSYM, TRIE_VALID and DICT_BAD (R152). -/
def storeCanonical (s : State) : State :=
  let d := canonical s.len
  { s with dict := d, nsym := BitVec.ofNat 9 (numPresent d), trieValid := false, dictBad := false }

/-- The body of ASSIGN_CODES (R152). -/
def bodyAssignCodes (s : State) : BodyResult :=
  if s.lenValid then finish (storeCanonical s) else raise .notReady 0x04#32 s

/-- ASSIGN_CODES (R152). -/
def execAssignCodes (s : State) : Host.Outcome State Fault Refusal := completed (bodyAssignCodes s)

end Sys2Proof.Machine
end

