-- ==== Sys2Proof/Machine/Frequency.lean ====
section
/-! DEFINITION. frequency_counter: FREQ_COUNT (41_frequency_table.md R120, R121). -/

namespace Sys2Proof.Machine

/-- `freq_count(S)[s]`: how many bytes of `S` are `s` (R120). -/
def freqCount (bytes : List Byte) (s : Byte) : Nat := bytes.count s

/-- FREQ counted from the input: `FREQ[s] <- zext_32(t[s])`, `LEN_VALID <- 0` (R121). -/
def countInput (s : State) : State :=
  { s with
    freq := tableOf (fun sym => BitVec.ofNat 32 (freqCount (inputBytes s) sym))
    lenValid := false }

/-- The body of FREQ_COUNT (R121). -/
def bodyFreqCount (s : State) : BodyResult :=
  match checkInLen s with
  | some e => raise e.code e.info s
  | none => finish (countInput s)

/-- FREQ_COUNT (R121). -/
def execFreqCount (s : State) : Host.Outcome State Fault Refusal := completed (bodyFreqCount s)

end Sys2Proof.Machine
end

