-- ==== Sys2Proof/Machine/Tree.lean ====
section
/-! DEFINITION. huffman_tree_builder: the weighted tree, the length function and BUILD_TREE (42_tree_builder.md R130
to R136). The tree is local to one command (10_state.md R36). -/

namespace Sys2Proof.Machine

/-- The weighted tree of R131: a leaf with its symbol, or an internal node with exactly two children. -/
inductive HuffTree where
  | leaf (sym : Byte)
  | node (child0 child1 : HuffTree)
  deriving DecidableEq, Repr

/-- A node of the priority collection with its key `(w, m)` (R130). Weights are exact (R134). -/
structure QNode where
  weight : Nat
  least : Nat
  tree : HuffTree
  deriving DecidableEq, Repr

/-- The leaf of a symbol: `w = FREQ[s]`, `m = s` (R130). -/
def leafNode (f : Table Word) (s : Byte) : QNode :=
  { weight := (tableGet f s).toNat, least := s.toNat, tree := .leaf s }

/-- The internal node of `(a, b)`: `w = w(a) + w(b)`, `m = min(m(a), m(b))` (R130). -/
def joinNodes (a b : QNode) : QNode :=
  { weight := a.weight + b.weight, least := min a.least b.least, tree := .node a.tree b.tree }

/-- Keys are compared lexicographically (R130). -/
def keyLt (a b : QNode) : Bool := a.weight < b.weight || (a.weight == b.weight && a.least < b.least)

/-- The node of the collection `a, q` with the least key, and the collection without it (R131). -/
def extractLeast (a : QNode) : List QNode → QNode × List QNode
  | [] => (a, [])
  | b :: q =>
    if keyLt b a then
      let r := extractLeast b q
      (r.1, a :: r.2)
    else
      let r := extractLeast a q
      (r.1, b :: r.2)

/-- `while |Q| > 1`: take the two nodes with the least keys out and their parent in (R131). `fuel` bounds the rounds:
each takes one node away. -/
def mergeNodes : Nat → List QNode → Option QNode
  | _, [] => none
  | _, [a] => some a
  | 0, a :: _ :: _ => some a
  | fuel + 1, x :: y :: q =>
    let first := extractLeast x (y :: q)
    match first.2 with
    | [] => some first.1
    | z :: rest =>
      let second := extractLeast z rest
      mergeNodes fuel (joinNodes first.1 second.1 :: second.2)

/-- The leaves under a node with their depths, the node itself at depth `d` (R131). -/
def HuffTree.depths (d : Nat) : HuffTree → List (Byte × Nat)
  | .leaf s => [(s, d)]
  | .node a b => a.depths (d + 1) ++ b.depths (d + 1)

/-- The present symbols of a weight table, ascending (R131). -/
def presentSymbols (f : Table Word) : List Byte := allBytes.filter (fun s => tableGet f s != 0#32)

/-- The symbols with a code and their code lengths: none, the sole symbol at length 1 (R133), or every leaf at its
depth (R131). -/
def symbolLengths (f : Table Word) : List (Byte × Nat) :=
  match presentSymbols f with
  | [] => []
  | [p] => [(p, 1)]
  | p :: q :: rest =>
    match mergeNodes (p :: q :: rest).length ((p :: q :: rest).map (leafNode f)) with
    | some root => root.tree.depths 0
    | none => []

/-- `huffman_lengths(F)` (R131). -/
def huffmanLengths (f : Table Word) : Table Nat := tableOfPairs 0 (symbolLengths f)

/-- `max over s of L[s]`, 0 when no symbol is present (R135). -/
def maxLength (l : Table Nat) : Nat := l.toList.foldl max 0

/-- LEN from a table of lengths: `LEN[s] <- L[s]` (R135). -/
def lengthTable (l : Table Nat) : Table (BitVec 6) := tableOf (fun s => BitVec.ofNat 6 (tableGet l s))

/-- The body of BUILD_TREE (R135). -/
def bodyBuildTree (s : State) : BodyResult :=
  let l := huffmanLengths s.freq
  let d := maxLength l
  if Config.maxCodeLen < d then
    raise .codeTooLong (BitVec.ofNat 32 d) { s with len := tableFill 0#6, lenValid := false }
  else
    finish { s with len := lengthTable l, lenValid := true }

/-- BUILD_TREE (R135). -/
def execBuildTree (s : State) : Host.Outcome State Fault Refusal := completed (bodyBuildTree s)

end Sys2Proof.Machine
end

