-- ==== Sys2Proof/Machine/Pipeline.lean ====
section
/-! DEFINITION. huffman_codec_pipeline: BUILD_DICT (47_pipeline.md R250). -/

namespace Sys2Proof.Machine

/-- The body of BUILD_DICT (R250): count, lengths, codes. The table counted clears LEN_VALID, and on CODE_TOO_LONG it
stays cleared with LEN all 0. -/
def bodyBuildDict (s : State) : BodyResult :=
  match checkInLen s with
  | some e => raise e.code e.info s
  | none =>
    let counted := countInput s
    let l := huffmanLengths counted.freq
    let d := maxLength l
    if Config.maxCodeLen < d then
      raise .codeTooLong (BitVec.ofNat 32 d) { counted with len := tableFill 0#6 }
    else
      finish (storeCanonical { counted with len := lengthTable l, lenValid := true })

/-- BUILD_DICT (R250). -/
def execBuildDict (s : State) : Host.Outcome State Fault Refusal := completed (bodyBuildDict s)

end Sys2Proof.Machine
end

