-- ==== Sys2Proof/Machine/Dispatch.lean ====
section
/-! DEFINITION. The meaning of each command: its body, completed (40_control.md R102). One arm per row of
spec/opcode_table.json. -/

namespace Sys2Proof.Machine

def exec (i : Instr) (s : State) : Host.Outcome State Fault Refusal :=
  match i with
  | .nop => Sys2Proof.Machine.execNop s
  | .softReset => Sys2Proof.Machine.execSoftReset s
  | .freqCount => Sys2Proof.Machine.execFreqCount s
  | .buildTree => Sys2Proof.Machine.execBuildTree s
  | .assignCodes => Sys2Proof.Machine.execAssignCodes s
  | .buildDict => Sys2Proof.Machine.execBuildDict s
  | .dictClear => Sys2Proof.Machine.execDictClear s
  | .dictWrite => Sys2Proof.Machine.execDictWrite s
  | .encode => Sys2Proof.Machine.execEncode s
  | .buildTrie => Sys2Proof.Machine.execBuildTrie s
  | .decode => Sys2Proof.Machine.execDecode s

end Sys2Proof.Machine
end

