-- ==== Sys2Proof/Machine/Engine.lean ====
section
/-! DEFINITION. The engine step (40_control.md R102): decode the latched word and complete the command. -/

namespace Sys2Proof.Machine

/-- The engine step of R102. A word that decodes as illegal completes with ILLEGAL_COMMAND (R83, R107). -/
def engineStep (s : State) : Host.Outcome State Fault Refusal :=
  match decode s.latch with
  | .ok i => exec i s
  | .error _ => completed (bodyIllegal s)

end Sys2Proof.Machine
end

