-- ==== Sys2Proof/Machine/Flags.lean ====
section
/-! DEFINITION. STATUS as the host reads and writes it (10_state.md R24), error codes as numbers
(60_exceptions.md R270) and the interrupt output (R285). -/

namespace Sys2Proof.Machine

/-- STATUS.BUSY, the mirror of PHASE (R28). -/
def State.busy (s : State) : Bool := s.phase == .busy

/-- STATUS as a word: bits 7 to 0 are DICT_BAD, OUT_VALID, TRIE_VALID, LEN_VALID, OVERRUN, ERROR, DONE, BUSY; bits
31:8 read 0 (R24). -/
def statusWord (s : State) : Word :=
  0#24 ++ BitVec.ofBool s.dictBad ++ BitVec.ofBool s.outValid ++ BitVec.ofBool s.trieValid ++ BitVec.ofBool s.lenValid
    ++ BitVec.ofBool s.overrun ++ BitVec.ofBool s.error ++ BitVec.ofBool s.done ++ BitVec.ofBool s.busy

/-- A host write of `v` to STATUS: W1C of DONE, ERROR and OVERRUN, the other bits unchanged (R24). -/
def writeStatus (v : Word) (s : State) : State :=
  { s with
    done := s.done && !v.getLsbD 1
    error := s.error && !v.getLsbD 2
    overrun := s.overrun && !v.getLsbD 3 }

/-- The number of an error code (R270). -/
def ErrCode.number : ErrCode → Byte
  | .noError => 0x00#8
  | .illegalCommand => 0x01#8
  | .badLength => 0x02#8
  | .notReady => 0x03#8
  | .formatMalformed => 0x10#8
  | .formatDuplicateCodeword => 0x11#8
  | .formatDuplicateSymbol => 0x12#8
  | .codeTooLong => 0x20#8
  | .encodeSymbolMissing => 0x30#8
  | .bitCountOverflow => 0x31#8
  | .outputOverflow => 0x32#8
  | .decodeTreeCorrupt => 0x40#8
  | .streamTruncatedData => 0x41#8
  | .streamTruncatedMidcode => 0x42#8
  | .invalidCode => 0x43#8

/-- `irq = (STATUS.DONE and IRQ_EN.DONE_IE) or (STATUS.ERROR and IRQ_EN.ERROR_IE)` (R285). -/
def irq (s : State) : Bool := (s.done && s.irqEn.getLsbD 0) || (s.error && s.irqEn.getLsbD 1)

end Sys2Proof.Machine
end

