-- ==== Sys2Proof/Machine/Bus.lean ====
section
/-! DEFINITION. The register interface: its map (20_memory.md R51, 10_state.md R21), reads and writes outside and
inside the busy window (R52 to R61). -/

namespace Sys2Proof.Machine

/-- The sixteen registers of R21, in offset order. -/
inductive Reg where
  | id
  | version
  | cmd
  | status
  | errCode
  | errInfo
  | irqEn
  | inLen
  | outLen
  | bitCount
  | nsym
  | arg0
  | arg1
  | inCap
  | outCap
  | maxLen
  deriving DecidableEq, Repr

/-- What stands at an aligned offset (R51). A FREQ, LEN or DICT word names its symbol, a buffer word its index. -/
inductive Target where
  | reg (r : Reg)
  | freq (s : Byte)
  | len (s : Byte)
  | dictHead (s : Byte)
  | dictVal (s : Byte)
  | inByte (k : Nat)
  | outByte (k : Nat)
  | reserved
  deriving DecidableEq, Repr

/-- The register at word `n` of the register block (R21). -/
def regAt : Nat → Target
  | 0 => .reg .id
  | 1 => .reg .version
  | 2 => .reg .cmd
  | 3 => .reg .status
  | 4 => .reg .errCode
  | 5 => .reg .errInfo
  | 6 => .reg .irqEn
  | 7 => .reg .inLen
  | 8 => .reg .outLen
  | 9 => .reg .bitCount
  | 10 => .reg .nsym
  | 11 => .reg .arg0
  | 12 => .reg .arg1
  | 13 => .reg .inCap
  | 14 => .reg .outCap
  | 15 => .reg .maxLen
  | _ => .reserved

/-- The DICT word `n` of its window: even words the head, odd words the value (R54). -/
def dictWordAt (n : Nat) : Target :=
  if n % 2 = 0 then .dictHead (BitVec.ofNat 8 (n / 2)) else .dictVal (BitVec.ofNat 8 (n / 2))

/-- The map of R51, for an aligned offset. -/
def target (off : Offset) : Target :=
  let a := off.toNat
  if a < 0x000040 then regAt (a / 4)
  else if a < 0x001000 then .reserved
  else if a < 0x001400 then .freq (BitVec.ofNat 8 ((a - 0x001000) / 4))
  else if a < 0x001800 then .len (BitVec.ofNat 8 ((a - 0x001400) / 4))
  else if a < 0x002000 then .reserved
  else if a < 0x002800 then dictWordAt ((a - 0x002000) / 4)
  else if a < 0x100000 then .reserved
  else if a < 0x200000 then .inByte ((a - 0x100000) / 4)
  else if a < 0x300000 then .outByte ((a - 0x200000) / 4)
  else .reserved

/-- The head word of a DICT entry: `(valid << 31) | len` (R54). -/
def entryHead (e : Entry) : Word := BitVec.ofBool e.valid ++ 0#25 ++ e.len

/-- The stored value of a register (R21 to R29). CMD reads 0 (R23); bits above the width used read 0. -/
def regValue (s : State) : Reg → Word
  | .id => Config.idValue
  | .version => Config.versionValue
  | .cmd => 0#32
  | .status => statusWord s
  | .errCode => s.errCode.number.setWidth 32
  | .errInfo => s.errInfo
  | .irqEn => s.irqEn.setWidth 32
  | .inLen => s.inLen
  | .outLen => s.outLen
  | .bitCount => s.bitCount
  | .nsym => s.nsym.setWidth 32
  | .arg0 => s.arg0
  | .arg1 => s.arg1
  | .inCap => BitVec.ofNat 32 s.inCap
  | .outCap => BitVec.ofNat 32 s.outCap
  | .maxLen => BitVec.ofNat 32 Config.maxCodeLen

/-- The word a read returns when nothing makes it `any` (R52 to R55). -/
def storedWord (s : State) : Target → Word
  | .reg r => regValue s r
  | .freq sym => tableGet s.freq sym
  | .len sym => (tableGet s.len sym).setWidth 32
  | .dictHead sym => entryHead (tableGet s.dict sym)
  | .dictVal sym => (tableGet s.dict sym).val
  | .inByte k => if k < s.inCap then (s.inBuf.read k).setWidth 32 else 0#32
  | .outByte k => if k < s.outCap then (s.outBuf.read k).setWidth 32 else 0#32
  | .reserved => 0#32

/-- The bits of a word that read as `any` in the busy window (R61): bits 7:4 of STATUS, the whole word of OUT_LEN,
BIT_COUNT, NSYM and of the FREQ, LEN, DICT and OUT windows, nothing else (log 5). -/
def anyMask : Target → Word
  | .reg .status => 0x000000F0#32
  | .reg .outLen => BitVec.allOnes 32
  | .reg .bitCount => BitVec.allOnes 32
  | .reg .nsym => BitVec.allOnes 32
  | .reg _ => 0#32
  | .freq _ => BitVec.allOnes 32
  | .len _ => BitVec.allOnes 32
  | .dictHead _ => BitVec.allOnes 32
  | .dictVal _ => BitVec.allOnes 32
  | .inByte _ => 0#32
  | .outByte _ => BitVec.allOnes 32
  | .reserved => 0#32

/-- A word with the bits of `mask` replaced by the free word of draw `d`. -/
def mixAny (mask stored : Word) (d : Nat) : Word := (stored &&& ~~~mask) ||| (Config.anyWord d &&& mask)

/-- A host read at an aligned offset: the word, and the state with the free value drawn in the busy window (R61). No
read has another effect (R59). -/
def busRead (s : State) (off : Offset) : Word × State :=
  match s.phase with
  | .idle => (storedWord s (target off), s)
  | .busy => (mixAny (anyMask (target off)) (storedWord s (target off)) s.draws, { s with draws := s.draws + 1 })

/-- A host write that reaches its register (R24, R26, R27, R29, R100). Read-only registers ignore it. -/
def writeReg (v : Word) (s : State) : Reg → State
  | .id => s
  | .version => s
  | .cmd => issue v s
  | .status => writeStatus v s
  | .errCode => s
  | .errInfo => s
  | .irqEn => { s with irqEn := v.extractLsb' 0 2 }
  | .inLen => { s with inLen := v }
  | .outLen => s
  | .bitCount => s
  | .nsym => s
  | .arg0 => { s with arg0 := v }
  | .arg1 => { s with arg1 := v }
  | .inCap => s
  | .outCap => s
  | .maxLen => s

/-- A host write outside the busy window (R52 to R55). -/
def writeTarget (v : Word) (s : State) : Target → State
  | .reg r => writeReg v s r
  | .freq sym => { s with freq := tableSet s.freq sym v, lenValid := false }
  | .len _ => s
  | .dictHead _ => s
  | .dictVal _ => s
  | .inByte k => if k < s.inCap then { s with inBuf := s.inBuf.write k (v.extractLsb' 0 8) } else s
  | .outByte _ => s
  | .reserved => s

/-- The writes R60 drops in the busy window: CMD, IN_LEN, ARG0, ARG1, the FREQ window and the IN window up to
IN_CAP. -/
def droppedWhenBusy (s : State) : Target → Bool
  | .reg .cmd => true
  | .reg .inLen => true
  | .reg .arg0 => true
  | .reg .arg1 => true
  | .reg _ => false
  | .freq _ => true
  | .len _ => false
  | .dictHead _ => false
  | .dictVal _ => false
  | .inByte k => k < s.inCap
  | .outByte _ => false
  | .reserved => false

/-- A host write at an aligned offset: in the busy window a command input is dropped and sets OVERRUN, every other
write acts as outside it (R60). -/
def busWrite (s : State) (off : Offset) (v : Word) : State :=
  if s.phase = .busy ∧ droppedWhenBusy s (target off) = true then { s with overrun := true }
  else writeTarget v s (target off)

end Sys2Proof.Machine
end

