-- ==== Sys2Proof/Machine/HostProgram.lean ====
section
/-! DEFINITION. The host: one statement of its program as one step, the statements and pseudo-statements of
30_encoding.md R87 and R88, and the encoding of bus transactions (R89). -/

namespace Sys2Proof.Machine

/-! ## Offsets and pseudo-statements -/

/-- The offset of a register (10_state.md R21). -/
def Reg.offset : Reg → Offset
  | .id => 0x000000#24
  | .version => 0x000004#24
  | .cmd => 0x000008#24
  | .status => 0x00000C#24
  | .errCode => 0x000010#24
  | .errInfo => 0x000014#24
  | .irqEn => 0x000018#24
  | .inLen => 0x00001C#24
  | .outLen => 0x000020#24
  | .bitCount => 0x000024#24
  | .nsym => 0x000028#24
  | .arg0 => 0x00002C#24
  | .arg1 => 0x000030#24
  | .inCap => 0x000034#24
  | .outCap => 0x000038#24
  | .maxLen => 0x00003C#24

/-- `FREQ[s]` (R87). -/
def freqOffset (s : Byte) : Offset := BitVec.ofNat 24 (0x001000 + 4 * s.toNat)

/-- `LEN[s]` (R87). -/
def lenOffset (s : Byte) : Offset := BitVec.ofNat 24 (0x001400 + 4 * s.toNat)

/-- `DICTL[s]` (R87). -/
def dictHeadOffset (s : Byte) : Offset := BitVec.ofNat 24 (0x002000 + 8 * s.toNat)

/-- `DICTV[s]` (R87). -/
def dictValOffset (s : Byte) : Offset := BitVec.ofNat 24 (0x002004 + 8 * s.toNat)

/-- `IN[k]` (R87). For a `k` whose offset does not fit 24 bits, which the rule does not bound, the low 24 bits are taken
(DESIGN CHOICE, log 23). -/
def inOffset (k : Nat) : Offset := BitVec.ofNat 24 (0x100000 + 4 * k)

/-- `OUT[k]` (R87). For a `k` whose offset does not fit 24 bits the low 24 bits are taken (DESIGN CHOICE, log 23). -/
def outOffset (k : Nat) : Offset := BitVec.ofNat 24 (0x200000 + 4 * k)

/-- `wr R, v` with a register name (R87). -/
def wrReg (r : Reg) (v : Word) : HostStmt := .wr r.offset v

/-- `cmd M` (R88). -/
def cmdStmt (i : Instr) : HostStmt := wrReg .cmd (encode i)

/-- `run M`: `cmd M` then `wait` (R88). -/
def runStmts (i : Instr) : List HostStmt := [cmdStmt i, .wait]

/-- `load b_0, ..., b_{n-1}` (R88). Of an `n` of 2^32 or more IN_LEN gets the low 32 bits (DESIGN CHOICE, log 23). -/
def loadStmts (bytes : List Byte) : List HostStmt :=
  bytes.zipIdx.map (fun p => .wr (inOffset p.2) (p.1.setWidth 32)) ++ [wrReg .inLen (BitVec.ofNat 32 bytes.length)]

/-- The ASCII bytes of a text, in order (R88); of a character outside ASCII, which no `loads` has, the low eight bits
(log 22). -/
def textBytes (text : String) : List Byte := text.toList.map (fun c => BitVec.ofNat 8 c.toNat)

/-- `loads "text"`: `load` of the text's ASCII bytes (R88). -/
def loadsStmts (text : String) : List HostStmt := loadStmts (textBytes text)

/-- `fput s, w` (R88). -/
def fputStmt (s : Byte) (w : Word) : HostStmt := .wr (freqOffset s) w

/-- The ARG0 word of `dput s, "c"`: `(|c| << 8) | s` (R88), of which a word holds the low 32 bits (DESIGN CHOICE,
log 23). -/
def dputArg0 (s : Byte) (c : List Bool) : Word := (BitVec.ofNat 32 c.length <<< 8) ||| s.setWidth 32

/-- `dput s, "c"` (R88). Of a `valOf(c)` of 2^32 or more ARG1 gets the low 32 bits (DESIGN CHOICE, log 23). -/
def dputStmts (s : Byte) (c : List Bool) : List HostStmt :=
  [wrReg .arg0 (dputArg0 s c), wrReg .arg1 (BitVec.ofNat 32 (valOf c))] ++ runStmts .dictWrite

/-! ## One statement -/

/-- The statement at the head is finished. -/
def popStmt (s : State) : State := { s with program := s.program.tail }

/-- A transaction added to the trace. -/
def logTxn (t : BusTxn) (s : State) : State := { s with trace := s.trace ++ [t] }

/-- `HostRead(off)`: the word, and the state with the transaction in the trace. -/
def hostRead (off : Offset) (s : State) : Word × State :=
  let r := busRead s off
  (r.1, logTxn (.read off r.1) r.2)

/-- `HostWrite(off, v)` with the transaction in the trace. -/
def hostWrite (off : Offset) (v : Word) (s : State) : State := logTxn (.write off v) (busWrite s off v)

/-- An access at `off` if it is aligned; a misaligned one is refused (20_memory.md R56). -/
def whenAligned (off : Offset) (s : State) : Host.Outcome State Fault Refusal :=
  if WellFormed.offset off then .next s else .refused .misalignedAccess

/-- `check`: the program asserts that the read's word equals `v` on the bits of `mask` (R87). An assertion that does
not hold is recorded and the program goes on: the rule leaves that open, and this is the model's choice (DESIGN CHOICE,
log 20). -/
def hostCheck (off : Offset) (mask v : Word) (s : State) : State :=
  let r := hostRead off s
  if r.1 &&& mask = v then r.2 else { r.2 with checkFailed := true }

/-- `wait`: one read of STATUS; the statement is finished when BUSY reads 0 (R88). -/
def hostWait (s : State) : State :=
  let r := hostRead (Reg.offset .status) s
  if r.1.getLsbD 0 then r.2 else popStmt r.2

/-- The stop of a failed stage: one read of STATUS; with ERROR set, the rest of the program is dropped and the host
reports failure (44_dictionary.md R184, 47_pipeline.md R259; log 14). -/
def hostStopIfError (s : State) : State :=
  let r := hostRead (Reg.offset .status) s
  if r.1.getLsbD 2 then { r.2 with program := [], hostFailed := true } else popStmt r.2

/-- The reads of `OUT[0..OUT_LEN)` (R252, R253): one read of OUT_LEN, then a read of each of that many OUT words before
the rest of the program (log 14). -/
def hostReadOut (s : State) : State :=
  let r := hostRead (Reg.offset .outLen) s
  { r.2 with program := (List.range r.1.toNat).map (fun k => .rd (outOffset k)) ++ r.2.program.tail }

/-- One statement, `stmt` the head of the program (R87, R88; 70_reset_and_hazards.md R300, R322). -/
def runStmt (stmt : HostStmt) (s : State) : Host.Outcome State Fault Refusal :=
  match stmt with
  | .wr off v => whenAligned off (popStmt (hostWrite off v s))
  | .rd off => whenAligned off (popStmt (hostRead off s).2)
  | .check off v => whenAligned off (popStmt (hostCheck off (BitVec.allOnes 32) v s))
  | .checkm off mask v => whenAligned off (popStmt (hostCheck off mask v s))
  | .wait => .next (hostWait s)
  | .stopIfError => .next (hostStopIfError s)
  | .readOut => .next (hostReadOut s)
  | .reset => .next (popStmt (hardwareReset s))
  | .narrow _ _ => .refused .narrowAccess

/-- The host step: the head of the program, if there is one; with none, the host does nothing
(70_reset_and_hazards.md R302: the block waits for a host access). -/
def hostStep (s : State) : Host.Outcome State Fault Refusal :=
  match s.program with
  | [] => .next s
  | stmt :: _ => runStmt stmt s

/-- Whether the engine moves next: the block is busy, and the free number of host accesses has been made or the host
has none left (R320, U9; log 6). -/
def engineMoves (s : State) : Bool := s.phase == .busy && (s.delay == 0 || s.program.isEmpty)

/-- A host access counted off the busy window's free number; outside the window there is none to count. -/
def countAccess (s : State) : State := if s.phase = .busy then { s with delay := s.delay - 1 } else s

/-! ## The encoding of a program (R89) -/

/-- The ASCII byte of a hex digit. -/
def hexDigit (n : Nat) : Byte := if n < 10 then BitVec.ofNat 8 (0x30 + n) else BitVec.ofNat 8 (0x37 + n)

/-- `digits` hex digits of a number, most significant first. -/
def hexText (digits n : Nat) : List Byte := (List.range digits).map (fun i => hexDigit (n / 16 ^ (digits - 1 - i) % 16))

/-- A transaction as the host sends it: `W off data` or `R off` (R89). -/
def BusTxn.text : BusTxn → List Byte
  | .write off v => [0x57#8, 0x20#8] ++ hexText 6 off.toNat ++ [0x20#8] ++ hexText 8 v.toNat
  | .read off _ => [0x52#8, 0x20#8] ++ hexText 6 off.toNat

/-- The encoding of the part of the program that has run: its transactions, in order (R89). -/
def programEncoding (s : State) : List (List Byte) := s.trace.map BusTxn.text

end Sys2Proof.Machine
end

