-- ==== Sys2Proof/Machine/Step.lean ====
section
/-! DEFINITION. One step of the machine: the engine's or the host's (00_scope.md R11), and the placing of a command
word where the engine takes its next one. -/

namespace Sys2Proof.Machine

/-- One step: the engine completes the latched command when it is its turn, else the host runs its next statement. -/
def step (s : State) : Host.Outcome State Fault Refusal :=
  if engineMoves s then engineStep s else hostStep (countAccess s)

/-- The state with the command word `w` issued (R100) and the engine to move next: the block has no fetch, a command
is the word latched at its issue (R28, R65; log 8). -/
def State.withFetchWord (s : State) (nbits w : Nat) : State :=
  { latchCommand (BitVec.ofNat 32 (w % 2 ^ nbits)) s with delay := 0 }

end Sys2Proof.Machine
end

