-- ==== Sys2Proof/Machine/DictText.lean ====
section
/-! DEFINITION. The dictionary text artifact, host software (44_dictionary.md R180 to R188). -/

namespace Sys2Proof.Machine

/-! ## Tokens (R180) -/

/-- The whitespace bytes: 0x20 and 0x09 to 0x0D (R180). -/
def isSpace (b : Byte) : Bool := b == 0x20#8 || (0x09 ≤ b.toNat && b.toNat ≤ 0x0D)

/-- A token begun, if it is not empty (its bytes are kept last first). -/
def closeToken (current : List Byte) (tokens : List (List Byte)) : List (List Byte) :=
  if current.isEmpty then tokens else current.reverse :: tokens

/-- The maximal runs of non-whitespace bytes, `current` the run begun, last byte first (R180). -/
def tokensFrom (current : List Byte) : List Byte → List (List Byte)
  | [] => closeToken current []
  | b :: rest => if isSpace b then closeToken current (tokensFrom [] rest) else tokensFrom (b :: current) rest

/-- The tokens `T_0 ... T_{m-1}` of a file (R180). -/
def tokens (file : List Byte) : List (List Byte) := tokensFrom [] file

/-! ## Pairs (R181 to R183) -/

/-- The FormatErrors the host itself finds (R185), before any command. -/
inductive TextError where
  | oddTokenCount
  | badSymbolToken
  | badCodewordToken
  deriving DecidableEq, Repr

/-- An ASCII decimal digit. -/
def isDigit (b : Byte) : Bool := 0x30 ≤ b.toNat && b.toNat ≤ 0x39

/-- The number a run of decimal digits spells. -/
def decimalValue (tok : List Byte) : Nat := tok.foldl (fun acc b => 10 * acc + (b.toNat - 0x30)) 0

/-- A symbol token: one or more digits with a value in 0..255, leading zeros accepted (R182). -/
def symbolOfToken (tok : List Byte) : Except TextError Byte :=
  if !tok.isEmpty && tok.all isDigit && decimalValue tok ≤ 255 then .ok (BitVec.ofNat 8 (decimalValue tok))
  else .error .badSymbolToken

/-- A codeword token: 1 to 32 bytes, each "0" or "1", the first byte the first bit (R183). -/
def codewordOfToken (tok : List Byte) : Except TextError (List Bool) :=
  if !tok.isEmpty && tok.length ≤ Config.maxCodeLen && tok.all (fun b => b == 0x30#8 || b == 0x31#8) then
    .ok (tok.map (fun b => b == 0x31#8))
  else .error .badCodewordToken

/-- The pairs of a token list, in file order, up to the first token that will not do (R181 to R184). -/
def pairsOfTokens : List (List Byte) → Except TextError (List (Byte × List Bool))
  | [] => .ok []
  | [_] => .error .oddTokenCount
  | t :: u :: rest =>
    match symbolOfToken t with
    | .error e => .error e
    | .ok s =>
      match codewordOfToken u with
      | .error e => .error e
      | .ok c =>
        match pairsOfTokens rest with
        | .error e => .error e
        | .ok ps => .ok ((s, c) :: ps)

/-- The pairs of a dictionary file (R180 to R183). -/
def parseDictionary (file : List Byte) : Except TextError (List (Byte × List Bool)) := pairsOfTokens (tokens file)

/-! ## Loading (R184) -/

/-- The operand registers of `dput s, "c"`: `ARG0 = (|c| << 8) | s`, `ARG1 = valOf(c)` (30_encoding.md R88). -/
def withPairArgs (p : Byte × List Bool) (s : State) : State :=
  { s with arg0 := dputArg0 p.1 p.2, arg1 := BitVec.ofNat 32 (valOf p.2) }

/-- The DICT_WRITEs of a list of pairs, in order, up to the first that ends with an error: the effect of the `dput`s
of R184 on the tables. -/
def writePairs : List (Byte × List Bool) → State → Except ErrorRecord State
  | [], s => .ok s
  | p :: ps, s =>
    match (bodyDictWrite (withPairArgs p s)).2 with
    | some e => .error e
    | none => writePairs ps (bodyDictWrite (withPairArgs p s)).1

/-- DICT_CLEAR, then the pairs (R184). -/
def loadPairs (ps : List (Byte × List Bool)) (s : State) : Except ErrorRecord State :=
  writePairs ps (bodyDictClear s).1

/-! ## Serialising (R186, R187) -/

/-- The present entries, by (length ascending, symbol ascending) (R186). -/
def serialOrder (d : Table Entry) : List (Byte × Nat) :=
  ((allBytes.filter (fun s => (tableGet d s).valid)).map
    (fun s => (s, (tableGet d s).len.toNat))).insertionSort lengthOrder

/-- A digit's byte. -/
def digitByte (n : Nat) : Byte := BitVec.ofNat 8 (0x30 + n)

/-- A symbol in decimal with no leading zeros (R187). -/
def symbolText (s : Byte) : List Byte :=
  let n := s.toNat
  if n < 10 then [digitByte n]
  else if n < 100 then [digitByte (n / 10), digitByte (n % 10)]
  else [digitByte (n / 100), digitByte (n / 10 % 10), digitByte (n % 10)]

/-- A codeword as "0" and "1" bytes, most significant bit first (R187). -/
def codewordText (bits : List Bool) : List Byte := bits.map (fun b => if b then 0x31#8 else 0x30#8)

/-- One pair: the symbol, a space, the codeword, a line feed (R187). -/
def pairText (s : Byte) (e : Entry) : List Byte := symbolText s ++ [0x20#8] ++ codewordText e.bits ++ [0x0A#8]

/-- The bytes of a serialised dictionary (R186, R187). -/
def serialiseDictionary (d : Table Entry) : List Byte :=
  (serialOrder d).flatMap (fun p => pairText p.1 (tableGet d p.1))

end Sys2Proof.Machine
end

