-- ==== Sys2Proof/Machine/Stages.lean ====
section
/-! DEFINITION. The three stages as host programs and what they hand back (47_pipeline.md R251 to R253, R259). -/

namespace Sys2Proof.Machine

/-- `run M`, then the stop of a failed stage (R259). -/
def runChecked (i : Instr) : List HostStmt := runStmts i ++ [.stopIfError]

/-- The load of a dictionary's pairs: `run DICT_CLEAR`, then a `dput` for each, stopping at the first that fails
(44_dictionary.md R184). -/
def loadDictionaryStmts (ps : List (Byte × List Bool)) : List HostStmt :=
  runStmts .dictClear ++ ps.flatMap (fun p => dputStmts p.1 p.2 ++ [.stopIfError])

/-- The reads by which the host takes the dictionary: NSYM, then both words of every DICT entry (44_dictionary.md
R186, 20_memory.md R54). -/
def readDictionaryStmts : List HostStmt :=
  .rd (Reg.offset .nsym) :: allBytes.flatMap (fun s => [.rd (dictHeadOffset s), .rd (dictValOffset s)])

/-! ## The stages' programs -/

/-- Stage 1 (R251): the input into IN, BUILD_DICT, and the dictionary read back. `none`: the input does not fit IN. -/
def dictionaryBuilder (inCap : Nat) (input : List Byte) : Option (List HostStmt) :=
  if input.length ≤ inCap then some (loadStmts input ++ runChecked .buildDict ++ readDictionaryStmts) else none

/-- Stage 2 (R252): the dictionary file, the input into IN, ENCODE, and the output read back. `none`: a FormatError of
the file, or the input does not fit. -/
def streamEncoder (inCap : Nat) (dict input : List Byte) : Option (List HostStmt) :=
  match parseDictionary dict with
  | .error _ => none
  | .ok ps =>
    if input.length ≤ inCap then
      some (loadDictionaryStmts ps ++ loadStmts input ++ runChecked .encode ++ [.readOut])
    else none

/-- Stage 3 (R253): the dictionary file, BUILD_TRIE, the compressed file into IN, DECODE, and the output read back. -/
def streamDecoder (inCap : Nat) (dict stream : List Byte) : Option (List HostStmt) :=
  match parseDictionary dict with
  | .error _ => none
  | .ok ps =>
    if stream.length ≤ inCap then
      some (loadDictionaryStmts ps ++ runChecked .buildTrie ++ loadStmts stream ++ runChecked .decode ++ [.readOut])
    else none

/-! ## Starting a stage -/

/-- The state with a program handed to the host (log 8). The host's trace and its two verdicts are the program's own,
so each stage begins without those of the one before (R254, R259). -/
def withProgram (p : List HostStmt) (s : State) : State :=
  { s with program := p, trace := [], checkFailed := false, hostFailed := false }

/-- A stage begun on the block: its program, or the report of a failure the host found before any access (R259). -/
def startStage (p : Option (List HostStmt)) (s : State) : State :=
  match p with
  | some p => withProgram p s
  | none => { withProgram [] s with hostFailed := true }

/-! ## What a stage hands back -/

/-- The word of the last read at an offset, among a program's transactions. -/
def lastRead (off : Offset) : List BusTxn → Option Word
  | [] => none
  | .write _ _ :: rest => lastRead off rest
  | .read o v :: rest => (lastRead off rest).or (if o = off then some v else none)

/-- The word the host has read at an offset; a stage that has ended has read every offset asked for here. -/
def wordRead (s : State) (off : Offset) : Word := (lastRead off s.trace).getD 0#32

/-- The entry that the two DICT words of a symbol spell (20_memory.md R54). -/
def entryOfWords (head val : Word) : Entry := { valid := head.getLsbD 31, len := head.extractLsb' 0 6, val := val }

/-- The dictionary as the host has read it through the DICT window (44_dictionary.md R186). -/
def dictionaryRead (s : State) : Table Entry :=
  tableOf (fun sym => entryOfWords (wordRead s (dictHeadOffset sym)) (wordRead s (dictValOffset sym)))

/-- The bytes `OUT[0..OUT_LEN)` as the host has read them (R252, R253). -/
def outputRead (s : State) : List Byte :=
  (List.range (wordRead s (Reg.offset .outLen)).toNat).map (fun k => (wordRead s (outOffset k)).extractLsb' 0 8)

/-- `OUT[0..OUT_LEN)` on the block. -/
def outputBytes (s : State) : List Byte := s.outBuf.bytes s.outLen.toNat

/-- A stage's file is written when its program has run to its end and has not failed (R259). -/
def stageSucceeded (s : State) : Bool := s.program.isEmpty && !s.hostFailed

/-- The output file of stage 1 in its end state: none when the stage failed (R251, R259). -/
def dictionaryFile (s : State) : Option (List Byte) :=
  if stageSucceeded s then some (serialiseDictionary (dictionaryRead s)) else none

/-- The output file of stage 2 or 3 in its end state: none when the stage failed (R252, R253, R259). -/
def outputFile (s : State) : Option (List Byte) := if stageSucceeded s then some (outputRead s) else none

end Sys2Proof.Machine
end

