-- ==== Sys2Proof/Safety.lean ====
section
/-! DEFINITION. What claims are stated in terms of: the launch premises (70_reset_and_hazards.md R324), the end of a
run (R323), host programs the interface admits (20_memory.md R56), and the invariants of the machine (10_state.md
R39). -/

namespace Sys2Proof.Machine

/-! ## Launch premises and the end of a run -/

/-- `idle`: nothing in flight (R324 (b)). -/
def State.isIdle (s : State) : Prop := s.phase = .idle

/-- `clean_entry`: idle with no DONE, ERROR or OVERRUN (R324 (c)). -/
def State.cleanEntry (s : State) : Prop := s.phase = .idle ∧ s.done = false ∧ s.error = false ∧ s.overrun = false

/-- `reset_state`: the state of R301, with IN, OUT and LATCH drawn (R324 (a)). -/
def State.isReset (s : State) : Prop :=
  s = { hardwareReset s with
        inBuf := s.inBuf, outBuf := s.outBuf, latch := s.latch, draws := s.draws, delay := s.delay }

/-- `no_reset`: no reset step in the rest of the program (R324 (d)). -/
def State.noReset (s : State) : Prop := HostStmt.reset ∉ s.program

/-- The end of a run (R323): the last statement has completed and nothing is in flight. The rule speaks of the last
`wait` and does not say whether a command issued with no `wait` after it delays the end; here it does, which is the
model's choice (DESIGN CHOICE, log 21). -/
def State.ended (s : State) : Prop := s.program = [] ∧ s.phase = .idle

/-- `k` steps, all of them defined. -/
def Runs : Nat → State → State → Prop
  | 0, s, t => s = t
  | k + 1, s, t => ∃ u, step s = .next u ∧ Runs k u t

/-! ## Admitted programs -/

/-- A statement whose access the interface admits: 32 bits wide at an aligned offset (R56, R322). -/
def HostStmt.admitted : HostStmt → Bool
  | .wr off _ => WellFormed.offset off
  | .rd off => WellFormed.offset off
  | .check off _ => WellFormed.offset off
  | .checkm off _ _ => WellFormed.offset off
  | .wait => true
  | .stopIfError => true
  | .readOut => true
  | .reset => true
  | .narrow _ _ => false

/-- Every statement of the program is admitted. -/
def State.admitted (s : State) : Prop := ∀ stmt ∈ s.program, stmt.admitted = true

/-! ## Invariants -/

/-- An entry in one of the two forms of R32: absent `(0, 0, 0)`, or present with `1 <= len <= 32`, `val < 2^len`. -/
abbrev Entry.legal (e : Entry) : Prop :=
  e = Entry.absent ∨ (e.valid = true ∧ 1 ≤ e.len.toNat ∧ e.len.toNat ≤ 32 ∧ e.val.toNat < 2 ^ e.len.toNat)

/-- Every DICT entry is in one of the two forms (R32). -/
def State.dictLegal (s : State) : Prop := ∀ sym, (tableGet s.dict sym).legal

/-- The invariants of R39 (a), (b), (c) (for (d) see `State.dictIsCode`), and with them what R5, R24, R25, R27 and R31 say of the fields. They hold in
the busy window too: no host access changes what they speak of but a FREQ write, which clears LEN_VALID. -/
structure State.Inv (s : State) : Prop where
  /-- 1 <= IN_CAP <= 262144 (R5). -/
  inCapLegal : WellFormed.capacity s.inCap = true
  /-- 1 <= OUT_CAP <= 262144 (R5). -/
  outCapLegal : WellFormed.capacity s.outCap = true
  /-- IN is in canonical form and holds IN_CAP bytes (R33). -/
  inCanonical : s.inBuf.wf s.inCap = true
  /-- OUT is in canonical form and holds OUT_CAP bytes (R34). -/
  outCanonical : s.outBuf.wf s.outCap = true
  /-- NSYM is the number of present entries of DICT (R39 (a)). -/
  nsymCounts : s.nsym.toNat = numPresent s.dict
  /-- Every length is in 0..32 (R31). -/
  lenBounded : ∀ sym, (tableGet s.len sym).toNat ≤ 32
  /-- LEN_VALID: LEN is huffman_lengths(FREQ) (R39 (b)). -/
  lenCurrent : s.lenValid = true → ∀ sym, (tableGet s.len sym).toNat = tableGet (huffmanLengths s.freq) sym
  /-- TRIE_VALID: TRIE is build_trie(DICT) (R39 (c)). -/
  trieCurrent : s.trieValid = true → buildTrie s.dict = .ok s.trie
  /-- In the busy window DONE, ERROR, ERR_CODE and ERR_INFO are clear (R61, R100). -/
  busyClear : s.phase = .busy → s.done = false ∧ s.error = false ∧ s.errCode = .noError ∧ s.errInfo = 0#32
  /-- ERROR is set only with an error code recorded (R25, R271). -/
  errorCoded : s.error = true → s.errCode ≠ .noError
  /-- ERR_INFO is 0 when no error is recorded (R25). -/
  infoClear : s.errCode = .noError → s.errInfo = 0#32
  /-- OUT_VALID = 0: no output is recorded (R27). -/
  outCleared : s.outValid = false → s.outLen = 0#32 ∧ s.bitCount = 0#32
  /-- OUT_LEN never exceeds OUT_CAP (R27, R205, R230). -/
  outFits : s.outLen.toNat ≤ s.outCap

/-- R39 (d): while DICT_BAD = 0, DICT is the canonical code of LEN. -/
def State.dictIsCode (s : State) : Prop := s.dictBad = false → s.dict = canonical s.len

/-- The commands after which R39 (d) need not hold: DICT_WRITE, which the rule names, DICT_CLEAR, which empties DICT and
keeps LEN (44_dictionary.md R171), and BUILD_TREE, which writes LEN and keeps DICT (70_reset_and_hazards.md R313 (b);
log 18). -/
def partsDictFromLen (i : Instr) : Prop := i ∈ [Instr.dictWrite, .dictClear, .buildTree]

/-- R39 (d) of some weights: while DICT_BAD = 0, DICT is the canonical code of the lengths of a weight table, those
ASSIGN_CODES or BUILD_DICT read or, after DICT_CLEAR and reset, those of no symbol. DICT_WRITE alone parts from it, the
one command R39 (d) names. -/
def State.dictIsCanonical (s : State) : Prop :=
  s.dictBad = false →
    ∃ f : Table Word, maxLength (huffmanLengths f) ≤ 32 ∧ s.dict = canonical (lengthTable (huffmanLengths f))

/-! ## The weighted tree, as claims speak of it -/

/-- The order of R130: keys `(w, m)` compared lexicographically. -/
abbrev keyLe (a b : QNode) : Prop := a.weight < b.weight ∨ (a.weight = b.weight ∧ a.least ≤ b.least)

/-- The loop of 42_tree_builder.md R131 as a relation: a collection of nodes, in any order, comes down to its root by
joining, again and again, its least node with the least of the others. -/
inductive MergesTo : List QNode → QNode → Prop
  | done (a : QNode) : MergesTo [a] a
  | merge {q rest : List QNode} {a b root : QNode} (split : q.Perm (a :: b :: rest)) (first : ∀ x ∈ q, keyLe a x)
      (second : ∀ x ∈ rest, keyLe b x)
      (go : MergesTo ({ weight := a.weight + b.weight, least := min a.least b.least, tree := .node a.tree b.tree } ::
        rest) root) : MergesTo q root

/-- The leaf of symbol `s` stands at depth `d` of a weighted tree (R131; root depth 0). -/
inductive LeafAtDepth (s : Byte) : Nat → HuffTree → Prop
  | leaf : LeafAtDepth s 0 (.leaf s)
  | child0 {d : Nat} {a b : HuffTree} : LeafAtDepth s d a → LeafAtDepth s (d + 1) (.node a b)
  | child1 {d : Nat} {a b : HuffTree} : LeafAtDepth s d b → LeafAtDepth s (d + 1) (.node a b)

/-! ## Codewords and tries, as claims speak of them -/

/-- One codeword is a prefix, proper or equal, of the other (46_trie_decoder.md R222). -/
abbrev codesConflict (a b : Entry) : Prop := a.bits <+: b.bits ∨ b.bits <+: a.bits

/-- No codeword of a present entry is a prefix of another present entry's (47_pipeline.md R260). -/
def prefixFree (d : Table Entry) : Prop :=
  ∀ s t, s ≠ t → (tableGet d s).valid = true → (tableGet d t).valid = true →
    ¬ codesConflict (tableGet d s) (tableGet d t)

/-- Nodes below a child pointer. -/
def Child.nodes : Child → Nat
  | .absent => 0
  | .leaf _ => 1
  | .internal a b => 1 + a.nodes + b.nodes

/-- Nodes of a trie, the root among them (10_state.md R35). -/
def Trie.nodes (t : Trie) : Nat := 1 + t.child0.nodes + t.child1.nodes

/-- What a path of bits reaches below a child pointer. -/
def Child.reach : List Bool → Child → Child
  | [], c => c
  | _ :: _, .absent => .absent
  | _ :: _, .leaf _ => .absent
  | b :: path, .internal c0 c1 => if b then Child.reach path c1 else Child.reach path c0

/-- What a path of bits reaches from the root of a trie. -/
def Trie.reach (t : Trie) (path : List Bool) : Child := Child.reach path (.internal t.child0 t.child1)

/-- The Kraft sum over the present symbols, scaled by `2^m`: `sum of 2^(m - L[s])` (43_canonical_assigner.md
R153). -/
def kraftScaled (m : Nat) (l : Table Nat) : Nat :=
  ((allBytes.filter (fun s => tableGet l s != 0)).map (fun s => 2 ^ (m - tableGet l s))).sum

end Sys2Proof.Machine
end

