-- ==== Sys2Proof/Certificates/Slice0/Obligations.lean ====
section
/-! DEFINITION. The statements about the machine for the provers, from the numbered rules of spec/. -/

open Sys2Proof Sys2Proof.Machine

/-! ## Command words -/

/-- R84: the opcode map, read from the words of the table, and written. -/
def Obligations.CommandWordsOfTheOpcodeMap : Prop :=
  decode 0x00000000#32 = .ok .nop ∧ encode .nop = 0x00000000#32 ∧
  decode 0x00000001#32 = .ok .softReset ∧ encode .softReset = 0x00000001#32 ∧
  decode 0x00000002#32 = .ok .freqCount ∧ encode .freqCount = 0x00000002#32 ∧
  decode 0x00000003#32 = .ok .buildTree ∧ encode .buildTree = 0x00000003#32 ∧
  decode 0x00000004#32 = .ok .assignCodes ∧ encode .assignCodes = 0x00000004#32 ∧
  decode 0x00000005#32 = .ok .buildDict ∧ encode .buildDict = 0x00000005#32 ∧
  decode 0x00000006#32 = .ok .dictClear ∧ encode .dictClear = 0x00000006#32 ∧
  decode 0x00000007#32 = .ok .dictWrite ∧ encode .dictWrite = 0x00000007#32 ∧
  decode 0x00000008#32 = .ok .encode ∧ encode .encode = 0x00000008#32 ∧
  decode 0x00000009#32 = .ok .buildTrie ∧ encode .buildTrie = 0x00000009#32 ∧
  decode 0x0000000A#32 = .ok .decode ∧ encode .decode = 0x0000000A#32

/-- R80, R83, R84: a word decodes to a command exactly when it is that command's word, so decoding and encoding agree
in both directions and no bit of a word is ignored. -/
def Obligations.DecodeInvertsEncodeOnAllWords : Prop :=
  ∀ (w : Word) (i : Instr), decode w = .ok i ↔ w = encode i

/-- R83, R85: a word is illegal exactly when RSVD is nonzero or OPCODE is above 0x0A. -/
def Obligations.IllegalWordsAreExactlyTheReserved : Prop :=
  ∀ w : Word,
    (decode w = .error .rsvdNonzero ↔ w.extractLsb' 8 24 ≠ 0#24) ∧
    (decode w = .error .opcodeReserved ↔ w.extractLsb' 8 24 = 0#24 ∧ 0x0B ≤ (w.extractLsb' 0 8).toNat) ∧
    ((∃ e, decode w = .error e) ↔ 0x0A < w.toNat)

/-! ## Steps -/

/-- A step runs the decoded command: when it is the engine's turn, `step` is `exec` of the latched word's command, or,
for an illegal word, its completion with ILLEGAL_COMMAND(LATCH); else it is the host's statement, whatever LATCH holds,
counted off the busy window's free length (log 6: the engine's turn is the model's choice). -/
def Obligations.StepRunsTheLatchedCommand : Prop :=
  ∀ s : State,
    (∀ i, decode s.latch = .ok i → s.phase = .busy → (s.delay = 0 ∨ s.program = []) → step s = exec i s) ∧
    (∀ e, decode s.latch = .error e → s.phase = .busy → (s.delay = 0 ∨ s.program = []) →
      step s = .next { s with
        phase := .idle, done := true, error := true, errCode := .illegalCommand, errInfo := s.latch }) ∧
    (s.phase = .busy → s.delay ≠ 0 → s.program ≠ [] → step s = hostStep { s with delay := s.delay - 1 }) ∧
    (s.phase = .idle → step s = hostStep s)

/-- The very next step after a command word is placed runs that command. -/
def Obligations.PlacedCommandRunsNext : Prop :=
  ∀ (s : State) (i : Instr),
    decodeTableWord 32 (encode i).toNat = some i ∧
    step (s.withFetchWord 32 (encode i).toNat) = exec i (s.withFetchWord 32 (encode i).toNat) ∧
    (s.withFetchWord 32 (encode i).toNat).latch = encode i

/-- R102: whenever it is the engine's turn, the step completes the latched word, legal or not: PHASE IDLE, DONE 1; on
a success ERROR, ERR_CODE and ERR_INFO stay, on an error ERROR is 1 and a code is recorded. -/
def Obligations.EveryCommandCompletes : Prop :=
  ∀ s : State, engineMoves s = true → ∃ t, step s = .next t ∧ t.phase = .idle ∧ t.done = true ∧
    ((t.error = s.error ∧ t.errCode = s.errCode ∧ t.errInfo = s.errInfo) ∨
     (t.error = true ∧ t.errCode ≠ .noError))

/-- R107: an illegal word completes with ILLEGAL_COMMAND(LATCH) and changes nothing else; the rule's example. -/
def Obligations.IllegalCommandOnlyReports : Prop :=
  (∀ (s : State) (e : IllegalWord), engineMoves s = true → decode s.latch = .error e →
    step s = .next { s with
      phase := .idle, done := true, error := true, errCode := .illegalCommand, errInfo := s.latch }) ∧
  (∀ s : State, s.phase = .idle → statusWord s = 0#32 →
    ∃ t, engineStep (busWrite s 0x000008#24 0x0000000B#32) = .next t ∧ statusWord t = 0x00000006#32 ∧
      t.errCode.number = 0x01#8 ∧ t.errInfo = 0x0000000B#32)

/-- R100: a write to CMD while idle issues the command and changes nothing else of the block (the two model fields
that draw the busy window's length apart); while busy it is dropped and sets OVERRUN. -/
def Obligations.CommandIssueLatchesTheWord : Prop :=
  ∀ (s : State) (w : Word),
    (s.phase = .idle → ∃ d n, busWrite s 0x000008#24 w = { s with
      latch := w, phase := .busy, done := false, error := false, errCode := .noError, errInfo := 0#32,
      delay := d, draws := n }) ∧
    (s.phase = .busy → busWrite s 0x000008#24 w = { s with overrun := true })

/-! ## The register interface -/

/-- R60: in the busy window a write to a command input is dropped and sets OVERRUN; STATUS and IRQ_EN take effect;
every other aligned write is ignored. -/
def Obligations.BusyWritesOfInputsAreDropped : Prop :=
  ∀ (s : State) (off : Offset) (v : Word), s.phase = .busy → off.toNat % 4 = 0 →
    let a := off.toNat
    let input := a = 0x08 ∨ a = 0x1C ∨ a = 0x2C ∨ a = 0x30 ∨ (0x1000 ≤ a ∧ a < 0x1400) ∨
      (0x100000 ≤ a ∧ a < 0x200000 ∧ (a - 0x100000) / 4 < s.inCap)
    (input → busWrite s off v = { s with overrun := true }) ∧
    (a = 0x0C → busWrite s off v = { s with
      done := s.done && !v.getLsbD 1, error := s.error && !v.getLsbD 2, overrun := s.overrun && !v.getLsbD 3 }) ∧
    (a = 0x18 → busWrite s off v = { s with irqEn := v.extractLsb' 0 2 }) ∧
    (¬ input → a ≠ 0x0C → a ≠ 0x18 → busWrite s off v = s)

/-- R61 (a), (b), (d): what a read returns in the busy window where it is not `any`: STATUS bits 3:0 and 31:8,
ERR_CODE and ERR_INFO, and the stored value of every other register and of the IN window. -/
def Obligations.BusyReadsThatAreNotFree : Prop :=
  ∀ s : State, s.Inv → s.phase = .busy →
    (let w := (busRead s 0x00000C#24).1
     w.getLsbD 0 = true ∧ w.getLsbD 1 = false ∧ w.getLsbD 2 = false ∧ w.getLsbD 3 = s.overrun ∧
       ∀ b, 8 ≤ b → w.getLsbD b = false) ∧
    (busRead s 0x000010#24).1 = 0#32 ∧ (busRead s 0x000014#24).1 = 0#32 ∧
    (busRead s 0x000008#24).1 = 0#32 ∧ (busRead s 0x000018#24).1 = s.irqEn.setWidth 32 ∧
    (busRead s 0x00001C#24).1 = s.inLen ∧ (busRead s 0x00002C#24).1 = s.arg0 ∧ (busRead s 0x000030#24).1 = s.arg1 ∧
    (∀ k, k < s.inCap → (busRead s (inOffset k)).1 = (s.inBuf.read k).setWidth 32)

/-- R24: a write to STATUS clears exactly the W1C bits written with 1 (bits 1 to 3), at any time, and changes nothing
else. -/
def Obligations.StatusWriteOnlyClears : Prop :=
  ∀ (s : State) (v : Word),
    statusWord (busWrite s 0x00000C#24 v) = statusWord s &&& ~~~(v &&& 0x0000000E#32) ∧
    busWrite s 0x00000C#24 v = { s with
      done := (busWrite s 0x00000C#24 v).done
      error := (busWrite s 0x00000C#24 v).error
      overrun := (busWrite s 0x00000C#24 v).overrun }

/-- R22: the five constant registers at all times, and their writes ignored. -/
def Obligations.IdentificationRegistersAreConstant : Prop :=
  ∀ (s : State) (v : Word),
    (busRead s 0x000000#24).1 = 0x48554646#32 ∧ (busRead s 0x000004#24).1 = 0x00000001#32 ∧
    (busRead s 0x000034#24).1 = BitVec.ofNat 32 s.inCap ∧ (busRead s 0x000038#24).1 = BitVec.ofNat 32 s.outCap ∧
    (busRead s 0x00003C#24).1 = 32#32 ∧
    busWrite s 0x000000#24 v = s ∧ busWrite s 0x000004#24 v = s ∧ busWrite s 0x000034#24 v = s ∧
    busWrite s 0x000038#24 v = s ∧ busWrite s 0x00003C#24 v = s

/-- R21, R24 to R27, R29, R270: outside the busy window IRQ_EN, IN_LEN, ARG0 and ARG1 store what the host writes (IRQ_EN
its two bits) and read it back, the rest of the state unchanged; STATUS, ERR_CODE, ERR_INFO, OUT_LEN, BIT_COUNT, NSYM
and CMD read their state, bit by bit for STATUS; and the table of error codes. -/
def Obligations.WritableRegistersReadBack : Prop :=
  (∀ (s : State) (v : Word), s.phase = .idle →
    (busWrite s 0x000018#24 v = { s with irqEn := v.extractLsb' 0 2 } ∧
      (busRead (busWrite s 0x000018#24 v) 0x000018#24).1 = v &&& 0x00000003#32) ∧
    (busWrite s 0x00001C#24 v = { s with inLen := v } ∧
      (busRead (busWrite s 0x00001C#24 v) 0x00001C#24).1 = v) ∧
    (busWrite s 0x00002C#24 v = { s with arg0 := v } ∧
      (busRead (busWrite s 0x00002C#24 v) 0x00002C#24).1 = v) ∧
    (busWrite s 0x000030#24 v = { s with arg1 := v } ∧
      (busRead (busWrite s 0x000030#24 v) 0x000030#24).1 = v)) ∧
  (∀ s : State, s.phase = .idle →
    (let w := (busRead s 0x00000C#24).1
     w.getLsbD 0 = false ∧ w.getLsbD 1 = s.done ∧ w.getLsbD 2 = s.error ∧ w.getLsbD 3 = s.overrun ∧
       w.getLsbD 4 = s.lenValid ∧ w.getLsbD 5 = s.trieValid ∧ w.getLsbD 6 = s.outValid ∧ w.getLsbD 7 = s.dictBad ∧
       ∀ b, 8 ≤ b → w.getLsbD b = false) ∧
    (busRead s 0x000008#24).1 = 0#32 ∧ (busRead s 0x000010#24).1 = s.errCode.number.setWidth 32 ∧
    (busRead s 0x000014#24).1 = s.errInfo ∧ (busRead s 0x000018#24).1 = s.irqEn.setWidth 32 ∧
    (busRead s 0x00001C#24).1 = s.inLen ∧ (busRead s 0x000020#24).1 = s.outLen ∧
    (busRead s 0x000024#24).1 = s.bitCount ∧ (busRead s 0x000028#24).1 = s.nsym.setWidth 32 ∧
    (busRead s 0x00002C#24).1 = s.arg0 ∧ (busRead s 0x000030#24).1 = s.arg1) ∧
  ErrCode.noError.number = 0x00#8 ∧ ErrCode.illegalCommand.number = 0x01#8 ∧ ErrCode.badLength.number = 0x02#8 ∧
  ErrCode.notReady.number = 0x03#8 ∧ ErrCode.formatMalformed.number = 0x10#8 ∧
  ErrCode.formatDuplicateCodeword.number = 0x11#8 ∧ ErrCode.formatDuplicateSymbol.number = 0x12#8 ∧
  ErrCode.codeTooLong.number = 0x20#8 ∧ ErrCode.encodeSymbolMissing.number = 0x30#8 ∧
  ErrCode.bitCountOverflow.number = 0x31#8 ∧ ErrCode.outputOverflow.number = 0x32#8 ∧
  ErrCode.decodeTreeCorrupt.number = 0x40#8 ∧ ErrCode.streamTruncatedData.number = 0x41#8 ∧
  ErrCode.streamTruncatedMidcode.number = 0x42#8 ∧ ErrCode.invalidCode.number = 0x43#8

/-- R52: the FREQ window, read, written outside the busy window (LEN_VALID clears) and inside it. -/
def Obligations.FreqWindowStoresWeights : Prop :=
  ∀ (s : State) (sym : Byte) (v : Word),
    (s.phase = .idle →
      busRead s (BitVec.ofNat 24 (0x001000 + 4 * sym.toNat)) = (tableGet s.freq sym, s) ∧
      ∃ F, busWrite s (BitVec.ofNat 24 (0x001000 + 4 * sym.toNat)) v = { s with freq := F, lenValid := false } ∧
        tableGet F sym = v ∧ ∀ r, r ≠ sym → tableGet F r = tableGet s.freq r) ∧
    (s.phase = .busy →
      busWrite s (BitVec.ofNat 24 (0x001000 + 4 * sym.toNat)) v = { s with overrun := true })

/-- R53: the IN window, byte `k` in bits 7:0 of its word, and the offsets from IN_CAP on. -/
def Obligations.InWindowStoresBytes : Prop :=
  ∀ (s : State) (k : Nat) (v : Word), k < 262144 →
    (k < s.inCap → (busRead s (BitVec.ofNat 24 (0x100000 + 4 * k))).1 = (s.inBuf.read k).setWidth 32) ∧
    (k < s.inCap → s.phase = .idle →
      ∃ B, busWrite s (BitVec.ofNat 24 (0x100000 + 4 * k)) v = { s with inBuf := B } ∧
        B.read k = v.extractLsb' 0 8 ∧ ∀ j, j ≠ k → B.read j = s.inBuf.read j) ∧
    (k < s.inCap → s.phase = .busy →
      busWrite s (BitVec.ofNat 24 (0x100000 + 4 * k)) v = { s with overrun := true }) ∧
    (s.inCap ≤ k →
      (busRead s (BitVec.ofNat 24 (0x100000 + 4 * k))).1 = 0#32 ∧
      busWrite s (BitVec.ofNat 24 (0x100000 + 4 * k)) v = s)

/-- R54: the LEN, DICT and OUT windows: what they read outside the busy window, and writes ignored at any time, without
OVERRUN. -/
def Obligations.ResultWindowsAreReadOnly : Prop :=
  ∀ (s : State) (sym : Byte) (k : Nat) (v : Word), k < 262144 →
    (s.phase = .idle →
      (busRead s (BitVec.ofNat 24 (0x001400 + 4 * sym.toNat))).1 = (tableGet s.len sym).setWidth 32 ∧
      (busRead s (BitVec.ofNat 24 (0x002000 + 8 * sym.toNat))).1 =
        (if (tableGet s.dict sym).valid then 0x80000000#32 else 0#32) ||| (tableGet s.dict sym).len.setWidth 32 ∧
      (busRead s (BitVec.ofNat 24 (0x002004 + 8 * sym.toNat))).1 = (tableGet s.dict sym).val ∧
      (busRead s (BitVec.ofNat 24 (0x200000 + 4 * k))).1 =
        if k < s.outCap then (s.outBuf.read k).setWidth 32 else 0#32) ∧
    busWrite s (BitVec.ofNat 24 (0x001400 + 4 * sym.toNat)) v = s ∧
    busWrite s (BitVec.ofNat 24 (0x002000 + 8 * sym.toNat)) v = s ∧
    busWrite s (BitVec.ofNat 24 (0x002004 + 8 * sym.toNat)) v = s ∧
    busWrite s (BitVec.ofNat 24 (0x200000 + 4 * k)) v = s

/-- R51, R55: the reserved ranges of the map read 0 and ignore writes, at any time. -/
def Obligations.ReservedOffsetsReadZero : Prop :=
  ∀ (s : State) (off : Offset) (v : Word),
    ((0x40 ≤ off.toNat ∧ off.toNat < 0x1000) ∨ (0x1800 ≤ off.toNat ∧ off.toNat < 0x2000) ∨
      (0x2800 ≤ off.toNat ∧ off.toNat < 0x100000) ∨ 0x300000 ≤ off.toNat) →
    (busRead s off).1 = 0#32 ∧ busWrite s off v = s

/-- R59: no read changes the block (the free values' counter is the model's own). Outside the busy window a write
outside CMD, STATUS and the FREQ window stores its value in the register or byte its offset names and does nothing else,
or is ignored: IRQ_EN, IN_LEN, ARG0, ARG1, byte `k` of IN for `k < IN_CAP`, and no other offset changes anything. In the
busy window a write outside STATUS and IRQ_EN changes at most OVERRUN. -/
def Obligations.OnlyThreeWritesHaveSideEffects : Prop :=
  ∀ (s : State) (off : Offset) (v : Word), off.toNat % 4 = 0 →
    let a := off.toNat
    let k := (a - 0x100000) / 4
    let inByte := 0x100000 ≤ a ∧ a < 0x200000 ∧ k < s.inCap
    (∃ d, (busRead s off).2 = { s with draws := d }) ∧
    (s.phase = .idle →
      (a = 0x18 → busWrite s off v = { s with irqEn := v.extractLsb' 0 2 }) ∧
      (a = 0x1C → busWrite s off v = { s with inLen := v }) ∧
      (a = 0x2C → busWrite s off v = { s with arg0 := v }) ∧
      (a = 0x30 → busWrite s off v = { s with arg1 := v }) ∧
      (inByte → ∃ B, busWrite s off v = { s with inBuf := B } ∧ B.read k = v.extractLsb' 0 8 ∧
        ∀ j, j ≠ k → B.read j = s.inBuf.read j) ∧
      (a ≠ 0x08 → a ≠ 0x0C → ¬ (0x1000 ≤ a ∧ a < 0x1400) → a ≠ 0x18 → a ≠ 0x1C → a ≠ 0x2C → a ≠ 0x30 → ¬ inByte →
        busWrite s off v = s)) ∧
    (s.phase = .busy → a ≠ 0x0C → a ≠ 0x18 →
      busWrite s off v = s ∨ busWrite s off v = { s with overrun := true })

/-- R56: an access that is not 32 bits wide, or not at an aligned offset, is refused when the host's turn comes to it.
That a narrow access at a misaligned offset is refused as narrow is the model's choice (log 13). -/
def Obligations.NarrowAndMisalignedAccessesAreRefused : Prop :=
  ∀ (s : State) (rest : List HostStmt) (off : Offset), engineMoves s = false →
    (∀ width, s.program = .narrow width off :: rest → step s = .refused .narrowAccess) ∧
    (off.toNat % 4 ≠ 0 →
      (s.program = .rd off :: rest → step s = .refused .misalignedAccess) ∧
      (∀ v, s.program = .wr off v :: rest → step s = .refused .misalignedAccess) ∧
      (∀ v, s.program = .check off v :: rest → step s = .refused .misalignedAccess) ∧
      (∀ mask v, s.program = .checkm off mask v :: rest → step s = .refused .misalignedAccess))

/-- R56, R322: a host whose accesses are all 32 bits wide and aligned is never refused, and its program stays so. -/
def Obligations.AdmittedProgramsAreNeverRefused : Prop :=
  ∀ s : State, s.admitted → ∃ t, step s = .next t ∧ t.admitted

/-- R285: the interrupt level, as a function of the bits the host reads in STATUS and IRQ_EN; 0 in the busy window. -/
def Obligations.InterruptFollowsStatusAndEnables : Prop :=
  ∀ s : State,
    irq s = (((statusWord s).getLsbD 1 && s.irqEn.getLsbD 0) || ((statusWord s).getLsbD 2 && s.irqEn.getLsbD 1)) ∧
    (s.Inv → s.phase = .busy → irq s = false) ∧
    (∀ w, irq (issue w s) = false) ∧
    irq (busWrite s 0x00000C#24 0x00000006#32) = false

/-! ## Reset -/

/-- R41, R301: what State.reset holds, as the host reads it (the parameters' values are OPEN, log 1). -/
def Obligations.ResetValuesOfTheRegisters : Prop :=
  State.reset.phase = .idle ∧ statusWord State.reset = 0#32 ∧ irq State.reset = false ∧
  (∀ r, r ∈ [Reg.cmd, .status, .errCode, .errInfo, .irqEn, .inLen, .outLen, .bitCount, .nsym, .arg0, .arg1] →
    regValue State.reset r = 0#32) ∧
  regValue State.reset .id = 0x48554646#32 ∧ regValue State.reset .version = 0x00000001#32 ∧
  regValue State.reset .maxLen = 32#32 ∧
  (∀ sym, tableGet State.reset.freq sym = 0#32 ∧ tableGet State.reset.len sym = 0#6 ∧
    tableGet State.reset.dict sym = { valid := false, len := 0#6, val := 0#32 }) ∧
  State.reset.trie = { child0 := .absent, child1 := .absent }

/-- R300, R41: a reset step, in the busy window too, abandons the latched command without any of its effects and
leaves the reset values; the parameters stay, and IN, OUT and LATCH are unspecified. -/
def Obligations.HardwareResetRestoresResetValues : Prop :=
  ∀ (s : State) (rest : List HostStmt), engineMoves s = false → s.program = .reset :: rest →
    ∃ (i o : Buffer) (l : Word) (n : Nat), step s = .next { State.reset with
      inCap := s.inCap, outCap := s.outCap, inBuf := i, outBuf := o, latch := l, draws := n, program := rest
      trace := s.trace, checkFailed := s.checkFailed, hostFailed := s.hostFailed }

/-! ## Invariants -/

/-- The state after reset meets the invariants, R39 (d) among them. -/
def Obligations.ResetMeetsTheInvariants : Prop :=
  State.reset.Inv ∧ State.reset.dictLegal ∧ State.reset.dictIsCode ∧ State.reset.dictIsCanonical

/-- R39 (a), (b), (c) and the field bounds: every step, the engine's or the host's, keeps the invariants, from every
state that meets them. R39 (d), that DICT is the canonical code of LEN while DICT_BAD = 0, is kept by every step but the
completion of DICT_WRITE, which the rule names, and of DICT_CLEAR and BUILD_TREE, which change one of the two tables and
keep the other (R171, R313 (b); that (d) is read so is the model's inference, log 18). That DICT is the canonical code
of the lengths of some weights, none after DICT_CLEAR, is kept by every step but the completion of DICT_WRITE. -/
def Obligations.StepKeepsTheInvariants : Prop :=
  ∀ s t : State, s.Inv → step s = .next t →
    t.Inv ∧
    (s.dictIsCode → (engineMoves s = true → ∀ i, decode s.latch = .ok i → ¬ partsDictFromLen i) → t.dictIsCode) ∧
    (s.dictIsCanonical → (engineMoves s = true → decode s.latch ≠ .ok .dictWrite) → t.dictIsCanonical)

/-- R32: every step leaves each DICT entry in one of the two forms. -/
def Obligations.StepKeepsDictEntriesLegal : Prop :=
  ∀ s t : State, s.Inv → s.dictLegal → step s = .next t → t.dictLegal

/-! ## The control commands -/

/-- R105: NOP completes and changes nothing else. -/
def Obligations.NopOnlyCompletes : Prop :=
  ∀ s : State, exec .nop s = .next { s with phase := .idle, done := true }

/-- R106, R303: SOFT_RESET restores every register, flag, table and the trie, and leaves IRQ_EN, IN, OUT, LATCH and the
parameters. -/
def Obligations.SoftResetKeepsEnablesAndBuffers : Prop :=
  ∀ s : State, ∃ t, exec .softReset s = .next t ∧
    t.phase = .idle ∧ t.done = true ∧ t.error = s.error ∧ t.errCode = s.errCode ∧ t.errInfo = s.errInfo ∧
    t.overrun = false ∧ t.lenValid = false ∧ t.trieValid = false ∧ t.outValid = false ∧ t.dictBad = false ∧
    t.inLen = 0#32 ∧ t.outLen = 0#32 ∧ t.bitCount = 0#32 ∧ t.nsym = 0#9 ∧ t.arg0 = 0#32 ∧ t.arg1 = 0#32 ∧
    (∀ sym, tableGet t.freq sym = 0#32 ∧ tableGet t.len sym = 0#6 ∧ tableGet t.dict sym = Entry.absent) ∧
    t.trie = Trie.empty ∧
    t.irqEn = s.irqEn ∧ t.inBuf = s.inBuf ∧ t.outBuf = s.outBuf ∧ t.latch = s.latch ∧ t.inCap = s.inCap ∧
    t.outCap = s.outCap ∧ t.draws = s.draws ∧ t.delay = s.delay ∧ t.program = s.program ∧ t.trace = s.trace ∧
    t.checkFailed = s.checkFailed ∧ t.hostFailed = s.hostFailed

/-- The frame of every command, on every path (success or error): no command writes IN, IN_LEN, IRQ_EN, LATCH, the
parameters, the argument registers or OVERRUN, but SOFT_RESET the registers it resets; FREQ, LEN, DICT, TRIE and every
byte of OUT change only by the commands that write them. -/
def Obligations.CommandsWriteOnlyTheirOwnState : Prop :=
  ∀ (i : Instr) (s t : State), exec i s = .next t →
    t.inCap = s.inCap ∧ t.outCap = s.outCap ∧ t.latch = s.latch ∧ t.irqEn = s.irqEn ∧ t.inBuf = s.inBuf ∧
    t.delay = s.delay ∧ t.program = s.program ∧ t.trace = s.trace ∧ t.checkFailed = s.checkFailed ∧
    t.hostFailed = s.hostFailed ∧
    (i ≠ .softReset → t.inLen = s.inLen ∧ t.arg0 = s.arg0 ∧ t.arg1 = s.arg1 ∧ t.overrun = s.overrun) ∧
    (i ∉ [Instr.softReset, .freqCount, .buildDict] → t.freq = s.freq) ∧
    (i ∉ [Instr.softReset, .buildTree, .buildDict] → t.len = s.len) ∧
    (i ∉ [Instr.softReset, .freqCount, .buildTree, .buildDict] → t.lenValid = s.lenValid) ∧
    (i ∉ [Instr.softReset, .assignCodes, .buildDict, .dictClear, .dictWrite] → t.dict = s.dict ∧ t.nsym = s.nsym ∧
      t.dictBad = s.dictBad) ∧
    (i ∉ [Instr.softReset, .buildTrie] → t.trie = s.trie) ∧
    (i ∉ [Instr.softReset, .assignCodes, .buildDict, .dictClear, .dictWrite, .buildTrie] →
      t.trieValid = s.trieValid) ∧
    (i ∉ [Instr.softReset, .encode, .decode] → t.outLen = s.outLen ∧ t.bitCount = s.bitCount ∧
      t.outValid = s.outValid) ∧
    (i ∉ [Instr.encode, .decode] → t.draws = s.draws ∧ ∀ k, t.outBuf.read k = s.outBuf.read k)

/-! ## FREQ_COUNT -/

/-- R120, R121: FREQ_COUNT stores for each symbol how many of the input bytes equal it, and nothing else. -/
def Obligations.FreqCountCountsTheInput : Prop :=
  ∀ s : State, s.inLen.toNat ≤ s.inCap →
    ∃ F, exec .freqCount s = .next { s with freq := F, lenValid := false, phase := .idle, done := true } ∧
      ∀ sym, (tableGet F sym).toNat =
        ((List.range s.inLen.toNat).filter (fun k => s.inBuf.read k == sym)).length

/-- R104, R121, R250: an input longer than the buffer: FREQ_COUNT and BUILD_DICT change only the status registers. -/
def Obligations.BadLengthChangesOnlyStatus : Prop :=
  ∀ (s : State) (i : Instr), s.inCap < s.inLen.toNat → i = .freqCount ∨ i = .buildDict →
    exec i s = .next { s with
      phase := .idle, done := true, error := true, errCode := .badLength, errInfo := s.inLen }

/-! ## BUILD_TREE -/

/-- R130, R131, R135: BUILD_TREE stores the lengths, or refuses a tree deeper than 32. With two or more present symbols
the lengths are the depths in a tree that the loop of R131 makes of the present symbols' leaves, which joins again and
again the node of the least key (weight, least symbol) with the least of the others. -/
def Obligations.BuildTreeStoresLengths : Prop :=
  ∀ s : State,
    (maxLength (huffmanLengths s.freq) ≤ 32 →
      ∃ L, exec .buildTree s = .next { s with len := L, lenValid := true, phase := .idle, done := true } ∧
        ∀ sym, (tableGet L sym).toNat = tableGet (huffmanLengths s.freq) sym) ∧
    (32 < maxLength (huffmanLengths s.freq) →
      ∃ L, exec .buildTree s = .next { s with
          len := L, lenValid := false, phase := .idle, done := true, error := true, errCode := .codeTooLong
          errInfo := BitVec.ofNat 32 (maxLength (huffmanLengths s.freq)) } ∧
        ∀ sym, tableGet L sym = 0#6) ∧
    (2 ≤ (presentSymbols s.freq).length →
      ∃ root : QNode,
        MergesTo ((presentSymbols s.freq).map (fun p =>
          { weight := (tableGet s.freq p).toNat, least := p.toNat, tree := .leaf p })) root ∧
        ∀ p, tableGet s.freq p ≠ 0#32 → LeafAtDepth p (tableGet (huffmanLengths s.freq) p) root.tree)

/-- R133 and R135's corner cases: no symbol, one symbol, two symbols. -/
def Obligations.SmallAlphabetsGetFixedLengths : Prop :=
  ∀ f : Table Word,
    (presentSymbols f = [] → ∀ s, tableGet (huffmanLengths f) s = 0) ∧
    (∀ p, presentSymbols f = [p] → ∀ s, tableGet (huffmanLengths f) s = if s = p then 1 else 0) ∧
    (∀ p q, presentSymbols f = [p, q] →
      ∀ s, tableGet (huffmanLengths f) s = if s = p ∨ s = q then 1 else 0)

/-- R131: a symbol has a code length exactly when it is present. -/
def Obligations.ExactlyPresentSymbolsHaveLengths : Prop :=
  ∀ (f : Table Word) (s : Byte), tableGet (huffmanLengths f) s = 0 ↔ tableGet f s = 0#32

/-- R153: the Kraft equality: the sum of `2^(-L[s])` is 1 with two or more present symbols, and 1/2 with one. -/
def Obligations.HuffmanLengthsMeetKraft : Prop :=
  ∀ f : Table Word,
    (2 ≤ (presentSymbols f).length → kraftScaled 256 (huffmanLengths f) = 2 ^ 256) ∧
    ((presentSymbols f).length = 1 → kraftScaled 256 (huffmanLengths f) = 2 ^ 255)

/-- R136: with counted weights every depth is at most 25. -/
def Obligations.CountedWeightsGiveShallowTrees : Prop :=
  ∀ s : State, s.inLen.toNat ≤ 262144 → maxLength (huffmanLengths (countInput s).freq) ≤ 25

/-! ## ASSIGN_CODES -/

/-- R152: with LEN_VALID, DICT holds a codeword of length LEN[s] for exactly the symbols with a length, NSYM counts
them, and TRIE_VALID and DICT_BAD clear; without, NOT_READY(0x04) and nothing else. -/
def Obligations.AssignCodesFillsTheDictionary : Prop :=
  ∀ s : State,
    (s.lenValid = true →
      ∃ D n, exec .assignCodes s = .next { s with
          dict := D, nsym := n, trieValid := false, dictBad := false, phase := .idle, done := true } ∧
        D = canonical s.len ∧ n.toNat = numPresent D ∧
        ∀ sym, ((tableGet D sym).valid = true ↔ tableGet s.len sym ≠ 0#6) ∧
          (tableGet D sym).len = tableGet s.len sym) ∧
    (s.lenValid = false →
      exec .assignCodes s = .next { s with
        phase := .idle, done := true, error := true, errCode := .notReady, errInfo := 0x04#32 })

/-- R151, R154: over lengths BUILD_TREE stores, the first code is 0, the next symbol of the order of R150 takes
`(previous + 1) << k`, and within one length the values rise with the symbol. -/
def Obligations.CanonicalCodesFollowTheOrder : Prop :=
  ∀ f : Table Word, maxLength (huffmanLengths f) ≤ 32 →
    let L := lengthTable (huffmanLengths f)
    let D := canonical L
    let before (s t : Byte) : Prop := tableGet L s ≠ 0#6 ∧ tableGet L t ≠ 0#6 ∧
      ((tableGet L s).toNat < (tableGet L t).toNat ∨ (tableGet L s = tableGet L t ∧ s.toNat < t.toNat))
    (∀ t, tableGet L t ≠ 0#6 → (∀ s, ¬ before s t) → (tableGet D t).val = 0#32) ∧
    (∀ s t, before s t → (∀ u, ¬ (before s u ∧ before u t)) →
      (tableGet D t).val.toNat =
        ((tableGet D s).val.toNat + 1) * 2 ^ ((tableGet L t).toNat - (tableGet L s).toNat)) ∧
    (∀ s t, before s t → (tableGet D s).val.toNat < (tableGet D t).val.toNat)

/-- R153: over lengths BUILD_TREE stores, every entry is legal (`val < 2^len`) and the codewords are prefix-free. -/
def Obligations.CanonicalDictionariesArePrefixFree : Prop :=
  ∀ f : Table Word, maxLength (huffmanLengths f) ≤ 32 →
    (∀ sym, (tableGet (canonical (lengthTable (huffmanLengths f))) sym).legal) ∧
    prefixFree (canonical (lengthTable (huffmanLengths f)))

/-- R153: with two or more present symbols the code is complete: every sequence of at least 32 bits begins with a
codeword. -/
def Obligations.CanonicalDictionariesAreComplete : Prop :=
  ∀ (f : Table Word) (bits : List Bool), maxLength (huffmanLengths f) ≤ 32 → 2 ≤ (presentSymbols f).length →
    32 ≤ bits.length →
    ∃ sym, (tableGet (canonical (lengthTable (huffmanLengths f))) sym).valid = true ∧
      (tableGet (canonical (lengthTable (huffmanLengths f))) sym).bits <+: bits

/-! ## BUILD_DICT -/

/-- R250: BUILD_DICT is FREQ_COUNT, BUILD_TREE and ASSIGN_CODES one after another, when none of them fails. -/
def Obligations.BuildDictIsTheThreeCommands : Prop :=
  ∀ s : State, s.inLen.toNat ≤ s.inCap → maxLength (huffmanLengths (countInput s).freq) ≤ 32 →
    ∃ a b c, exec .freqCount s = .next a ∧ exec .buildTree a = .next b ∧ exec .assignCodes b = .next c ∧
      exec .buildDict s = .next c ∧ c.lenValid = true ∧ c.error = s.error

/-- R136, R250: with a legal IN_CAP, BUILD_DICT on an input that fits always succeeds: FREQ counts the input, LEN its
Huffman lengths, DICT their canonical code. -/
def Obligations.BuildDictAlwaysSucceedsOnInputThatFits : Prop :=
  ∀ s : State, WellFormed.capacity s.inCap = true → s.inLen.toNat ≤ s.inCap →
    ∃ F L D n, exec .buildDict s = .next { s with
        freq := F, len := L, dict := D, nsym := n, lenValid := true, trieValid := false, dictBad := false
        phase := .idle, done := true } ∧
      (∀ sym, (tableGet F sym).toNat = (inputBytes s).count sym) ∧
      (∀ sym, (tableGet L sym).toNat = tableGet (huffmanLengths F) sym) ∧
      D = canonical L ∧ n.toNat = numPresent D

/-! ## DICT_CLEAR, DICT_WRITE -/

/-- R171: DICT_CLEAR empties the dictionary and clears TRIE_VALID and DICT_BAD, and nothing else. -/
def Obligations.DictClearEmptiesTheDictionary : Prop :=
  ∀ s : State, ∃ D, exec .dictClear s = .next { s with
      dict := D, nsym := 0#9, trieValid := false, dictBad := false, phase := .idle, done := true } ∧
    ∀ sym, tableGet D sym = { valid := false, len := 0#6, val := 0#32 }

/-- R170, R172: DICT_WRITE of a well-formed, new codeword for a new symbol stores it and counts it. -/
def Obligations.DictWriteStoresANewPair : Prop :=
  ∀ s : State, s.dictBad = false → s.arg0.extractLsb' 14 18 = 0#18 →
    1 ≤ (s.arg0.extractLsb' 8 6).toNat → (s.arg0.extractLsb' 8 6).toNat ≤ 32 →
    s.arg1.toNat < 2 ^ (s.arg0.extractLsb' 8 6).toNat →
    (∀ t, tableGet s.dict t ≠ { valid := true, len := s.arg0.extractLsb' 8 6, val := s.arg1 }) →
    (tableGet s.dict (s.arg0.extractLsb' 0 8)).valid = false →
    ∃ D, exec .dictWrite s = .next { s with
        dict := D, nsym := s.nsym + 1#9, trieValid := false, phase := .idle, done := true } ∧
      tableGet D (s.arg0.extractLsb' 0 8) = { valid := true, len := s.arg0.extractLsb' 8 6, val := s.arg1 } ∧
      ∀ r, r ≠ s.arg0.extractLsb' 0 8 → tableGet D r = tableGet s.dict r

/-- R172 to R176: DICT_WRITE's errors in their priority: NOT_READY with nothing else; FORMAT_MALFORMED,
FORMAT_DUPLICATE_CODEWORD(t) and FORMAT_DUPLICATE_SYMBOL with TRIE_VALID 0 and DICT_BAD 1, DICT and NSYM kept. -/
def Obligations.DictWriteErrorsInPriorityOrder : Prop :=
  ∀ s : State,
    let len := s.arg0.extractLsb' 8 6
    let sym := s.arg0.extractLsb' 0 8
    let bad := s.arg0.extractLsb' 14 18 ≠ 0#18 ∨ len = 0#6 ∨ 32 < len.toNat ∨ 2 ^ len.toNat ≤ s.arg1.toNat
    (s.dictBad = true → exec .dictWrite s = .next { s with
      phase := .idle, done := true, error := true, errCode := .notReady, errInfo := 0x07#32 }) ∧
    (s.dictBad = false → bad → exec .dictWrite s = .next { s with
      trieValid := false, dictBad := true, phase := .idle, done := true, error := true
      errCode := .formatMalformed, errInfo := s.arg0 }) ∧
    (∀ t, s.dictBad = false → ¬ bad → tableGet s.dict t = { valid := true, len := len, val := s.arg1 } →
      (∀ u, tableGet s.dict u = { valid := true, len := len, val := s.arg1 } → u = t) →
      exec .dictWrite s = .next { s with
        trieValid := false, dictBad := true, phase := .idle, done := true, error := true
        errCode := .formatDuplicateCodeword, errInfo := t.setWidth 32 }) ∧
    (s.dictBad = false → ¬ bad → (∀ t, tableGet s.dict t ≠ { valid := true, len := len, val := s.arg1 }) →
      (tableGet s.dict sym).valid = true →
      exec .dictWrite s = .next { s with
        trieValid := false, dictBad := true, phase := .idle, done := true, error := true
        errCode := .formatDuplicateSymbol, errInfo := sym.setWidth 32 })

/-- R81, R88, R183: the operand words of `dput s, "c"` give DICT_WRITE the symbol, the length and the codeword. -/
def Obligations.DputOperandsSpellTheCodeword : Prop :=
  ∀ (s : State) (sym : Byte) (c : List Bool), 1 ≤ c.length → c.length ≤ 32 →
    let t := withPairArgs (sym, c) s
    argSymbol t = sym ∧ (argLength t).toNat = c.length ∧ argReserved t = 0#18 ∧ malformedOperand t = false ∧
    bitsOf (argLength t).toNat t.arg1 = c

/-! ## ENCODE -/

/-- R200 to R206: ENCODE writes the big-endian count and the codewords' bits packed most significant first with zero
padding, keeps the bytes of OUT after them, and records the length and the count. -/
def Obligations.EncodeWritesTheStream : Prop :=
  ∀ s : State, s.inLen.toNat ≤ s.inCap → s.dictBad = false →
    (∀ k, k < s.inLen.toNat → (tableGet s.dict (s.inBuf.read k)).valid = true) →
    let bits := ((List.range s.inLen.toNat).map (fun k => (tableGet s.dict (s.inBuf.read k)).bits)).flatten
    let total := 4 + (bits.length + 7) / 8
    bits.length < 2 ^ 32 → total ≤ s.outCap →
    ∃ B, exec .encode s = .next { s with
        outBuf := B, outLen := BitVec.ofNat 32 total, bitCount := BitVec.ofNat 32 bits.length, outValid := true
        phase := .idle, done := true } ∧
      (B.read 0).toNat * 2 ^ 24 + (B.read 1).toNat * 2 ^ 16 + (B.read 2).toNat * 2 ^ 8 + (B.read 3).toNat =
        bits.length ∧
      (∀ j, j < 8 * ((bits.length + 7) / 8) → (B.read (4 + j / 8)).getLsbD (7 - j % 8) = bits.getD j false) ∧
      (∀ k, total ≤ k → B.read k = s.outBuf.read k)

/-- R205, R273: ENCODE's errors in their priority; each leaves OUT_LEN, BIT_COUNT and OUT_VALID 0 and OUT unspecified,
and changes nothing else. -/
def Obligations.EncodeErrorsInPriorityOrder : Prop :=
  ∀ s : State,
    let failsWith (c : ErrCode) (i : Word) : Prop := ∃ B n, exec .encode s = .next { s with
      outBuf := B, draws := n, outLen := 0#32, bitCount := 0#32, outValid := false
      phase := .idle, done := true, error := true, errCode := c, errInfo := i }
    let bits := encodeBits s.dict (inputBytes s)
    (s.inCap < s.inLen.toNat → failsWith .badLength s.inLen) ∧
    (s.inLen.toNat ≤ s.inCap → s.dictBad = true → failsWith .notReady 0x08#32) ∧
    (s.inLen.toNat ≤ s.inCap → s.dictBad = false →
      ∀ k, k < s.inLen.toNat → (tableGet s.dict (s.inBuf.read k)).valid = false →
        (∀ j, j < k → (tableGet s.dict (s.inBuf.read j)).valid = true) →
        failsWith .encodeSymbolMissing (BitVec.ofNat 32 k)) ∧
    (s.inLen.toNat ≤ s.inCap → s.dictBad = false →
      (∀ k, k < s.inLen.toNat → (tableGet s.dict (s.inBuf.read k)).valid = true) →
      (2 ^ 32 ≤ bits.length → failsWith .bitCountOverflow 0xFFFFFFFF#32) ∧
      (bits.length < 2 ^ 32 → s.outCap < 4 + (bits.length + 7) / 8 →
        failsWith .outputOverflow (BitVec.ofNat 32 (4 + (bits.length + 7) / 8))))

/-! ## BUILD_TRIE -/

/-- R222, R223, R225: BUILD_TRIE: NOT_READY with nothing else; a violation leaves the empty trie and TRIE_VALID 0; else
the trie of DICT with TRIE_VALID 1: a leaf at each present entry's codeword, an internal node at every proper prefix of
a codeword, and no other node but the root. -/
def Obligations.BuildTrieStoresTheTrie : Prop :=
  ∀ s : State,
    (s.dictBad = true → exec .buildTrie s = .next { s with
      phase := .idle, done := true, error := true, errCode := .notReady, errInfo := 0x09#32 }) ∧
    (s.dictBad = false → (∀ sym, (tableGet s.dict sym).legal) → prefixFree s.dict →
      ∃ T, buildTrie s.dict = .ok T ∧
        exec .buildTrie s = .next { s with trie := T, trieValid := true, phase := .idle, done := true } ∧
        (∀ path sym, T.reach path = .leaf sym ↔
          (tableGet s.dict sym).valid = true ∧ path = (tableGet s.dict sym).bits) ∧
        (∀ path, path ≠ [] → ((∃ c0 c1, T.reach path = .internal c0 c1) ↔
          ∃ sym, (tableGet s.dict sym).valid = true ∧ path <+: (tableGet s.dict sym).bits ∧
            path ≠ (tableGet s.dict sym).bits))) ∧
    (s.dictBad = false → ∀ sym, buildTrie s.dict = .error sym →
      exec .buildTrie s = .next { s with
        trie := { child0 := .absent, child1 := .absent }, trieValid := false
        phase := .idle, done := true, error := true, errCode := .decodeTreeCorrupt, errInfo := sym.setWidth 32 })

/-- R222, R223: over legal entries, reconstruction fails exactly when the codewords are not prefix-free, and it reports
the least present symbol whose codeword conflicts with a smaller present symbol's. -/
def Obligations.TrieFailsExactlyOnPrefixViolations : Prop :=
  ∀ d : Table Entry, (∀ sym, (tableGet d sym).legal) →
    ((∃ t, buildTrie d = .ok t) ↔ prefixFree d) ∧
    (∀ s, buildTrie d = .error s ↔
      ((tableGet d s).valid = true ∧
        (∃ r, r.toNat < s.toNat ∧ (tableGet d r).valid = true ∧ codesConflict (tableGet d r) (tableGet d s)) ∧
        ∀ u, u.toNat < s.toNat → (tableGet d u).valid = true →
          ∀ r, r.toNat < u.toNat → (tableGet d r).valid = true → ¬ codesConflict (tableGet d r) (tableGet d u)))

/-- R35: a trie built from legal entries has at most TRIE_NODES = 8193 nodes. -/
def Obligations.TriesFitTheNodeStore : Prop :=
  ∀ (d : Table Entry) (t : Trie), (∀ sym, (tableGet d sym).legal) → buildTrie d = .ok t → t.nodes ≤ 8193

/-! ## DECODE -/

/-- R230 to R233: on a whole stream whose `N` bits spell paths from the root to leaves, DECODE writes the leaves'
symbols, keeps the bytes of OUT after them, and ignores bytes after the packed ones and the padding bits. -/
def Obligations.DecodeEmitsTheSymbolsOfThePaths : Prop :=
  ∀ (s : State) (syms : List (Byte × List Bool)), s.inLen.toNat ≤ s.inCap → s.trieValid = true →
    (∀ p, p ∈ syms → s.trie.reach p.2 = .leaf p.1) →
    let bits := syms.flatMap (fun p => p.2)
    4 + (bits.length + 7) / 8 ≤ s.inLen.toNat →
    (s.inBuf.read 0).toNat * 2 ^ 24 + (s.inBuf.read 1).toNat * 2 ^ 16 + (s.inBuf.read 2).toNat * 2 ^ 8
      + (s.inBuf.read 3).toNat = bits.length →
    (∀ j, j < bits.length → (s.inBuf.read (4 + j / 8)).getLsbD (7 - j % 8) = bits.getD j false) →
    syms.length ≤ s.outCap →
    ∃ B, exec .decode s = .next { s with
        outBuf := B, outLen := BitVec.ofNat 32 syms.length, bitCount := BitVec.ofNat 32 bits.length
        outValid := true, phase := .idle, done := true } ∧
      (∀ k, k < syms.length → B.read k = (syms.getD k (0#8, [])).1) ∧
      (∀ k, syms.length ≤ k → B.read k = s.outBuf.read k)

/-- R230, R235, R273: DECODE's errors that come before any bit is walked, in their priority; each leaves OUT_LEN,
BIT_COUNT and OUT_VALID 0 and OUT unspecified, and changes nothing else. -/
def Obligations.DecodeErrorsBeforeTheWalk : Prop :=
  ∀ s : State,
    let failsWith (c : ErrCode) (i : Word) : Prop := ∃ B n, exec .decode s = .next { s with
      outBuf := B, draws := n, outLen := 0#32, bitCount := 0#32, outValid := false
      phase := .idle, done := true, error := true, errCode := c, errInfo := i }
    let count := (s.inBuf.read 0).toNat * 2 ^ 24 + (s.inBuf.read 1).toNat * 2 ^ 16
      + (s.inBuf.read 2).toNat * 2 ^ 8 + (s.inBuf.read 3).toNat
    (s.inCap < s.inLen.toNat → failsWith .badLength s.inLen) ∧
    (s.inLen.toNat ≤ s.inCap → s.trieValid = false → failsWith .notReady 0x0A#32) ∧
    (s.inLen.toNat ≤ s.inCap → s.trieValid = true → s.inLen.toNat < 4 → failsWith .streamTruncatedData s.inLen) ∧
    (s.inLen.toNat ≤ s.inCap → s.trieValid = true → 4 ≤ s.inLen.toNat →
      s.inLen.toNat - 4 < (count + 7) / 8 → failsWith .streamTruncatedData s.inLen)

/-- R230, R232, R234, R235: the walk's three errors. After the symbols of `syms`, the bits go on with `tail`: a bit that
selects an absent child is INVALID_CODE at its index; a leaf met with the output full is OUTPUT_OVERFLOW at its bit;
bits that end at an internal node below the root are STREAM_TRUNCATED_MIDCODE with the count. -/
def Obligations.DecodeErrorsOfTheWalk : Prop :=
  ∀ (s : State) (syms : List (Byte × List Bool)) (tail : List Bool) (n : Nat),
    s.inLen.toNat ≤ s.inCap → s.trieValid = true →
    (∀ p, p ∈ syms → s.trie.reach p.2 = .leaf p.1) → syms.length ≤ s.outCap →
    let bits := syms.flatMap (fun p => p.2) ++ tail
    let failsWith (c : ErrCode) (i : Word) : Prop := ∃ B d, exec .decode s = .next { s with
      outBuf := B, draws := d, outLen := 0#32, bitCount := 0#32, outValid := false
      phase := .idle, done := true, error := true, errCode := c, errInfo := i }
    (s.inBuf.read 0).toNat * 2 ^ 24 + (s.inBuf.read 1).toNat * 2 ^ 16 + (s.inBuf.read 2).toNat * 2 ^ 8
      + (s.inBuf.read 3).toNat = n →
    4 + (n + 7) / 8 ≤ s.inLen.toNat → bits.length ≤ n →
    (∀ j, j < bits.length → (s.inBuf.read (4 + j / 8)).getLsbD (7 - j % 8) = bits.getD j false) →
    tail ≠ [] →
    (∀ c0 c1, s.trie.reach tail.dropLast = .internal c0 c1 → s.trie.reach tail = .absent →
      failsWith .invalidCode (BitVec.ofNat 32 (bits.length - 1))) ∧
    (∀ sym, s.trie.reach tail = .leaf sym → syms.length = s.outCap →
      failsWith .outputOverflow (BitVec.ofNat 32 (bits.length - 1))) ∧
    (∀ c0 c1, s.trie.reach tail = .internal c0 c1 → bits.length = n →
      failsWith .streamTruncatedMidcode (BitVec.ofNat 32 n))

/-! ## The pipeline's properties -/

/-- R261: a stream ENCODE produced with `N >= 1`, its last byte removed and its header kept, fails DECODE with
STREAM_TRUNCATED_DATA, on any block whose trie is valid and whose IN holds it. -/
def Obligations.TruncatedStreamsAreDetected : Prop :=
  ∀ (s t u : State), s.error = false → exec .encode s = .next t → t.error = false → t.bitCount ≠ 0#32 →
    u.trieValid = true → u.inLen = t.outLen - 1#32 → u.inLen.toNat ≤ u.inCap →
    (∀ k, k < u.inLen.toNat → u.inBuf.read k = t.outBuf.read k) →
    ∃ v, exec .decode u = .next v ∧ v.error = true ∧ v.errCode = .streamTruncatedData ∧ v.errInfo = u.inLen ∧
      v.outValid = false ∧ v.outLen = 0#32

/-- R255: the round trip, on one block: BUILD_DICT, ENCODE, BUILD_TRIE, then DECODE of the stream, which the host has
copied from OUT to IN (`u` is any state that holds the stream and the trie), gives back the input. That the depths stay
within 32 is CountedWeightsGiveShallowTrees. -/
def Obligations.RoundTripGivesBackTheInput : Prop :=
  ∀ s : State, WellFormed.capacity s.inCap = true → s.inLen.toNat ≤ s.inCap →
    maxLength (huffmanLengths (countInput s).freq) ≤ 32 →
    let D := canonical (lengthTable (huffmanLengths (countInput s).freq))
    let total := 4 + ((encodeBits D (inputBytes s)).length + 7) / 8
    total ≤ s.outCap → total ≤ s.inCap → s.inLen.toNat ≤ s.outCap →
    ∃ a b c, exec .buildDict s = .next a ∧ exec .encode a = .next b ∧ exec .buildTrie b = .next c ∧
      c.error = s.error ∧ c.errCode = s.errCode ∧ b.outLen.toNat = total ∧
      ∀ u : State, u.inCap = s.inCap → u.outCap = s.outCap → u.trieValid = c.trieValid → u.trie = c.trie →
        u.inLen = b.outLen → (∀ k, k < b.outLen.toNat → u.inBuf.read k = b.outBuf.read k) →
        ∃ e, exec .decode u = .next e ∧ e.error = u.error ∧ e.outValid = true ∧ outputBytes e = inputBytes s

/-- R257: the singleton alphabet: `n >= 1` copies of one byte give the dictionary `{s: "0"}`, ENCODE gives `N = n` and
`ceil(n/8)` packed bytes 0x00, and DECODE of the stream with BUILD_TRIE's trie gives the input back, with no error. -/
def Obligations.SingletonAlphabetRoundTrips : Prop :=
  ∀ (s : State) (b : Byte), 1 ≤ s.inLen.toNat → s.inLen.toNat ≤ s.inCap →
    (∀ k, k < s.inLen.toNat → s.inBuf.read k = b) → 4 + (s.inLen.toNat + 7) / 8 ≤ s.outCap →
    ∃ a t, exec .buildDict s = .next a ∧ exec .encode a = .next t ∧
      (∀ sym, tableGet a.dict sym = if sym = b then { valid := true, len := 1#6, val := 0#32 } else Entry.absent) ∧
      t.bitCount = s.inLen ∧ t.outLen.toNat = 4 + (s.inLen.toNat + 7) / 8 ∧
      (∀ k, 4 ≤ k → k < t.outLen.toNat → t.outBuf.read k = 0x00#8) ∧
      ∃ c, exec .buildTrie t = .next c ∧
        ∀ u : State, u.trieValid = c.trieValid → u.trie = c.trie → u.inLen = t.outLen →
          u.inLen.toNat ≤ u.inCap → s.inLen.toNat ≤ u.outCap →
          (∀ k, k < t.outLen.toNat → u.inBuf.read k = t.outBuf.read k) →
          ∃ e, exec .decode u = .next e ∧ e.error = u.error ∧ e.outValid = true ∧ outputBytes e = inputBytes s

/-- R258: the empty input: an empty dictionary of zero bytes, the stream `00 00 00 00`, an empty trie, and an empty
output with no error. -/
def Obligations.EmptyInputGivesEmptyOutput : Prop :=
  ∀ s : State, s.inLen = 0#32 → 4 ≤ s.outCap →
    ∃ a b c, exec .buildDict s = .next a ∧ exec .encode a = .next b ∧ exec .buildTrie b = .next c ∧
      a.nsym = 0#9 ∧ (∀ sym, tableGet a.dict sym = Entry.absent) ∧ serialiseDictionary a.dict = [] ∧
      outputBytes b = [0x00#8, 0x00#8, 0x00#8, 0x00#8] ∧ b.outLen = 4#32 ∧ b.bitCount = 0#32 ∧
      c.trieValid = true ∧ c.trie = { child0 := .absent, child1 := .absent } ∧ c.error = s.error ∧
      ∀ u : State, u.inLen = 4#32 → 4 ≤ u.inCap → inputBytes u = outputBytes b → u.trieValid = true →
        u.trie = c.trie →
        ∃ e, exec .decode u = .next e ∧ e.outLen = 0#32 ∧ e.outValid = true ∧ e.error = u.error

/-- R188: loading the bytes a dictionary serialises to gives that dictionary and its count back, with no error, from
any state. -/
def Obligations.SerialisedDictionariesLoadBack : Prop :=
  ∀ d : Table Entry, (∀ sym, (tableGet d sym).legal) →
    (∀ a b, a ≠ b → (tableGet d a).valid = true → (tableGet d b).valid = true → tableGet d a ≠ tableGet d b) →
    ∃ ps, parseDictionary (serialiseDictionary d) = .ok ps ∧
      ∀ u : State, ∃ t, loadPairs ps u = .ok t ∧ t.dict = d ∧ t.nsym.toNat = numPresent d

/-- R312: every `wait` ends: within `delay + 2` steps of the busy window's drawn length the host is past it and the
block idle (that the length is drawn as a number is the model's form of weak fairness, log 6). -/
def Obligations.EveryWaitEnds : Prop :=
  ∀ (s : State) (rest : List HostStmt), s.program = .wait :: rest →
    ∃ k t, k ≤ s.delay + 2 ∧ Runs k s t ∧ t.program = rest ∧ t.phase = .idle
end

