-- ==== Sys2Proof/Laws/Buffers.lean ====
section
/-! SUPPORT. Laws of the byte buffers: read after write, the canonical form is kept, and a canonical buffer is
determined by what it reads. -/

namespace Sys2Proof.Machine

/-! ## Cells -/

theorem cellAt_erase (k j : Nat) (cells : List Host.Cell) :
    cellAt j (eraseCell k cells) = if k = j then none else cellAt j cells := by
  induction cells with
  | nil => simp [eraseCell, cellAt]
  | cons c cells ih =>
    obtain ⟨i, b⟩ := c
    have hstep : eraseCell k ((i, b) :: cells) =
        if i = k then eraseCell k cells else (i, b) :: eraseCell k cells := by
      by_cases h : i = k <;> simp [eraseCell, h]
    rw [hstep]
    by_cases hik : i = k
    · subst hik
      by_cases hkj : i = j <;> simp_all [cellAt]
    · by_cases hij : i = j
      · subst hij
        simp [hik, cellAt, Ne.symm hik]
      · simp [hik, hij, cellAt, ih]

theorem cellAt_insert (k j : Nat) (v : Byte) (cells : List Host.Cell) (h : cellAt k cells = none) :
    cellAt j (insertCell k v cells) = if k = j then some v else cellAt j cells := by
  induction cells with
  | nil => simp [insertCell, cellAt]
  | cons c cells ih =>
    obtain ⟨i, b⟩ := c
    have hik : i ≠ k := by
      intro e
      simp [cellAt, e] at h
    have htail : cellAt k cells = none := by simpa [cellAt, hik] using h
    rw [insertCell]
    split
    · simp [cellAt]
    · simp only [cellAt, ih htail]
      by_cases hij : i = j
      · subst hij
        simp [Ne.symm hik]
      · simp [hij]

/-- Read after write. -/
@[simp] theorem read_write (b : Buffer) (k j : Nat) (v : Byte) :
    (b.write k v).read j = if k = j then v else b.read j := by
  unfold Buffer.write
  split
  · rename_i hv
    simp only [Buffer.read, cellAt_erase]
    by_cases h : k = j
    · subst h
      simp [hv]
    · simp [h]
  · have he : cellAt k (eraseCell k b.cells) = none := by simp [cellAt_erase]
    simp only [Buffer.read, cellAt_insert _ _ _ _ he, cellAt_erase]
    by_cases h : k = j <;> simp [h]

@[simp] theorem write_seed (b : Buffer) (k : Nat) (v : Byte) : (b.write k v).seed = b.seed := by
  unfold Buffer.write
  split <;> rfl

/-- Read after a list of bytes is written from index `k` on. -/
theorem read_writeList (vs : List Byte) (b : Buffer) (k j : Nat) :
    (b.writeList k vs).read j = if k ≤ j ∧ j < k + vs.length then vs.getD (j - k) 0#8 else b.read j := by
  induction vs generalizing b k with
  | nil =>
    have : ¬ (k ≤ j ∧ j < k) := by omega
    simp [Buffer.writeList, this]
  | cons v vs ih =>
    rw [Buffer.writeList, ih, read_write]
    by_cases hkj : k = j
    · subst hkj
      simp
    · have hlen : (v :: vs).length = vs.length + 1 := rfl
      by_cases hin : k + 1 ≤ j ∧ j < k + 1 + vs.length
      · have hin' : k ≤ j ∧ j < k + (v :: vs).length := by omega
        have e : j - k = (j - (k + 1)) + 1 := by omega
        rw [if_pos hin, if_pos hin', e, List.getD_cons_succ]
      · have hin' : ¬ (k ≤ j ∧ j < k + (v :: vs).length) := by omega
        rw [if_neg hin, if_neg hin', if_neg hkj]

/-- The bytes just written read back. -/
theorem bytes_writeList (vs : List Byte) (b : Buffer) : (b.writeList 0 vs).bytes vs.length = vs := by
  apply List.ext_getElem
  · simp [Buffer.bytes]
  · intro i h1 h2
    simp [Buffer.bytes, read_writeList, h2]

@[simp] theorem length_bytes (b : Buffer) (n : Nat) : (b.bytes n).length = n := by simp [Buffer.bytes]

theorem getElem_bytes (b : Buffer) (n k : Nat) (h : k < (b.bytes n).length) : (b.bytes n)[k] = b.read k := by
  simp [Buffer.bytes]

@[simp] theorem read_any (d k : Nat) : (Buffer.any d).read k = Config.anyByte d k := rfl

/-! ## The canonical form -/

theorem risingFrom_mono {lo lo' : Nat} {cells : List Host.Cell} (h : lo' ≤ lo) (hr : risingFrom lo cells = true) :
    risingFrom lo' cells = true := by
  cases cells with
  | nil => rfl
  | cons c cells =>
    simp only [risingFrom, Bool.and_eq_true, decide_eq_true_eq] at hr ⊢
    exact ⟨h.trans hr.1, hr.2⟩

theorem risingFrom_erase (k : Nat) (lo : Nat) (cells : List Host.Cell) (hr : risingFrom lo cells = true) :
    risingFrom lo (eraseCell k cells) = true := by
  induction cells generalizing lo with
  | nil => rfl
  | cons c cells ih =>
    obtain ⟨i, b⟩ := c
    simp only [risingFrom, Bool.and_eq_true, decide_eq_true_eq] at hr
    by_cases h : i = k
    · have : eraseCell k ((i, b) :: cells) = eraseCell k cells := by simp [eraseCell, h]
      rw [this]
      exact ih lo (risingFrom_mono (by omega) hr.2)
    · have : eraseCell k ((i, b) :: cells) = (i, b) :: eraseCell k cells := by simp [eraseCell, h]
      rw [this]
      simp only [risingFrom, Bool.and_eq_true, decide_eq_true_eq]
      exact ⟨hr.1, ih (i + 1) hr.2⟩

theorem risingFrom_insert (k : Nat) (v : Byte) (lo : Nat) (cells : List Host.Cell) (hlo : lo ≤ k)
    (hn : cellAt k cells = none) (hr : risingFrom lo cells = true) : risingFrom lo (insertCell k v cells) = true := by
  induction cells generalizing lo with
  | nil => simp [insertCell, risingFrom, hlo]
  | cons c cells ih =>
    obtain ⟨i, b⟩ := c
    simp only [risingFrom, Bool.and_eq_true, decide_eq_true_eq] at hr
    have hik : i ≠ k := by
      intro e
      simp [cellAt, e] at hn
    have htail : cellAt k cells = none := by simpa [cellAt, hik] using hn
    rw [insertCell]
    split
    · simp only [risingFrom, Bool.and_eq_true, decide_eq_true_eq]
      exact ⟨hlo, by omega, hr.2⟩
    · simp only [risingFrom, Bool.and_eq_true, decide_eq_true_eq]
      exact ⟨hr.1, ih (i + 1) (by omega) htail hr.2⟩

theorem all_erase (p : Host.Cell → Bool) (k : Nat) (cells : List Host.Cell) (h : cells.all p = true) :
    (eraseCell k cells).all p = true := by
  simp only [List.all_eq_true] at h ⊢
  exact fun c hc => h c (List.mem_of_mem_filter hc)

theorem all_insert (p : Host.Cell → Bool) (k : Nat) (v : Byte) (cells : List Host.Cell) (hp : p (k, v) = true)
    (h : cells.all p = true) : (insertCell k v cells).all p = true := by
  induction cells with
  | nil => simpa [insertCell] using hp
  | cons c cells ih =>
    obtain ⟨i, b⟩ := c
    simp only [List.all_cons, Bool.and_eq_true] at h
    rw [insertCell]
    split
    · simp [hp, h.1, h.2]
    · simp [h.1, ih h.2]

/-- A write inside the buffer keeps the canonical form. -/
theorem wf_write {cap : Nat} {b : Buffer} {k : Nat} (v : Byte) (hk : k < cap) (h : b.wf cap = true) :
    (b.write k v).wf cap = true := by
  simp only [Buffer.wf, Bool.and_eq_true] at h ⊢
  unfold Buffer.write
  split
  · exact ⟨risingFrom_erase k 0 _ h.1, all_erase _ k _ h.2⟩
  · rename_i hv
    refine ⟨risingFrom_insert k v 0 _ (Nat.zero_le k) (by simp [cellAt_erase]) (risingFrom_erase k 0 _ h.1), ?_⟩
    exact all_insert _ k v _ (by simpa [hk] using hv) (all_erase _ k _ h.2)

/-- A list written inside the buffer keeps the canonical form. -/
theorem wf_writeList {cap : Nat} (vs : List Byte) {b : Buffer} {k : Nat} (hk : k + vs.length ≤ cap)
    (h : b.wf cap = true) : (b.writeList k vs).wf cap = true := by
  induction vs generalizing b k with
  | nil => exact h
  | cons v vs ih =>
    simp only [List.length_cons] at hk
    exact ih (by omega) (wf_write v (by omega) h)

@[simp] theorem wf_any (cap d : Nat) : (Buffer.any d).wf cap = true := rfl

/-- State.reset's buffers are canonical. -/
theorem reset_buffers_wf : State.reset.inBuf.wf State.reset.inCap = true ∧
    State.reset.outBuf.wf State.reset.outCap = true := ⟨rfl, rfl⟩

theorem cellAt_of_lt {lo k : Nat} {cells : List Host.Cell} (hr : risingFrom lo cells = true) (h : k < lo) :
    cellAt k cells = none := by
  induction cells generalizing lo with
  | nil => rfl
  | cons c cells ih =>
    obtain ⟨i, b⟩ := c
    simp only [risingFrom, Bool.and_eq_true, decide_eq_true_eq] at hr
    have : i ≠ k := by omega
    simp [cellAt, this, ih hr.2 (by omega)]

/-- Rising cell lists that list the same cells are equal. -/
theorem cells_ext {lo : Nat} {xs ys : List Host.Cell} (hx : risingFrom lo xs = true) (hy : risingFrom lo ys = true)
    (h : ∀ k, cellAt k xs = cellAt k ys) : xs = ys := by
  induction xs generalizing lo ys with
  | nil =>
    cases ys with
    | nil => rfl
    | cons c ys => simpa [cellAt] using h c.1
  | cons c xs ih =>
    obtain ⟨i, b⟩ := c
    cases ys with
    | nil => simpa [cellAt] using h i
    | cons c' ys =>
      obtain ⟨j, b'⟩ := c'
      simp only [risingFrom, Bool.and_eq_true, decide_eq_true_eq] at hx hy
      have hi := h i
      have hj := h j
      have hij : i = j := by
        rcases Nat.lt_trichotomy i j with hlt | heq | hlt
        · have := cellAt_of_lt (k := i) (risingFrom_mono (lo' := i + 1) (by omega) hy.2) (by omega)
          have hne : j ≠ i := by omega
          simp [cellAt, hne, this] at hi
        · exact heq
        · have := cellAt_of_lt (k := j) (risingFrom_mono (lo' := j + 1) (by omega) hx.2) (by omega)
          have hne : i ≠ j := by omega
          simp [cellAt, hne, this] at hj
      subst hij
      have hb : b = b' := by simpa [cellAt] using hi
      subst hb
      have : xs = ys := by
        refine ih hx.2 hy.2 (fun k => ?_)
        by_cases hk : i = k
        · subst hk
          rw [cellAt_of_lt hx.2 (by omega), cellAt_of_lt hy.2 (by omega)]
        · simpa [cellAt, hk] using h k
      rw [this]

theorem mem_of_cellAt {k : Nat} {v : Byte} {cells : List Host.Cell} (hc : cellAt k cells = some v) :
    (k, v) ∈ cells := by
  induction cells with
  | nil => simp [cellAt] at hc
  | cons c cells ih =>
    obtain ⟨i, x⟩ := c
    by_cases hik : i = k
    · subst hik
      simp only [cellAt, if_pos, Option.some.injEq] at hc
      simp [hc]
    · exact List.mem_cons_of_mem _ (ih (by simpa [cellAt, hik] using hc))

theorem cellAt_ne_any {b : Buffer} {cap k : Nat} {v : Byte} (h : b.wf cap = true) (hc : cellAt k b.cells = some v) :
    v ≠ Config.anyByte b.seed k := by
  simp only [Buffer.wf, Bool.and_eq_true, List.all_eq_true, decide_eq_true_eq, bne_iff_ne] at h
  exact (h.2 _ (mem_of_cellAt hc)).2

/-- Equal buffers are equal data: two canonical buffers of one draw that read alike are equal. -/
theorem buffer_ext {cap cap' : Nat} {b c : Buffer} (hb : b.wf cap = true) (hc : c.wf cap' = true)
    (hs : b.seed = c.seed) (h : ∀ k, b.read k = c.read k) : b = c := by
  have hcells : b.cells = c.cells := by
    refine cells_ext (lo := 0) ?_ ?_ (fun k => ?_)
    · simp only [Buffer.wf, Bool.and_eq_true] at hb
      exact hb.1
    · simp only [Buffer.wf, Bool.and_eq_true] at hc
      exact hc.1
    · have hk := h k
      simp only [Buffer.read] at hk
      cases hx : cellAt k b.cells with
      | none =>
        cases hy : cellAt k c.cells with
        | none => rfl
        | some w =>
          have := cellAt_ne_any hc hy
          simp [hx, hy, hs] at hk
          exact absurd hk.symm this
      | some v =>
        cases hy : cellAt k c.cells with
        | none =>
          have := cellAt_ne_any hb hx
          simp [hx, hy, ← hs] at hk
          exact absurd hk this
        | some w => simpa [hx, hy] using hk
  cases b
  cases c
  simp_all

end Sys2Proof.Machine
end

