-- ==== Sys2Proof/Laws/State.lean ====
section
/-! SUPPORT. What each shared state update leaves in each field, so that no later proof unfolds a record update. -/

namespace Sys2Proof.Machine

/-! ## latchCommand -/

@[simp] theorem latchCommand_inCap (w : Word) (s : State) : (latchCommand w s).inCap = s.inCap := rfl
@[simp] theorem latchCommand_outCap (w : Word) (s : State) : (latchCommand w s).outCap = s.outCap := rfl
@[simp] theorem latchCommand_phase (w : Word) (s : State) : (latchCommand w s).phase = .busy := rfl
@[simp] theorem latchCommand_latch (w : Word) (s : State) : (latchCommand w s).latch = w := rfl
@[simp] theorem latchCommand_done (w : Word) (s : State) : (latchCommand w s).done = false := rfl
@[simp] theorem latchCommand_error (w : Word) (s : State) : (latchCommand w s).error = false := rfl
@[simp] theorem latchCommand_overrun (w : Word) (s : State) : (latchCommand w s).overrun = s.overrun := rfl
@[simp] theorem latchCommand_lenValid (w : Word) (s : State) : (latchCommand w s).lenValid = s.lenValid := rfl
@[simp] theorem latchCommand_trieValid (w : Word) (s : State) : (latchCommand w s).trieValid = s.trieValid := rfl
@[simp] theorem latchCommand_outValid (w : Word) (s : State) : (latchCommand w s).outValid = s.outValid := rfl
@[simp] theorem latchCommand_dictBad (w : Word) (s : State) : (latchCommand w s).dictBad = s.dictBad := rfl
@[simp] theorem latchCommand_errCode (w : Word) (s : State) : (latchCommand w s).errCode = .noError := rfl
@[simp] theorem latchCommand_errInfo (w : Word) (s : State) : (latchCommand w s).errInfo = 0#32 := rfl
@[simp] theorem latchCommand_irqEn (w : Word) (s : State) : (latchCommand w s).irqEn = s.irqEn := rfl
@[simp] theorem latchCommand_inLen (w : Word) (s : State) : (latchCommand w s).inLen = s.inLen := rfl
@[simp] theorem latchCommand_outLen (w : Word) (s : State) : (latchCommand w s).outLen = s.outLen := rfl
@[simp] theorem latchCommand_bitCount (w : Word) (s : State) : (latchCommand w s).bitCount = s.bitCount := rfl
@[simp] theorem latchCommand_nsym (w : Word) (s : State) : (latchCommand w s).nsym = s.nsym := rfl
@[simp] theorem latchCommand_arg0 (w : Word) (s : State) : (latchCommand w s).arg0 = s.arg0 := rfl
@[simp] theorem latchCommand_arg1 (w : Word) (s : State) : (latchCommand w s).arg1 = s.arg1 := rfl
@[simp] theorem latchCommand_freq (w : Word) (s : State) : (latchCommand w s).freq = s.freq := rfl
@[simp] theorem latchCommand_len (w : Word) (s : State) : (latchCommand w s).len = s.len := rfl
@[simp] theorem latchCommand_dict (w : Word) (s : State) : (latchCommand w s).dict = s.dict := rfl
@[simp] theorem latchCommand_trie (w : Word) (s : State) : (latchCommand w s).trie = s.trie := rfl
@[simp] theorem latchCommand_inBuf (w : Word) (s : State) : (latchCommand w s).inBuf = s.inBuf := rfl
@[simp] theorem latchCommand_outBuf (w : Word) (s : State) : (latchCommand w s).outBuf = s.outBuf := rfl
@[simp] theorem latchCommand_draws (w : Word) (s : State) : (latchCommand w s).draws = s.draws := rfl
@[simp] theorem latchCommand_delay (w : Word) (s : State) : (latchCommand w s).delay = s.delay := rfl
@[simp] theorem latchCommand_program (w : Word) (s : State) : (latchCommand w s).program = s.program := rfl
@[simp] theorem latchCommand_trace (w : Word) (s : State) : (latchCommand w s).trace = s.trace := rfl
@[simp] theorem latchCommand_checkFailed (w : Word) (s : State) :
    (latchCommand w s).checkFailed = s.checkFailed := rfl
@[simp] theorem latchCommand_hostFailed (w : Word) (s : State) : (latchCommand w s).hostFailed = s.hostFailed := rfl

/-! ## issue -/

@[simp] theorem issue_inCap (w : Word) (s : State) : (issue w s).inCap = s.inCap := rfl
@[simp] theorem issue_outCap (w : Word) (s : State) : (issue w s).outCap = s.outCap := rfl
@[simp] theorem issue_phase (w : Word) (s : State) : (issue w s).phase = .busy := rfl
@[simp] theorem issue_latch (w : Word) (s : State) : (issue w s).latch = w := rfl
@[simp] theorem issue_done (w : Word) (s : State) : (issue w s).done = false := rfl
@[simp] theorem issue_error (w : Word) (s : State) : (issue w s).error = false := rfl
@[simp] theorem issue_overrun (w : Word) (s : State) : (issue w s).overrun = s.overrun := rfl
@[simp] theorem issue_lenValid (w : Word) (s : State) : (issue w s).lenValid = s.lenValid := rfl
@[simp] theorem issue_trieValid (w : Word) (s : State) : (issue w s).trieValid = s.trieValid := rfl
@[simp] theorem issue_outValid (w : Word) (s : State) : (issue w s).outValid = s.outValid := rfl
@[simp] theorem issue_dictBad (w : Word) (s : State) : (issue w s).dictBad = s.dictBad := rfl
@[simp] theorem issue_errCode (w : Word) (s : State) : (issue w s).errCode = .noError := rfl
@[simp] theorem issue_errInfo (w : Word) (s : State) : (issue w s).errInfo = 0#32 := rfl
@[simp] theorem issue_irqEn (w : Word) (s : State) : (issue w s).irqEn = s.irqEn := rfl
@[simp] theorem issue_inLen (w : Word) (s : State) : (issue w s).inLen = s.inLen := rfl
@[simp] theorem issue_outLen (w : Word) (s : State) : (issue w s).outLen = s.outLen := rfl
@[simp] theorem issue_bitCount (w : Word) (s : State) : (issue w s).bitCount = s.bitCount := rfl
@[simp] theorem issue_nsym (w : Word) (s : State) : (issue w s).nsym = s.nsym := rfl
@[simp] theorem issue_arg0 (w : Word) (s : State) : (issue w s).arg0 = s.arg0 := rfl
@[simp] theorem issue_arg1 (w : Word) (s : State) : (issue w s).arg1 = s.arg1 := rfl
@[simp] theorem issue_freq (w : Word) (s : State) : (issue w s).freq = s.freq := rfl
@[simp] theorem issue_len (w : Word) (s : State) : (issue w s).len = s.len := rfl
@[simp] theorem issue_dict (w : Word) (s : State) : (issue w s).dict = s.dict := rfl
@[simp] theorem issue_trie (w : Word) (s : State) : (issue w s).trie = s.trie := rfl
@[simp] theorem issue_inBuf (w : Word) (s : State) : (issue w s).inBuf = s.inBuf := rfl
@[simp] theorem issue_outBuf (w : Word) (s : State) : (issue w s).outBuf = s.outBuf := rfl
@[simp] theorem issue_draws (w : Word) (s : State) : (issue w s).draws = s.draws + 1 := rfl
@[simp] theorem issue_delay (w : Word) (s : State) : (issue w s).delay = Config.busyDelay s.draws := rfl
@[simp] theorem issue_program (w : Word) (s : State) : (issue w s).program = s.program := rfl
@[simp] theorem issue_trace (w : Word) (s : State) : (issue w s).trace = s.trace := rfl
@[simp] theorem issue_checkFailed (w : Word) (s : State) : (issue w s).checkFailed = s.checkFailed := rfl
@[simp] theorem issue_hostFailed (w : Word) (s : State) : (issue w s).hostFailed = s.hostFailed := rfl

/-! ## writeStatus -/

@[simp] theorem writeStatus_inCap (v : Word) (s : State) : (writeStatus v s).inCap = s.inCap := rfl
@[simp] theorem writeStatus_outCap (v : Word) (s : State) : (writeStatus v s).outCap = s.outCap := rfl
@[simp] theorem writeStatus_phase (v : Word) (s : State) : (writeStatus v s).phase = s.phase := rfl
@[simp] theorem writeStatus_latch (v : Word) (s : State) : (writeStatus v s).latch = s.latch := rfl
@[simp] theorem writeStatus_done (v : Word) (s : State) : (writeStatus v s).done = (s.done && !v.getLsbD 1) := rfl
@[simp] theorem writeStatus_error (v : Word) (s : State) : (writeStatus v s).error = (s.error && !v.getLsbD 2) := rfl
@[simp] theorem writeStatus_overrun (v : Word) (s : State) :
    (writeStatus v s).overrun = (s.overrun && !v.getLsbD 3) := rfl
@[simp] theorem writeStatus_lenValid (v : Word) (s : State) : (writeStatus v s).lenValid = s.lenValid := rfl
@[simp] theorem writeStatus_trieValid (v : Word) (s : State) : (writeStatus v s).trieValid = s.trieValid := rfl
@[simp] theorem writeStatus_outValid (v : Word) (s : State) : (writeStatus v s).outValid = s.outValid := rfl
@[simp] theorem writeStatus_dictBad (v : Word) (s : State) : (writeStatus v s).dictBad = s.dictBad := rfl
@[simp] theorem writeStatus_errCode (v : Word) (s : State) : (writeStatus v s).errCode = s.errCode := rfl
@[simp] theorem writeStatus_errInfo (v : Word) (s : State) : (writeStatus v s).errInfo = s.errInfo := rfl
@[simp] theorem writeStatus_irqEn (v : Word) (s : State) : (writeStatus v s).irqEn = s.irqEn := rfl
@[simp] theorem writeStatus_inLen (v : Word) (s : State) : (writeStatus v s).inLen = s.inLen := rfl
@[simp] theorem writeStatus_outLen (v : Word) (s : State) : (writeStatus v s).outLen = s.outLen := rfl
@[simp] theorem writeStatus_bitCount (v : Word) (s : State) : (writeStatus v s).bitCount = s.bitCount := rfl
@[simp] theorem writeStatus_nsym (v : Word) (s : State) : (writeStatus v s).nsym = s.nsym := rfl
@[simp] theorem writeStatus_arg0 (v : Word) (s : State) : (writeStatus v s).arg0 = s.arg0 := rfl
@[simp] theorem writeStatus_arg1 (v : Word) (s : State) : (writeStatus v s).arg1 = s.arg1 := rfl
@[simp] theorem writeStatus_freq (v : Word) (s : State) : (writeStatus v s).freq = s.freq := rfl
@[simp] theorem writeStatus_len (v : Word) (s : State) : (writeStatus v s).len = s.len := rfl
@[simp] theorem writeStatus_dict (v : Word) (s : State) : (writeStatus v s).dict = s.dict := rfl
@[simp] theorem writeStatus_trie (v : Word) (s : State) : (writeStatus v s).trie = s.trie := rfl
@[simp] theorem writeStatus_inBuf (v : Word) (s : State) : (writeStatus v s).inBuf = s.inBuf := rfl
@[simp] theorem writeStatus_outBuf (v : Word) (s : State) : (writeStatus v s).outBuf = s.outBuf := rfl
@[simp] theorem writeStatus_draws (v : Word) (s : State) : (writeStatus v s).draws = s.draws := rfl
@[simp] theorem writeStatus_delay (v : Word) (s : State) : (writeStatus v s).delay = s.delay := rfl
@[simp] theorem writeStatus_program (v : Word) (s : State) : (writeStatus v s).program = s.program := rfl
@[simp] theorem writeStatus_trace (v : Word) (s : State) : (writeStatus v s).trace = s.trace := rfl
@[simp] theorem writeStatus_checkFailed (v : Word) (s : State) : (writeStatus v s).checkFailed = s.checkFailed := rfl
@[simp] theorem writeStatus_hostFailed (v : Word) (s : State) : (writeStatus v s).hostFailed = s.hostFailed := rfl

/-! ## popStmt -/

@[simp] theorem popStmt_inCap (s : State) : (popStmt s).inCap = s.inCap := rfl
@[simp] theorem popStmt_outCap (s : State) : (popStmt s).outCap = s.outCap := rfl
@[simp] theorem popStmt_phase (s : State) : (popStmt s).phase = s.phase := rfl
@[simp] theorem popStmt_latch (s : State) : (popStmt s).latch = s.latch := rfl
@[simp] theorem popStmt_done (s : State) : (popStmt s).done = s.done := rfl
@[simp] theorem popStmt_error (s : State) : (popStmt s).error = s.error := rfl
@[simp] theorem popStmt_overrun (s : State) : (popStmt s).overrun = s.overrun := rfl
@[simp] theorem popStmt_lenValid (s : State) : (popStmt s).lenValid = s.lenValid := rfl
@[simp] theorem popStmt_trieValid (s : State) : (popStmt s).trieValid = s.trieValid := rfl
@[simp] theorem popStmt_outValid (s : State) : (popStmt s).outValid = s.outValid := rfl
@[simp] theorem popStmt_dictBad (s : State) : (popStmt s).dictBad = s.dictBad := rfl
@[simp] theorem popStmt_errCode (s : State) : (popStmt s).errCode = s.errCode := rfl
@[simp] theorem popStmt_errInfo (s : State) : (popStmt s).errInfo = s.errInfo := rfl
@[simp] theorem popStmt_irqEn (s : State) : (popStmt s).irqEn = s.irqEn := rfl
@[simp] theorem popStmt_inLen (s : State) : (popStmt s).inLen = s.inLen := rfl
@[simp] theorem popStmt_outLen (s : State) : (popStmt s).outLen = s.outLen := rfl
@[simp] theorem popStmt_bitCount (s : State) : (popStmt s).bitCount = s.bitCount := rfl
@[simp] theorem popStmt_nsym (s : State) : (popStmt s).nsym = s.nsym := rfl
@[simp] theorem popStmt_arg0 (s : State) : (popStmt s).arg0 = s.arg0 := rfl
@[simp] theorem popStmt_arg1 (s : State) : (popStmt s).arg1 = s.arg1 := rfl
@[simp] theorem popStmt_freq (s : State) : (popStmt s).freq = s.freq := rfl
@[simp] theorem popStmt_len (s : State) : (popStmt s).len = s.len := rfl
@[simp] theorem popStmt_dict (s : State) : (popStmt s).dict = s.dict := rfl
@[simp] theorem popStmt_trie (s : State) : (popStmt s).trie = s.trie := rfl
@[simp] theorem popStmt_inBuf (s : State) : (popStmt s).inBuf = s.inBuf := rfl
@[simp] theorem popStmt_outBuf (s : State) : (popStmt s).outBuf = s.outBuf := rfl
@[simp] theorem popStmt_draws (s : State) : (popStmt s).draws = s.draws := rfl
@[simp] theorem popStmt_delay (s : State) : (popStmt s).delay = s.delay := rfl
@[simp] theorem popStmt_program (s : State) : (popStmt s).program = s.program.tail := rfl
@[simp] theorem popStmt_trace (s : State) : (popStmt s).trace = s.trace := rfl
@[simp] theorem popStmt_checkFailed (s : State) : (popStmt s).checkFailed = s.checkFailed := rfl
@[simp] theorem popStmt_hostFailed (s : State) : (popStmt s).hostFailed = s.hostFailed := rfl

/-! ## logTxn -/

@[simp] theorem logTxn_inCap (t : BusTxn) (s : State) : (logTxn t s).inCap = s.inCap := rfl
@[simp] theorem logTxn_outCap (t : BusTxn) (s : State) : (logTxn t s).outCap = s.outCap := rfl
@[simp] theorem logTxn_phase (t : BusTxn) (s : State) : (logTxn t s).phase = s.phase := rfl
@[simp] theorem logTxn_latch (t : BusTxn) (s : State) : (logTxn t s).latch = s.latch := rfl
@[simp] theorem logTxn_done (t : BusTxn) (s : State) : (logTxn t s).done = s.done := rfl
@[simp] theorem logTxn_error (t : BusTxn) (s : State) : (logTxn t s).error = s.error := rfl
@[simp] theorem logTxn_overrun (t : BusTxn) (s : State) : (logTxn t s).overrun = s.overrun := rfl
@[simp] theorem logTxn_lenValid (t : BusTxn) (s : State) : (logTxn t s).lenValid = s.lenValid := rfl
@[simp] theorem logTxn_trieValid (t : BusTxn) (s : State) : (logTxn t s).trieValid = s.trieValid := rfl
@[simp] theorem logTxn_outValid (t : BusTxn) (s : State) : (logTxn t s).outValid = s.outValid := rfl
@[simp] theorem logTxn_dictBad (t : BusTxn) (s : State) : (logTxn t s).dictBad = s.dictBad := rfl
@[simp] theorem logTxn_errCode (t : BusTxn) (s : State) : (logTxn t s).errCode = s.errCode := rfl
@[simp] theorem logTxn_errInfo (t : BusTxn) (s : State) : (logTxn t s).errInfo = s.errInfo := rfl
@[simp] theorem logTxn_irqEn (t : BusTxn) (s : State) : (logTxn t s).irqEn = s.irqEn := rfl
@[simp] theorem logTxn_inLen (t : BusTxn) (s : State) : (logTxn t s).inLen = s.inLen := rfl
@[simp] theorem logTxn_outLen (t : BusTxn) (s : State) : (logTxn t s).outLen = s.outLen := rfl
@[simp] theorem logTxn_bitCount (t : BusTxn) (s : State) : (logTxn t s).bitCount = s.bitCount := rfl
@[simp] theorem logTxn_nsym (t : BusTxn) (s : State) : (logTxn t s).nsym = s.nsym := rfl
@[simp] theorem logTxn_arg0 (t : BusTxn) (s : State) : (logTxn t s).arg0 = s.arg0 := rfl
@[simp] theorem logTxn_arg1 (t : BusTxn) (s : State) : (logTxn t s).arg1 = s.arg1 := rfl
@[simp] theorem logTxn_freq (t : BusTxn) (s : State) : (logTxn t s).freq = s.freq := rfl
@[simp] theorem logTxn_len (t : BusTxn) (s : State) : (logTxn t s).len = s.len := rfl
@[simp] theorem logTxn_dict (t : BusTxn) (s : State) : (logTxn t s).dict = s.dict := rfl
@[simp] theorem logTxn_trie (t : BusTxn) (s : State) : (logTxn t s).trie = s.trie := rfl
@[simp] theorem logTxn_inBuf (t : BusTxn) (s : State) : (logTxn t s).inBuf = s.inBuf := rfl
@[simp] theorem logTxn_outBuf (t : BusTxn) (s : State) : (logTxn t s).outBuf = s.outBuf := rfl
@[simp] theorem logTxn_draws (t : BusTxn) (s : State) : (logTxn t s).draws = s.draws := rfl
@[simp] theorem logTxn_delay (t : BusTxn) (s : State) : (logTxn t s).delay = s.delay := rfl
@[simp] theorem logTxn_program (t : BusTxn) (s : State) : (logTxn t s).program = s.program := rfl
@[simp] theorem logTxn_trace (t : BusTxn) (s : State) : (logTxn t s).trace = s.trace ++ [t] := rfl
@[simp] theorem logTxn_checkFailed (t : BusTxn) (s : State) : (logTxn t s).checkFailed = s.checkFailed := rfl
@[simp] theorem logTxn_hostFailed (t : BusTxn) (s : State) : (logTxn t s).hostFailed = s.hostFailed := rfl

/-! ## failOutput -/

@[simp] theorem failOutput_inCap (c : ErrCode) (i : Word) (s : State) : ((failOutput c i s).1).inCap = s.inCap := rfl
@[simp] theorem failOutput_outCap (c : ErrCode) (i : Word) (s : State) :
    ((failOutput c i s).1).outCap = s.outCap := rfl
@[simp] theorem failOutput_phase (c : ErrCode) (i : Word) (s : State) : ((failOutput c i s).1).phase = s.phase := rfl
@[simp] theorem failOutput_latch (c : ErrCode) (i : Word) (s : State) : ((failOutput c i s).1).latch = s.latch := rfl
@[simp] theorem failOutput_done (c : ErrCode) (i : Word) (s : State) : ((failOutput c i s).1).done = s.done := rfl
@[simp] theorem failOutput_error (c : ErrCode) (i : Word) (s : State) : ((failOutput c i s).1).error = s.error := rfl
@[simp] theorem failOutput_overrun (c : ErrCode) (i : Word) (s : State) :
    ((failOutput c i s).1).overrun = s.overrun := rfl
@[simp] theorem failOutput_lenValid (c : ErrCode) (i : Word) (s : State) :
    ((failOutput c i s).1).lenValid = s.lenValid := rfl
@[simp] theorem failOutput_trieValid (c : ErrCode) (i : Word) (s : State) :
    ((failOutput c i s).1).trieValid = s.trieValid := rfl
@[simp] theorem failOutput_outValid (c : ErrCode) (i : Word) (s : State) :
    ((failOutput c i s).1).outValid = false := rfl
@[simp] theorem failOutput_dictBad (c : ErrCode) (i : Word) (s : State) :
    ((failOutput c i s).1).dictBad = s.dictBad := rfl
@[simp] theorem failOutput_errCode (c : ErrCode) (i : Word) (s : State) :
    ((failOutput c i s).1).errCode = s.errCode := rfl
@[simp] theorem failOutput_errInfo (c : ErrCode) (i : Word) (s : State) :
    ((failOutput c i s).1).errInfo = s.errInfo := rfl
@[simp] theorem failOutput_irqEn (c : ErrCode) (i : Word) (s : State) : ((failOutput c i s).1).irqEn = s.irqEn := rfl
@[simp] theorem failOutput_inLen (c : ErrCode) (i : Word) (s : State) : ((failOutput c i s).1).inLen = s.inLen := rfl
@[simp] theorem failOutput_outLen (c : ErrCode) (i : Word) (s : State) : ((failOutput c i s).1).outLen = 0#32 := rfl
@[simp] theorem failOutput_bitCount (c : ErrCode) (i : Word) (s : State) :
    ((failOutput c i s).1).bitCount = 0#32 := rfl
@[simp] theorem failOutput_nsym (c : ErrCode) (i : Word) (s : State) : ((failOutput c i s).1).nsym = s.nsym := rfl
@[simp] theorem failOutput_arg0 (c : ErrCode) (i : Word) (s : State) : ((failOutput c i s).1).arg0 = s.arg0 := rfl
@[simp] theorem failOutput_arg1 (c : ErrCode) (i : Word) (s : State) : ((failOutput c i s).1).arg1 = s.arg1 := rfl
@[simp] theorem failOutput_freq (c : ErrCode) (i : Word) (s : State) : ((failOutput c i s).1).freq = s.freq := rfl
@[simp] theorem failOutput_len (c : ErrCode) (i : Word) (s : State) : ((failOutput c i s).1).len = s.len := rfl
@[simp] theorem failOutput_dict (c : ErrCode) (i : Word) (s : State) : ((failOutput c i s).1).dict = s.dict := rfl
@[simp] theorem failOutput_trie (c : ErrCode) (i : Word) (s : State) : ((failOutput c i s).1).trie = s.trie := rfl
@[simp] theorem failOutput_inBuf (c : ErrCode) (i : Word) (s : State) : ((failOutput c i s).1).inBuf = s.inBuf := rfl
@[simp] theorem failOutput_outBuf (c : ErrCode) (i : Word) (s : State) :
    ((failOutput c i s).1).outBuf = Buffer.any s.draws := rfl
@[simp] theorem failOutput_draws (c : ErrCode) (i : Word) (s : State) :
    ((failOutput c i s).1).draws = s.draws + 1 := rfl
@[simp] theorem failOutput_delay (c : ErrCode) (i : Word) (s : State) : ((failOutput c i s).1).delay = s.delay := rfl
@[simp] theorem failOutput_program (c : ErrCode) (i : Word) (s : State) :
    ((failOutput c i s).1).program = s.program := rfl
@[simp] theorem failOutput_trace (c : ErrCode) (i : Word) (s : State) : ((failOutput c i s).1).trace = s.trace := rfl
@[simp] theorem failOutput_checkFailed (c : ErrCode) (i : Word) (s : State) :
    ((failOutput c i s).1).checkFailed = s.checkFailed := rfl
@[simp] theorem failOutput_hostFailed (c : ErrCode) (i : Word) (s : State) :
    ((failOutput c i s).1).hostFailed = s.hostFailed := rfl

/-! ## countInput -/

@[simp] theorem countInput_inCap (s : State) : (countInput s).inCap = s.inCap := rfl
@[simp] theorem countInput_outCap (s : State) : (countInput s).outCap = s.outCap := rfl
@[simp] theorem countInput_phase (s : State) : (countInput s).phase = s.phase := rfl
@[simp] theorem countInput_latch (s : State) : (countInput s).latch = s.latch := rfl
@[simp] theorem countInput_done (s : State) : (countInput s).done = s.done := rfl
@[simp] theorem countInput_error (s : State) : (countInput s).error = s.error := rfl
@[simp] theorem countInput_overrun (s : State) : (countInput s).overrun = s.overrun := rfl
@[simp] theorem countInput_lenValid (s : State) : (countInput s).lenValid = false := rfl
@[simp] theorem countInput_trieValid (s : State) : (countInput s).trieValid = s.trieValid := rfl
@[simp] theorem countInput_outValid (s : State) : (countInput s).outValid = s.outValid := rfl
@[simp] theorem countInput_dictBad (s : State) : (countInput s).dictBad = s.dictBad := rfl
@[simp] theorem countInput_errCode (s : State) : (countInput s).errCode = s.errCode := rfl
@[simp] theorem countInput_errInfo (s : State) : (countInput s).errInfo = s.errInfo := rfl
@[simp] theorem countInput_irqEn (s : State) : (countInput s).irqEn = s.irqEn := rfl
@[simp] theorem countInput_inLen (s : State) : (countInput s).inLen = s.inLen := rfl
@[simp] theorem countInput_outLen (s : State) : (countInput s).outLen = s.outLen := rfl
@[simp] theorem countInput_bitCount (s : State) : (countInput s).bitCount = s.bitCount := rfl
@[simp] theorem countInput_nsym (s : State) : (countInput s).nsym = s.nsym := rfl
@[simp] theorem countInput_arg0 (s : State) : (countInput s).arg0 = s.arg0 := rfl
@[simp] theorem countInput_arg1 (s : State) : (countInput s).arg1 = s.arg1 := rfl
@[simp] theorem countInput_freq (s : State) :
    (countInput s).freq = tableOf (fun sym => BitVec.ofNat 32 (freqCount (inputBytes s) sym)) := rfl
@[simp] theorem countInput_len (s : State) : (countInput s).len = s.len := rfl
@[simp] theorem countInput_dict (s : State) : (countInput s).dict = s.dict := rfl
@[simp] theorem countInput_trie (s : State) : (countInput s).trie = s.trie := rfl
@[simp] theorem countInput_inBuf (s : State) : (countInput s).inBuf = s.inBuf := rfl
@[simp] theorem countInput_outBuf (s : State) : (countInput s).outBuf = s.outBuf := rfl
@[simp] theorem countInput_draws (s : State) : (countInput s).draws = s.draws := rfl
@[simp] theorem countInput_delay (s : State) : (countInput s).delay = s.delay := rfl
@[simp] theorem countInput_program (s : State) : (countInput s).program = s.program := rfl
@[simp] theorem countInput_trace (s : State) : (countInput s).trace = s.trace := rfl
@[simp] theorem countInput_checkFailed (s : State) : (countInput s).checkFailed = s.checkFailed := rfl
@[simp] theorem countInput_hostFailed (s : State) : (countInput s).hostFailed = s.hostFailed := rfl

/-! ## storeCanonical -/

@[simp] theorem storeCanonical_inCap (s : State) : (storeCanonical s).inCap = s.inCap := rfl
@[simp] theorem storeCanonical_outCap (s : State) : (storeCanonical s).outCap = s.outCap := rfl
@[simp] theorem storeCanonical_phase (s : State) : (storeCanonical s).phase = s.phase := rfl
@[simp] theorem storeCanonical_latch (s : State) : (storeCanonical s).latch = s.latch := rfl
@[simp] theorem storeCanonical_done (s : State) : (storeCanonical s).done = s.done := rfl
@[simp] theorem storeCanonical_error (s : State) : (storeCanonical s).error = s.error := rfl
@[simp] theorem storeCanonical_overrun (s : State) : (storeCanonical s).overrun = s.overrun := rfl
@[simp] theorem storeCanonical_lenValid (s : State) : (storeCanonical s).lenValid = s.lenValid := rfl
@[simp] theorem storeCanonical_trieValid (s : State) : (storeCanonical s).trieValid = false := rfl
@[simp] theorem storeCanonical_outValid (s : State) : (storeCanonical s).outValid = s.outValid := rfl
@[simp] theorem storeCanonical_dictBad (s : State) : (storeCanonical s).dictBad = false := rfl
@[simp] theorem storeCanonical_errCode (s : State) : (storeCanonical s).errCode = s.errCode := rfl
@[simp] theorem storeCanonical_errInfo (s : State) : (storeCanonical s).errInfo = s.errInfo := rfl
@[simp] theorem storeCanonical_irqEn (s : State) : (storeCanonical s).irqEn = s.irqEn := rfl
@[simp] theorem storeCanonical_inLen (s : State) : (storeCanonical s).inLen = s.inLen := rfl
@[simp] theorem storeCanonical_outLen (s : State) : (storeCanonical s).outLen = s.outLen := rfl
@[simp] theorem storeCanonical_bitCount (s : State) : (storeCanonical s).bitCount = s.bitCount := rfl
@[simp] theorem storeCanonical_nsym (s : State) :
    (storeCanonical s).nsym = BitVec.ofNat 9 (numPresent (canonical s.len)) := rfl
@[simp] theorem storeCanonical_arg0 (s : State) : (storeCanonical s).arg0 = s.arg0 := rfl
@[simp] theorem storeCanonical_arg1 (s : State) : (storeCanonical s).arg1 = s.arg1 := rfl
@[simp] theorem storeCanonical_freq (s : State) : (storeCanonical s).freq = s.freq := rfl
@[simp] theorem storeCanonical_len (s : State) : (storeCanonical s).len = s.len := rfl
@[simp] theorem storeCanonical_dict (s : State) : (storeCanonical s).dict = canonical s.len := rfl
@[simp] theorem storeCanonical_trie (s : State) : (storeCanonical s).trie = s.trie := rfl
@[simp] theorem storeCanonical_inBuf (s : State) : (storeCanonical s).inBuf = s.inBuf := rfl
@[simp] theorem storeCanonical_outBuf (s : State) : (storeCanonical s).outBuf = s.outBuf := rfl
@[simp] theorem storeCanonical_draws (s : State) : (storeCanonical s).draws = s.draws := rfl
@[simp] theorem storeCanonical_delay (s : State) : (storeCanonical s).delay = s.delay := rfl
@[simp] theorem storeCanonical_program (s : State) : (storeCanonical s).program = s.program := rfl
@[simp] theorem storeCanonical_trace (s : State) : (storeCanonical s).trace = s.trace := rfl
@[simp] theorem storeCanonical_checkFailed (s : State) : (storeCanonical s).checkFailed = s.checkFailed := rfl
@[simp] theorem storeCanonical_hostFailed (s : State) : (storeCanonical s).hostFailed = s.hostFailed := rfl

/-! ## storeStream -/

@[simp] theorem storeStream_inCap (bits : List Bool) (s : State) : (storeStream bits s).inCap = s.inCap := rfl
@[simp] theorem storeStream_outCap (bits : List Bool) (s : State) : (storeStream bits s).outCap = s.outCap := rfl
@[simp] theorem storeStream_phase (bits : List Bool) (s : State) : (storeStream bits s).phase = s.phase := rfl
@[simp] theorem storeStream_latch (bits : List Bool) (s : State) : (storeStream bits s).latch = s.latch := rfl
@[simp] theorem storeStream_done (bits : List Bool) (s : State) : (storeStream bits s).done = s.done := rfl
@[simp] theorem storeStream_error (bits : List Bool) (s : State) : (storeStream bits s).error = s.error := rfl
@[simp] theorem storeStream_overrun (bits : List Bool) (s : State) : (storeStream bits s).overrun = s.overrun := rfl
@[simp] theorem storeStream_lenValid (bits : List Bool) (s : State) :
    (storeStream bits s).lenValid = s.lenValid := rfl
@[simp] theorem storeStream_trieValid (bits : List Bool) (s : State) :
    (storeStream bits s).trieValid = s.trieValid := rfl
@[simp] theorem storeStream_outValid (bits : List Bool) (s : State) : (storeStream bits s).outValid = true := rfl
@[simp] theorem storeStream_dictBad (bits : List Bool) (s : State) : (storeStream bits s).dictBad = s.dictBad := rfl
@[simp] theorem storeStream_errCode (bits : List Bool) (s : State) : (storeStream bits s).errCode = s.errCode := rfl
@[simp] theorem storeStream_errInfo (bits : List Bool) (s : State) : (storeStream bits s).errInfo = s.errInfo := rfl
@[simp] theorem storeStream_irqEn (bits : List Bool) (s : State) : (storeStream bits s).irqEn = s.irqEn := rfl
@[simp] theorem storeStream_inLen (bits : List Bool) (s : State) : (storeStream bits s).inLen = s.inLen := rfl
@[simp] theorem storeStream_outLen (bits : List Bool) (s : State) :
    (storeStream bits s).outLen = BitVec.ofNat 32 (Config.hdrBytes + packedLength bits.length) := rfl
@[simp] theorem storeStream_bitCount (bits : List Bool) (s : State) :
    (storeStream bits s).bitCount = BitVec.ofNat 32 bits.length := rfl
@[simp] theorem storeStream_nsym (bits : List Bool) (s : State) : (storeStream bits s).nsym = s.nsym := rfl
@[simp] theorem storeStream_arg0 (bits : List Bool) (s : State) : (storeStream bits s).arg0 = s.arg0 := rfl
@[simp] theorem storeStream_arg1 (bits : List Bool) (s : State) : (storeStream bits s).arg1 = s.arg1 := rfl
@[simp] theorem storeStream_freq (bits : List Bool) (s : State) : (storeStream bits s).freq = s.freq := rfl
@[simp] theorem storeStream_len (bits : List Bool) (s : State) : (storeStream bits s).len = s.len := rfl
@[simp] theorem storeStream_dict (bits : List Bool) (s : State) : (storeStream bits s).dict = s.dict := rfl
@[simp] theorem storeStream_trie (bits : List Bool) (s : State) : (storeStream bits s).trie = s.trie := rfl
@[simp] theorem storeStream_inBuf (bits : List Bool) (s : State) : (storeStream bits s).inBuf = s.inBuf := rfl
@[simp] theorem storeStream_outBuf (bits : List Bool) (s : State) :
    (storeStream bits s).outBuf = s.outBuf.writeList 0 (streamOf bits) := rfl
@[simp] theorem storeStream_draws (bits : List Bool) (s : State) : (storeStream bits s).draws = s.draws := rfl
@[simp] theorem storeStream_delay (bits : List Bool) (s : State) : (storeStream bits s).delay = s.delay := rfl
@[simp] theorem storeStream_program (bits : List Bool) (s : State) : (storeStream bits s).program = s.program := rfl
@[simp] theorem storeStream_trace (bits : List Bool) (s : State) : (storeStream bits s).trace = s.trace := rfl
@[simp] theorem storeStream_checkFailed (bits : List Bool) (s : State) :
    (storeStream bits s).checkFailed = s.checkFailed := rfl
@[simp] theorem storeStream_hostFailed (bits : List Bool) (s : State) :
    (storeStream bits s).hostFailed = s.hostFailed := rfl

/-! ## storeDecoded -/

@[simp] theorem storeDecoded_inCap (n : Nat) (out : List Byte) (s : State) :
    (storeDecoded n out s).inCap = s.inCap := rfl
@[simp] theorem storeDecoded_outCap (n : Nat) (out : List Byte) (s : State) :
    (storeDecoded n out s).outCap = s.outCap := rfl
@[simp] theorem storeDecoded_phase (n : Nat) (out : List Byte) (s : State) :
    (storeDecoded n out s).phase = s.phase := rfl
@[simp] theorem storeDecoded_latch (n : Nat) (out : List Byte) (s : State) :
    (storeDecoded n out s).latch = s.latch := rfl
@[simp] theorem storeDecoded_done (n : Nat) (out : List Byte) (s : State) :
    (storeDecoded n out s).done = s.done := rfl
@[simp] theorem storeDecoded_error (n : Nat) (out : List Byte) (s : State) :
    (storeDecoded n out s).error = s.error := rfl
@[simp] theorem storeDecoded_overrun (n : Nat) (out : List Byte) (s : State) :
    (storeDecoded n out s).overrun = s.overrun := rfl
@[simp] theorem storeDecoded_lenValid (n : Nat) (out : List Byte) (s : State) :
    (storeDecoded n out s).lenValid = s.lenValid := rfl
@[simp] theorem storeDecoded_trieValid (n : Nat) (out : List Byte) (s : State) :
    (storeDecoded n out s).trieValid = s.trieValid := rfl
@[simp] theorem storeDecoded_outValid (n : Nat) (out : List Byte) (s : State) :
    (storeDecoded n out s).outValid = true := rfl
@[simp] theorem storeDecoded_dictBad (n : Nat) (out : List Byte) (s : State) :
    (storeDecoded n out s).dictBad = s.dictBad := rfl
@[simp] theorem storeDecoded_errCode (n : Nat) (out : List Byte) (s : State) :
    (storeDecoded n out s).errCode = s.errCode := rfl
@[simp] theorem storeDecoded_errInfo (n : Nat) (out : List Byte) (s : State) :
    (storeDecoded n out s).errInfo = s.errInfo := rfl
@[simp] theorem storeDecoded_irqEn (n : Nat) (out : List Byte) (s : State) :
    (storeDecoded n out s).irqEn = s.irqEn := rfl
@[simp] theorem storeDecoded_inLen (n : Nat) (out : List Byte) (s : State) :
    (storeDecoded n out s).inLen = s.inLen := rfl
@[simp] theorem storeDecoded_outLen (n : Nat) (out : List Byte) (s : State) :
    (storeDecoded n out s).outLen = BitVec.ofNat 32 out.length := rfl
@[simp] theorem storeDecoded_bitCount (n : Nat) (out : List Byte) (s : State) :
    (storeDecoded n out s).bitCount = BitVec.ofNat 32 n := rfl
@[simp] theorem storeDecoded_nsym (n : Nat) (out : List Byte) (s : State) :
    (storeDecoded n out s).nsym = s.nsym := rfl
@[simp] theorem storeDecoded_arg0 (n : Nat) (out : List Byte) (s : State) :
    (storeDecoded n out s).arg0 = s.arg0 := rfl
@[simp] theorem storeDecoded_arg1 (n : Nat) (out : List Byte) (s : State) :
    (storeDecoded n out s).arg1 = s.arg1 := rfl
@[simp] theorem storeDecoded_freq (n : Nat) (out : List Byte) (s : State) :
    (storeDecoded n out s).freq = s.freq := rfl
@[simp] theorem storeDecoded_len (n : Nat) (out : List Byte) (s : State) : (storeDecoded n out s).len = s.len := rfl
@[simp] theorem storeDecoded_dict (n : Nat) (out : List Byte) (s : State) :
    (storeDecoded n out s).dict = s.dict := rfl
@[simp] theorem storeDecoded_trie (n : Nat) (out : List Byte) (s : State) :
    (storeDecoded n out s).trie = s.trie := rfl
@[simp] theorem storeDecoded_inBuf (n : Nat) (out : List Byte) (s : State) :
    (storeDecoded n out s).inBuf = s.inBuf := rfl
@[simp] theorem storeDecoded_outBuf (n : Nat) (out : List Byte) (s : State) :
    (storeDecoded n out s).outBuf = s.outBuf.writeList 0 out := rfl
@[simp] theorem storeDecoded_draws (n : Nat) (out : List Byte) (s : State) :
    (storeDecoded n out s).draws = s.draws := rfl
@[simp] theorem storeDecoded_delay (n : Nat) (out : List Byte) (s : State) :
    (storeDecoded n out s).delay = s.delay := rfl
@[simp] theorem storeDecoded_program (n : Nat) (out : List Byte) (s : State) :
    (storeDecoded n out s).program = s.program := rfl
@[simp] theorem storeDecoded_trace (n : Nat) (out : List Byte) (s : State) :
    (storeDecoded n out s).trace = s.trace := rfl
@[simp] theorem storeDecoded_checkFailed (n : Nat) (out : List Byte) (s : State) :
    (storeDecoded n out s).checkFailed = s.checkFailed := rfl
@[simp] theorem storeDecoded_hostFailed (n : Nat) (out : List Byte) (s : State) :
    (storeDecoded n out s).hostFailed = s.hostFailed := rfl

/-! ## complete_finish -/

@[simp] theorem complete_finish_inCap (s : State) : (complete (finish s)).inCap = s.inCap := rfl
@[simp] theorem complete_finish_outCap (s : State) : (complete (finish s)).outCap = s.outCap := rfl
@[simp] theorem complete_finish_phase (s : State) : (complete (finish s)).phase = .idle := rfl
@[simp] theorem complete_finish_latch (s : State) : (complete (finish s)).latch = s.latch := rfl
@[simp] theorem complete_finish_done (s : State) : (complete (finish s)).done = true := rfl
@[simp] theorem complete_finish_error (s : State) : (complete (finish s)).error = s.error := rfl
@[simp] theorem complete_finish_overrun (s : State) : (complete (finish s)).overrun = s.overrun := rfl
@[simp] theorem complete_finish_lenValid (s : State) : (complete (finish s)).lenValid = s.lenValid := rfl
@[simp] theorem complete_finish_trieValid (s : State) : (complete (finish s)).trieValid = s.trieValid := rfl
@[simp] theorem complete_finish_outValid (s : State) : (complete (finish s)).outValid = s.outValid := rfl
@[simp] theorem complete_finish_dictBad (s : State) : (complete (finish s)).dictBad = s.dictBad := rfl
@[simp] theorem complete_finish_errCode (s : State) : (complete (finish s)).errCode = s.errCode := rfl
@[simp] theorem complete_finish_errInfo (s : State) : (complete (finish s)).errInfo = s.errInfo := rfl
@[simp] theorem complete_finish_irqEn (s : State) : (complete (finish s)).irqEn = s.irqEn := rfl
@[simp] theorem complete_finish_inLen (s : State) : (complete (finish s)).inLen = s.inLen := rfl
@[simp] theorem complete_finish_outLen (s : State) : (complete (finish s)).outLen = s.outLen := rfl
@[simp] theorem complete_finish_bitCount (s : State) : (complete (finish s)).bitCount = s.bitCount := rfl
@[simp] theorem complete_finish_nsym (s : State) : (complete (finish s)).nsym = s.nsym := rfl
@[simp] theorem complete_finish_arg0 (s : State) : (complete (finish s)).arg0 = s.arg0 := rfl
@[simp] theorem complete_finish_arg1 (s : State) : (complete (finish s)).arg1 = s.arg1 := rfl
@[simp] theorem complete_finish_freq (s : State) : (complete (finish s)).freq = s.freq := rfl
@[simp] theorem complete_finish_len (s : State) : (complete (finish s)).len = s.len := rfl
@[simp] theorem complete_finish_dict (s : State) : (complete (finish s)).dict = s.dict := rfl
@[simp] theorem complete_finish_trie (s : State) : (complete (finish s)).trie = s.trie := rfl
@[simp] theorem complete_finish_inBuf (s : State) : (complete (finish s)).inBuf = s.inBuf := rfl
@[simp] theorem complete_finish_outBuf (s : State) : (complete (finish s)).outBuf = s.outBuf := rfl
@[simp] theorem complete_finish_draws (s : State) : (complete (finish s)).draws = s.draws := rfl
@[simp] theorem complete_finish_delay (s : State) : (complete (finish s)).delay = s.delay := rfl
@[simp] theorem complete_finish_program (s : State) : (complete (finish s)).program = s.program := rfl
@[simp] theorem complete_finish_trace (s : State) : (complete (finish s)).trace = s.trace := rfl
@[simp] theorem complete_finish_checkFailed (s : State) : (complete (finish s)).checkFailed = s.checkFailed := rfl
@[simp] theorem complete_finish_hostFailed (s : State) : (complete (finish s)).hostFailed = s.hostFailed := rfl

/-! ## complete_raise -/

@[simp] theorem complete_raise_inCap (c : ErrCode) (i : Word) (s : State) :
    (complete (raise c i s)).inCap = s.inCap := rfl
@[simp] theorem complete_raise_outCap (c : ErrCode) (i : Word) (s : State) :
    (complete (raise c i s)).outCap = s.outCap := rfl
@[simp] theorem complete_raise_phase (c : ErrCode) (i : Word) (s : State) :
    (complete (raise c i s)).phase = .idle := rfl
@[simp] theorem complete_raise_latch (c : ErrCode) (i : Word) (s : State) :
    (complete (raise c i s)).latch = s.latch := rfl
@[simp] theorem complete_raise_done (c : ErrCode) (i : Word) (s : State) : (complete (raise c i s)).done = true := rfl
@[simp] theorem complete_raise_error (c : ErrCode) (i : Word) (s : State) :
    (complete (raise c i s)).error = true := rfl
@[simp] theorem complete_raise_overrun (c : ErrCode) (i : Word) (s : State) :
    (complete (raise c i s)).overrun = s.overrun := rfl
@[simp] theorem complete_raise_lenValid (c : ErrCode) (i : Word) (s : State) :
    (complete (raise c i s)).lenValid = s.lenValid := rfl
@[simp] theorem complete_raise_trieValid (c : ErrCode) (i : Word) (s : State) :
    (complete (raise c i s)).trieValid = s.trieValid := rfl
@[simp] theorem complete_raise_outValid (c : ErrCode) (i : Word) (s : State) :
    (complete (raise c i s)).outValid = s.outValid := rfl
@[simp] theorem complete_raise_dictBad (c : ErrCode) (i : Word) (s : State) :
    (complete (raise c i s)).dictBad = s.dictBad := rfl
@[simp] theorem complete_raise_errCode (c : ErrCode) (i : Word) (s : State) :
    (complete (raise c i s)).errCode = c := rfl
@[simp] theorem complete_raise_errInfo (c : ErrCode) (i : Word) (s : State) :
    (complete (raise c i s)).errInfo = i := rfl
@[simp] theorem complete_raise_irqEn (c : ErrCode) (i : Word) (s : State) :
    (complete (raise c i s)).irqEn = s.irqEn := rfl
@[simp] theorem complete_raise_inLen (c : ErrCode) (i : Word) (s : State) :
    (complete (raise c i s)).inLen = s.inLen := rfl
@[simp] theorem complete_raise_outLen (c : ErrCode) (i : Word) (s : State) :
    (complete (raise c i s)).outLen = s.outLen := rfl
@[simp] theorem complete_raise_bitCount (c : ErrCode) (i : Word) (s : State) :
    (complete (raise c i s)).bitCount = s.bitCount := rfl
@[simp] theorem complete_raise_nsym (c : ErrCode) (i : Word) (s : State) :
    (complete (raise c i s)).nsym = s.nsym := rfl
@[simp] theorem complete_raise_arg0 (c : ErrCode) (i : Word) (s : State) :
    (complete (raise c i s)).arg0 = s.arg0 := rfl
@[simp] theorem complete_raise_arg1 (c : ErrCode) (i : Word) (s : State) :
    (complete (raise c i s)).arg1 = s.arg1 := rfl
@[simp] theorem complete_raise_freq (c : ErrCode) (i : Word) (s : State) :
    (complete (raise c i s)).freq = s.freq := rfl
@[simp] theorem complete_raise_len (c : ErrCode) (i : Word) (s : State) : (complete (raise c i s)).len = s.len := rfl
@[simp] theorem complete_raise_dict (c : ErrCode) (i : Word) (s : State) :
    (complete (raise c i s)).dict = s.dict := rfl
@[simp] theorem complete_raise_trie (c : ErrCode) (i : Word) (s : State) :
    (complete (raise c i s)).trie = s.trie := rfl
@[simp] theorem complete_raise_inBuf (c : ErrCode) (i : Word) (s : State) :
    (complete (raise c i s)).inBuf = s.inBuf := rfl
@[simp] theorem complete_raise_outBuf (c : ErrCode) (i : Word) (s : State) :
    (complete (raise c i s)).outBuf = s.outBuf := rfl
@[simp] theorem complete_raise_draws (c : ErrCode) (i : Word) (s : State) :
    (complete (raise c i s)).draws = s.draws := rfl
@[simp] theorem complete_raise_delay (c : ErrCode) (i : Word) (s : State) :
    (complete (raise c i s)).delay = s.delay := rfl
@[simp] theorem complete_raise_program (c : ErrCode) (i : Word) (s : State) :
    (complete (raise c i s)).program = s.program := rfl
@[simp] theorem complete_raise_trace (c : ErrCode) (i : Word) (s : State) :
    (complete (raise c i s)).trace = s.trace := rfl
@[simp] theorem complete_raise_checkFailed (c : ErrCode) (i : Word) (s : State) :
    (complete (raise c i s)).checkFailed = s.checkFailed := rfl
@[simp] theorem complete_raise_hostFailed (c : ErrCode) (i : Word) (s : State) :
    (complete (raise c i s)).hostFailed = s.hostFailed := rfl

@[simp] theorem failOutput_raised (c : ErrCode) (i : Word) (s : State) :
    (failOutput c i s).2 = some { code := c, info := i } := rfl

@[simp] theorem raise_fst (c : ErrCode) (i : Word) (s : State) : (raise c i s).1 = s := rfl

@[simp] theorem raise_snd (c : ErrCode) (i : Word) (s : State) :
    (raise c i s).2 = some { code := c, info := i } := rfl

@[simp] theorem finish_fst (s : State) : (finish s).1 = s := rfl

@[simp] theorem finish_snd (s : State) : (finish s).2 = none := rfl

/-- Completion with a success. -/
theorem complete_of_none (r : BodyResult) (h : r.2 = none) : complete r = { r.1 with phase := .idle, done := true } := by
  unfold complete
  rw [h]

/-- Completion with an error. -/
theorem complete_of_some (r : BodyResult) (e : ErrorRecord) (h : r.2 = some e) :
    complete r = { r.1 with
      phase := .idle, done := true, error := true, errCode := e.code, errInfo := e.info } := by
  unfold complete
  rw [h]

/-- Every completion leaves the block idle with DONE set. -/
@[simp] theorem complete_idle (r : BodyResult) : (complete r).phase = .idle ∧ (complete r).done = true := by
  unfold complete
  split <;> exact ⟨rfl, rfl⟩

@[simp] theorem completed_eq (r : BodyResult) : completed r = .next (complete r) := rfl

end Sys2Proof.Machine
end

