-- ==== Sys2Proof/Laws/Tables.lean ====
section
/-! SUPPORT. Laws of the tables: read after write, tables given by a function or by pairs, and the list of symbols. -/

namespace Sys2Proof.Machine

@[simp] theorem length_allBytes : allBytes.length = 256 := by simp [allBytes]

@[simp] theorem getElem_allBytes (i : Nat) (h : i < allBytes.length) : allBytes[i] = BitVec.ofNat 8 i := by
  simp [allBytes]

@[simp] theorem mem_allBytes (s : Byte) : s ∈ allBytes :=
  List.mem_map.2 ⟨s.toNat, List.mem_range.2 s.isLt, by simp⟩

/-- The symbols rise strictly. -/
theorem allBytes_pairwise_lt : allBytes.Pairwise (fun a b => a.toNat < b.toNat) := by
  rw [List.pairwise_iff_getElem]
  intro i j hi hj hij
  have hj' : j < 256 := by simpa using hj
  simp only [getElem_allBytes, BitVec.toNat_ofNat]
  omega

theorem allBytes_nodup : allBytes.Nodup :=
  allBytes_pairwise_lt.imp (fun h he => by simp [he] at h)

@[simp] theorem tableGet_set {α : Type} (t : Table α) (s r : Byte) (v : α) :
    tableGet (tableSet t s v) r = if s = r then v else tableGet t r := by
  simp [tableGet, tableSet, Vector.getElem_set, BitVec.toNat_inj]

@[simp] theorem tableGet_of {α : Type} (f : Byte → α) (s : Byte) : tableGet (tableOf f) s = f s := by
  simp [tableGet, tableOf]

@[simp] theorem tableGet_fill {α : Type} (v : α) (s : Byte) : tableGet (tableFill v) s = v := by
  simp [tableGet, tableFill]

/-- A table given by pairs reads as the first pair of a symbol, else the default. -/
@[simp] theorem tableGet_ofPairs {α : Type} (dflt : α) (l : List (Byte × α)) (s : Byte) :
    tableGet (tableOfPairs dflt l) s = (l.lookup s).getD dflt := by
  induction l with
  | nil => simp [tableOfPairs]
  | cons p l ih =>
    obtain ⟨k, v⟩ := p
    rw [tableOfPairs, tableGet_set, ih, List.lookup_cons]
    by_cases h : k = s
    · simp [h]
    · have hs : (s == k) = false := by simpa using fun e => h e.symm
      simp [h, hs]

/-- Two tables that agree at every symbol are equal. -/
theorem table_ext {α : Type} {t u : Table α} (h : ∀ s, tableGet t s = tableGet u s) : t = u := by
  apply Vector.ext
  intro i hi
  have hs := h (BitVec.ofNat 8 i)
  have hm : i % 2 ^ 8 = i := Nat.mod_eq_of_lt (by omega)
  simpa only [tableGet, BitVec.toNat_ofNat, hm] using hs

/-- A table's entries in symbol order. -/
theorem table_toList {α : Type} (t : Table α) : t.toList = allBytes.map (tableGet t) := by
  apply List.ext_getElem
  · simp
  · intro i h1 h2
    have hi : i < 256 := by simpa using h1
    have hm : i % 256 = i := Nat.mod_eq_of_lt hi
    simp [tableGet, hm]

/-- The present entries counted symbol by symbol. -/
theorem numPresent_eq (d : Table Entry) : numPresent d = allBytes.countP (fun s => (tableGet d s).valid) := by
  rw [numPresent, table_toList, List.countP_map]
  rfl

theorem numPresent_le (d : Table Entry) : numPresent d ≤ 256 := by
  rw [numPresent_eq]
  exact List.countP_le_length.trans (by simp)

end Sys2Proof.Machine
end

