-- ==== Sys2Proof/Laws/Bodies.lean ====
section
/-! SUPPORT. What each command body can do: one theorem per body, listing its outcomes with their conditions in the
order its rule checks them. -/

namespace Sys2Proof.Machine

/-- The body behind each command. -/
def bodyOf : Instr → State → BodyResult
  | .nop => bodyNop
  | .softReset => bodySoftReset
  | .freqCount => bodyFreqCount
  | .buildTree => bodyBuildTree
  | .assignCodes => bodyAssignCodes
  | .buildDict => bodyBuildDict
  | .dictClear => bodyDictClear
  | .dictWrite => bodyDictWrite
  | .encode => bodyEncode
  | .buildTrie => bodyBuildTrie
  | .decode => bodyDecode

/-- Every command completes, with its body's result (40_control.md R102). -/
theorem exec_eq (i : Instr) (s : State) : exec i s = .next (complete (bodyOf i s)) := by
  cases i <;> rfl

theorem checkInLen_none {s : State} (h : s.inLen.toNat ≤ s.inCap) : checkInLen s = none := by
  unfold checkInLen
  rw [if_neg (by omega)]

theorem checkInLen_some {s : State} (h : s.inCap < s.inLen.toNat) :
    checkInLen s = some { code := .badLength, info := s.inLen } := by
  unfold checkInLen
  rw [if_pos h]

@[simp] theorem length_inputBytes (s : State) : (inputBytes s).length = s.inLen.toNat := by simp [inputBytes]

theorem bodyFreqCount_cases (s : State) :
    (s.inCap < s.inLen.toNat ∧ bodyFreqCount s = raise .badLength s.inLen s) ∨
    (s.inLen.toNat ≤ s.inCap ∧ bodyFreqCount s = finish (countInput s)) := by
  rcases Nat.lt_or_ge s.inCap s.inLen.toNat with h | h
  · exact .inl ⟨h, by simp [bodyFreqCount, checkInLen_some h]⟩
  · exact .inr ⟨h, by simp [bodyFreqCount, checkInLen_none h]⟩

theorem bodyBuildTree_cases (s : State) :
    (32 < maxLength (huffmanLengths s.freq) ∧
      bodyBuildTree s = raise .codeTooLong (BitVec.ofNat 32 (maxLength (huffmanLengths s.freq)))
        { s with len := tableFill 0#6, lenValid := false }) ∨
    (maxLength (huffmanLengths s.freq) ≤ 32 ∧
      bodyBuildTree s = finish { s with len := lengthTable (huffmanLengths s.freq), lenValid := true }) := by
  rcases Nat.lt_or_ge 32 (maxLength (huffmanLengths s.freq)) with h | h
  · exact .inl ⟨h, by simp [bodyBuildTree, Config.maxCodeLen, h]⟩
  · exact .inr ⟨h, by simp [bodyBuildTree, Config.maxCodeLen, Nat.not_lt.2 h]⟩

theorem bodyAssignCodes_cases (s : State) :
    (s.lenValid = false ∧ bodyAssignCodes s = raise .notReady 0x04#32 s) ∨
    (s.lenValid = true ∧ bodyAssignCodes s = finish (storeCanonical s)) := by
  cases h : s.lenValid
  · exact .inl ⟨rfl, by simp [bodyAssignCodes, h]⟩
  · exact .inr ⟨rfl, by simp [bodyAssignCodes, h]⟩

theorem bodyBuildDict_cases (s : State) :
    (s.inCap < s.inLen.toNat ∧ bodyBuildDict s = raise .badLength s.inLen s) ∨
    (s.inLen.toNat ≤ s.inCap ∧ 32 < maxLength (huffmanLengths (countInput s).freq) ∧
      bodyBuildDict s = raise .codeTooLong (BitVec.ofNat 32 (maxLength (huffmanLengths (countInput s).freq)))
        { countInput s with len := tableFill 0#6 }) ∨
    (s.inLen.toNat ≤ s.inCap ∧ maxLength (huffmanLengths (countInput s).freq) ≤ 32 ∧
      bodyBuildDict s = finish (storeCanonical
        { countInput s with len := lengthTable (huffmanLengths (countInput s).freq), lenValid := true })) := by
  rcases Nat.lt_or_ge s.inCap s.inLen.toNat with h | h
  · exact .inl ⟨h, by simp [bodyBuildDict, checkInLen_some h]⟩
  · rcases Nat.lt_or_ge 32 (maxLength (huffmanLengths (countInput s).freq)) with hd | hd
    · refine .inr (.inl ⟨h, hd, ?_⟩)
      unfold bodyBuildDict
      rw [checkInLen_none h]
      exact if_pos hd
    · refine .inr (.inr ⟨h, hd, ?_⟩)
      unfold bodyBuildDict
      rw [checkInLen_none h]
      exact if_neg (Nat.not_lt.2 hd)

theorem bodyDictWrite_cases (s : State) :
    (s.dictBad = true ∧ bodyDictWrite s = raise .notReady 0x07#32 s) ∨
    (s.dictBad = false ∧ malformedOperand s = true ∧
      bodyDictWrite s = raise .formatMalformed s.arg0 { s with trieValid := false, dictBad := true }) ∨
    (s.dictBad = false ∧ malformedOperand s = false ∧ ∃ t, codewordHolder s.dict (argLength s) s.arg1 = some t ∧
      bodyDictWrite s = raise .formatDuplicateCodeword (t.setWidth 32) { s with trieValid := false, dictBad := true }) ∨
    (s.dictBad = false ∧ malformedOperand s = false ∧ codewordHolder s.dict (argLength s) s.arg1 = none ∧
      (tableGet s.dict (argSymbol s)).valid = true ∧
      bodyDictWrite s = raise .formatDuplicateSymbol ((argSymbol s).setWidth 32)
        { s with trieValid := false, dictBad := true }) ∨
    (s.dictBad = false ∧ malformedOperand s = false ∧ codewordHolder s.dict (argLength s) s.arg1 = none ∧
      (tableGet s.dict (argSymbol s)).valid = false ∧
      bodyDictWrite s = finish { s with
        trieValid := false
        dict := tableSet s.dict (argSymbol s) { valid := true, len := argLength s, val := s.arg1 }
        nsym := s.nsym + 1#9 }) := by
  by_cases hb : s.dictBad = true
  · exact .inl ⟨hb, by simp [bodyDictWrite, hb]⟩
  have hb' : s.dictBad = false := by simpa using hb
  refine .inr ?_
  have hw : bodyDictWrite s = writeEntry { s with trieValid := false } := by simp [bodyDictWrite, hb']
  rw [hw]
  by_cases hm : malformedOperand s = true
  · refine .inl ⟨hb', hm, ?_⟩
    unfold writeEntry
    rw [if_pos (by simpa [malformedOperand, argReserved, argLength] using hm)]
    rfl
  have hm' : malformedOperand s = false := by simpa using hm
  cases hh : codewordHolder s.dict (argLength s) s.arg1 with
  | some t =>
    refine .inr (.inl ⟨hb', hm', t, rfl, ?_⟩)
    unfold writeEntry
    rw [if_neg (by simpa [malformedOperand, argReserved, argLength] using hm)]
    change (match codewordHolder s.dict (argLength s) s.arg1 with | some t => _ | none => _) = _
    rw [hh]
    rfl
  | none =>
    have hbody : writeEntry { s with trieValid := false } =
        if (tableGet s.dict (argSymbol s)).valid then
          raise .formatDuplicateSymbol ((argSymbol s).setWidth 32) { s with trieValid := false, dictBad := true }
        else
          finish { s with
            trieValid := false
            dict := tableSet s.dict (argSymbol s) { valid := true, len := argLength s, val := s.arg1 }
            nsym := s.nsym + 1#9 } := by
      unfold writeEntry
      rw [if_neg (by simpa [malformedOperand, argReserved, argLength] using hm)]
      change (match codewordHolder s.dict (argLength s) s.arg1 with | some t => _ | none => _) = _
      rw [hh]
      rfl
    rw [hbody]
    by_cases hv : (tableGet s.dict (argSymbol s)).valid = true
    · exact .inr (.inr (.inl ⟨hb', hm', rfl, hv, if_pos hv⟩))
    · exact .inr (.inr (.inr ⟨hb', hm', rfl, by simpa using hv, if_neg hv⟩))

theorem bodyEncode_cases (s : State) :
    (∃ c i, bodyEncode s = failOutput c i s ∧ c ≠ .noError ∧
      ((s.inCap < s.inLen.toNat ∧ c = .badLength ∧ i = s.inLen) ∨
       (s.inLen.toNat ≤ s.inCap ∧ s.dictBad = true ∧ c = .notReady ∧ i = 0x08#32) ∨
       (s.inLen.toNat ≤ s.inCap ∧ s.dictBad = false ∧ ∃ k, firstMissing s.dict 0 (inputBytes s) = some k ∧
         c = .encodeSymbolMissing ∧ i = BitVec.ofNat 32 k) ∨
       (s.inLen.toNat ≤ s.inCap ∧ s.dictBad = false ∧ firstMissing s.dict 0 (inputBytes s) = none ∧
         2 ^ 32 - 1 < (encodeBits s.dict (inputBytes s)).length ∧ c = .bitCountOverflow ∧ i = 0xFFFFFFFF#32) ∨
       (s.inLen.toNat ≤ s.inCap ∧ s.dictBad = false ∧ firstMissing s.dict 0 (inputBytes s) = none ∧
         (encodeBits s.dict (inputBytes s)).length ≤ 2 ^ 32 - 1 ∧
         s.outCap < 4 + packedLength (encodeBits s.dict (inputBytes s)).length ∧ c = .outputOverflow ∧
         i = BitVec.ofNat 32 (4 + packedLength (encodeBits s.dict (inputBytes s)).length)))) ∨
    (s.inLen.toNat ≤ s.inCap ∧ s.dictBad = false ∧ firstMissing s.dict 0 (inputBytes s) = none ∧
      (encodeBits s.dict (inputBytes s)).length ≤ 2 ^ 32 - 1 ∧
      4 + packedLength (encodeBits s.dict (inputBytes s)).length ≤ s.outCap ∧
      bodyEncode s = finish (storeStream (encodeBits s.dict (inputBytes s)) s)) := by
  rcases Nat.lt_or_ge s.inCap s.inLen.toNat with h | h
  · exact .inl ⟨.badLength, s.inLen, by simp [bodyEncode, checkInLen_some h], by decide, .inl ⟨h, rfl, rfl⟩⟩
  by_cases hb : s.dictBad = true
  · exact .inl ⟨.notReady, 0x08#32, by simp [bodyEncode, checkInLen_none h, hb], by decide,
      .inr (.inl ⟨h, hb, rfl, rfl⟩)⟩
  have hb' : s.dictBad = false := by simpa using hb
  have hin : bodyEncode s = encodeInput s := by simp [bodyEncode, checkInLen_none h, hb']
  rw [hin]
  unfold encodeInput
  cases hm : firstMissing s.dict 0 (inputBytes s) with
  | some k => exact .inl ⟨_, _, rfl, by decide, .inr (.inr (.inl ⟨h, hb', k, rfl, rfl, rfl⟩))⟩
  | none =>
    rcases Nat.lt_or_ge (2 ^ 32 - 1) (encodeBits s.dict (inputBytes s)).length with ho | ho
    · exact .inl ⟨_, _, if_pos ho, by decide, .inr (.inr (.inr (.inl ⟨h, hb', rfl, ho, rfl, rfl⟩)))⟩
    · rcases Nat.lt_or_ge s.outCap (4 + packedLength (encodeBits s.dict (inputBytes s)).length) with hc | hc
      · exact .inl ⟨_, _, (if_neg (Nat.not_lt.2 ho)).trans (if_pos hc), by decide,
          .inr (.inr (.inr (.inr ⟨h, hb', rfl, ho, hc, rfl, rfl⟩)))⟩
      · exact .inr ⟨h, hb', rfl, ho, hc, (if_neg (Nat.not_lt.2 ho)).trans (if_neg (Nat.not_lt.2 hc))⟩

theorem bodyBuildTrie_cases (s : State) :
    (s.dictBad = true ∧ bodyBuildTrie s = raise .notReady 0x09#32 s) ∨
    (s.dictBad = false ∧ ∃ sym, buildTrie s.dict = .error sym ∧
      bodyBuildTrie s = raise .decodeTreeCorrupt (sym.setWidth 32) { s with trie := Trie.empty, trieValid := false }) ∨
    (s.dictBad = false ∧ ∃ t, buildTrie s.dict = .ok t ∧
      bodyBuildTrie s = finish { s with trie := t, trieValid := true }) := by
  cases hb : s.dictBad
  · cases ht : buildTrie s.dict with
    | error sym => exact .inr (.inl ⟨rfl, sym, rfl, by simp [bodyBuildTrie, hb, ht]⟩)
    | ok t => exact .inr (.inr ⟨rfl, t, rfl, by simp [bodyBuildTrie, hb, ht]⟩)
  · exact .inl ⟨rfl, by simp [bodyBuildTrie, hb]⟩

/-- The walk never records the code of a success. -/
theorem walk_error_code {root : Trie} {bit : Nat → Bool} {cap n j : Nat} {node : Trie} {depth : Nat} {out : List Byte}
    {e : ErrorRecord} (h : walk root bit cap n j node depth out = .error e) :
    e.code = .invalidCode ∨ e.code = .outputOverflow := by
  induction n generalizing j node depth out with
  | zero => simp [walk] at h
  | succ n ih =>
    rw [walk] at h
    split at h
    · cases h
      exact .inl rfl
    · split at h
      · cases h
        exact .inr rfl
      · exact ih h
    · exact ih h

/-- The symbols a walk emits fit the capacity. -/
theorem walk_fits {root : Trie} {bit : Nat → Bool} {cap n j : Nat} {node : Trie} {depth : Nat} {out : List Byte}
    {r : Nat × List Byte} (hout : out.length ≤ cap) (h : walk root bit cap n j node depth out = .ok r) :
    r.2.length ≤ cap := by
  induction n generalizing j node depth out with
  | zero =>
    simp only [walk, Except.ok.injEq] at h
    subst h
    exact hout
  | succ n ih =>
    rw [walk] at h
    split at h
    · cases h
    · split at h
      · cases h
      · exact ih (by simp only [List.length_append, List.length_cons, List.length_nil]; omega) h
    · exact ih hout h

theorem decodeStream_error_code {t : Trie} {cap : Nat} {bytes : List Byte} {e : ErrorRecord}
    (h : decodeStream t cap bytes = .error e) : e.code ≠ .noError := by
  unfold decodeStream at h
  split at h
  · cases h
    simp
  · simp only at h
    split at h
    · cases h
      simp
    · split at h
      · rename_i hw
        cases h
        rcases walk_error_code hw with hc | hc <;> rw [hc] <;> decide
      · split at h
        · cases h
          simp
        · cases h

theorem decodeStream_fits {t : Trie} {cap : Nat} {bytes : List Byte} {r : Nat × List Byte}
    (h : decodeStream t cap bytes = .ok r) : r.2.length ≤ cap := by
  unfold decodeStream at h
  split at h
  · cases h
  · simp only at h
    split at h
    · cases h
    · split at h
      · cases h
      · rename_i hw
        split at h
        · cases h
        · cases h
          exact (walk_fits (out := []) (Nat.zero_le cap) hw :)

theorem bodyDecode_cases (s : State) :
    (∃ c i, bodyDecode s = failOutput c i s ∧ c ≠ .noError ∧
      ((s.inCap < s.inLen.toNat ∧ c = .badLength ∧ i = s.inLen) ∨
       (s.inLen.toNat ≤ s.inCap ∧ s.trieValid = false ∧ c = .notReady ∧ i = 0x0A#32) ∨
       (s.inLen.toNat ≤ s.inCap ∧ s.trieValid = true ∧
         decodeStream s.trie s.outCap (inputBytes s) = .error { code := c, info := i }))) ∨
    (s.inLen.toNat ≤ s.inCap ∧ s.trieValid = true ∧ ∃ n out,
      decodeStream s.trie s.outCap (inputBytes s) = .ok (n, out) ∧ out.length ≤ s.outCap ∧
      bodyDecode s = finish (storeDecoded n out s)) := by
  rcases Nat.lt_or_ge s.inCap s.inLen.toNat with h | h
  · exact .inl ⟨.badLength, s.inLen, by simp [bodyDecode, checkInLen_some h], by decide, .inl ⟨h, rfl, rfl⟩⟩
  cases hv : s.trieValid
  · exact .inl ⟨.notReady, 0x0A#32, by simp [bodyDecode, checkInLen_none h, hv], by decide,
      .inr (.inl ⟨h, rfl, rfl, rfl⟩)⟩
  · cases hd : decodeStream s.trie s.outCap (inputBytes s) with
    | error e =>
      exact .inl ⟨e.code, e.info, by simp [bodyDecode, checkInLen_none h, hv, hd], decodeStream_error_code hd,
        .inr (.inr ⟨h, rfl, rfl⟩)⟩
    | ok r =>
      obtain ⟨n, out⟩ := r
      exact .inr ⟨h, rfl, n, out, rfl, decodeStream_fits hd, by simp [bodyDecode, checkInLen_none h, hv, hd]⟩

/-- The canonical code of no symbol is the empty dictionary: R39 (d) at reset. -/
theorem canonical_zero : canonical (tableFill 0#6) = tableFill Entry.absent := by
  have h : sortedLengths (tableFill 0#6) = [] := by
    rw [sortedLengths, List.filter_eq_nil_iff.2]
    · rfl
    · intro p hp
      obtain ⟨s, -, rfl⟩ := List.mem_map.1 hp
      simp
  rw [canonical, h]
  rfl

/-- With no present symbol every length is 0. -/
theorem lengthTable_zero : lengthTable (huffmanLengths (tableFill 0#32)) = tableFill 0#6 := by
  have h : presentSymbols (tableFill 0#32) = [] := by simp [presentSymbols]
  apply table_ext
  intro s
  simp [lengthTable, huffmanLengths, symbolLengths, h]

/-- The empty dictionary is the canonical code of no weights. -/
theorem dictIsCanonical_of_empty {s : State} (h : s.dict = tableFill Entry.absent) : s.dictIsCanonical := by
  refine fun _ => ⟨tableFill 0#32, ?_, by rw [lengthTable_zero, canonical_zero, h]⟩
  have hp : presentSymbols (tableFill 0#32) = [] := by simp [presentSymbols]
  have hl : huffmanLengths (tableFill 0#32) = tableFill 0 := by simp [huffmanLengths, symbolLengths, hp, tableOfPairs]
  have hm : ∀ n, (List.replicate n 0).foldl max 0 = 0 := by
    intro n
    induction n with
    | zero => rfl
    | succ n ih => simpa [List.replicate_succ] using ih
  have hr : ∀ n, (Vector.replicate n 0).toList.foldl max 0 ≤ 32 := fun n => by simp [Vector.toList_replicate, hm]
  rw [hl]
  exact hr 256

end Sys2Proof.Machine
end

