-- ==== Sys2Proof/Laws/Pairs.lean ====
section
/-! SUPPORT. Functions of whole tables, on tables given by pairs: each is the same function of lookups in the list of
pairs, which evaluates without the table. -/

namespace Sys2Proof.Machine

theorem presentSymbols_ofPairs (l : List (Byte × Word)) :
    presentSymbols (tableOfPairs 0#32 l) = allBytes.filter (fun s => (l.lookup s).getD 0#32 != 0#32) := by
  simp [presentSymbols]

theorem maxLength_ofPairs (l : List (Byte × Nat)) :
    maxLength (tableOfPairs 0 l) = (allBytes.map (fun s => (l.lookup s).getD 0)).foldl max 0 := by
  rw [maxLength, table_toList]
  congr 2
  funext s
  exact tableGet_ofPairs 0 l s

/-- Codes over LEN given by a function. -/
theorem sortedLengths_of (f : Byte → BitVec 6) :
    sortedLengths (tableOf f) =
      ((allBytes.map (fun s => (s, (f s).toNat))).filter (fun p => p.2 != 0)).insertionSort lengthOrder := by
  simp [sortedLengths]

theorem sortedLengths_ofPairs (l : List (Byte × BitVec 6)) :
    sortedLengths (tableOfPairs 0#6 l) =
      ((allBytes.map (fun s => (s, ((l.lookup s).getD 0#6).toNat))).filter (fun p => p.2 != 0)).insertionSort
        lengthOrder := by
  simp [sortedLengths]

theorem lengthTable_ofPairs (l : List (Byte × Nat)) :
    lengthTable (tableOfPairs 0 l) = tableOf (fun s => BitVec.ofNat 6 ((l.lookup s).getD 0)) := by
  simp [lengthTable]

theorem numPresent_ofPairs (l : List (Byte × Entry)) :
    numPresent (tableOfPairs Entry.absent l) = allBytes.countP (fun s => ((l.lookup s).getD Entry.absent).valid) := by
  simp [numPresent_eq]

/-- Reconstruction passes over absent entries. -/
theorem insertAll_filter (d : Table Entry) (l : List Byte) (t : Trie) :
    insertAll d l t = insertAll d (l.filter (fun s => (tableGet d s).valid)) t := by
  induction l generalizing t with
  | nil => rfl
  | cons s l ih =>
    by_cases h : (tableGet d s).valid
    · simp only [List.filter_cons, h, if_true, insertAll]
      cases t.insert s (insertPath (tableGet d s).len.toNat (tableGet d s).val) with
      | none => rfl
      | some t' => exact ih t'
    · simp only [List.filter_cons, h, if_false, Bool.false_eq_true, insertAll, ih t]

theorem buildTrie_ofPairs (l : List (Byte × Entry)) :
    buildTrie (tableOfPairs Entry.absent l) =
      insertAll (tableOfPairs Entry.absent l)
        (allBytes.filter (fun s => ((l.lookup s).getD Entry.absent).valid)) Trie.empty := by
  rw [buildTrie, insertAll_filter]
  simp

theorem serialOrder_ofPairs (l : List (Byte × Entry)) :
    serialOrder (tableOfPairs Entry.absent l) =
      ((allBytes.filter (fun s => ((l.lookup s).getD Entry.absent).valid)).map
        (fun s => (s, ((l.lookup s).getD Entry.absent).len.toNat))).insertionSort lengthOrder := by
  simp [serialOrder]

end Sys2Proof.Machine
end

