-- ==== Sys2Proof/Laws/PerInstr.lean ====
section
/-! SUPPORT. The per-instruction family CommandWord: what the word of each command looks like (30_encoding.md R80,
R84, R85). -/

namespace Sys2Proof.Laws

/-- A command is well-formed, its word is legal, and OPCODE and RSVD are the word's two fields: the opcode
zero-extended. -/
def CommandWord.Statement (i : Instr) : Prop :=
  WellFormed.instr i = true ∧ WellFormed.commandWord (encode i) = true ∧ opcodeField (encode i) = i.opcode ∧
    rsvdField (encode i) = 0#24

theorem CommandWord.nop : CommandWord.Statement .nop := ⟨by decide, by decide, by decide, by decide⟩
theorem CommandWord.softReset : CommandWord.Statement .softReset := ⟨by decide, by decide, by decide, by decide⟩
theorem CommandWord.freqCount : CommandWord.Statement .freqCount := ⟨by decide, by decide, by decide, by decide⟩
theorem CommandWord.buildTree : CommandWord.Statement .buildTree := ⟨by decide, by decide, by decide, by decide⟩
theorem CommandWord.assignCodes : CommandWord.Statement .assignCodes := ⟨by decide, by decide, by decide, by decide⟩
theorem CommandWord.buildDict : CommandWord.Statement .buildDict := ⟨by decide, by decide, by decide, by decide⟩
theorem CommandWord.dictClear : CommandWord.Statement .dictClear := ⟨by decide, by decide, by decide, by decide⟩
theorem CommandWord.dictWrite : CommandWord.Statement .dictWrite := ⟨by decide, by decide, by decide, by decide⟩
theorem CommandWord.encode : CommandWord.Statement .encode := ⟨by decide, by decide, by decide, by decide⟩
theorem CommandWord.buildTrie : CommandWord.Statement .buildTrie := ⟨by decide, by decide, by decide, by decide⟩
theorem CommandWord.decode : CommandWord.Statement .decode := ⟨by decide, by decide, by decide, by decide⟩

end Sys2Proof.Laws
end

