-- ==== Sys2Proof/Laws/Step.lean ====
section
/-! SUPPORT. What one step can do: the engine's completion or one statement of the host, and what a host access does
to the block. -/

namespace Sys2Proof.Machine

/-- The body of the latched word's command, or of an illegal word. -/
def latchedBody (s : State) : BodyResult :=
  match decode s.latch with
  | .ok i => bodyOf i s
  | .error _ => bodyIllegal s

/-- The engine step completes (40_control.md R102). -/
theorem engineStep_eq (s : State) : engineStep s = .next (complete (latchedBody s)) := by
  unfold engineStep latchedBody
  cases decode s.latch with
  | ok i => exact exec_eq i s
  | error _ => rfl

@[simp] theorem latchCommand_engineMoves (w : Word) (s : State) :
    engineMoves { latchCommand w s with delay := 0 } = true := rfl

/-- What a host write does to the block: it is dropped and sets OVERRUN, or it acts on its target. -/
theorem busWrite_cases (s : State) (off : Offset) (v : Word) :
    (s.phase = .busy ∧ droppedWhenBusy s (target off) = true ∧ busWrite s off v = { s with overrun := true }) ∨
    (¬ (s.phase = .busy ∧ droppedWhenBusy s (target off) = true) ∧ busWrite s off v = writeTarget v s (target off)) := by
  unfold busWrite
  split
  · rename_i h
    exact .inl ⟨h.1, h.2, rfl⟩
  · rename_i h
    exact .inr ⟨h, rfl⟩

/-- What a write to a register can do. -/
theorem writeReg_cases (v : Word) (s : State) (r : Reg) :
    writeReg v s r = s ∨ (r = .cmd ∧ writeReg v s r = issue v s) ∨ (r = .status ∧ writeReg v s r = writeStatus v s) ∨
    (r = .irqEn ∧ writeReg v s r = { s with irqEn := v.extractLsb' 0 2 }) ∨
    (r = .inLen ∧ writeReg v s r = { s with inLen := v }) ∨ (r = .arg0 ∧ writeReg v s r = { s with arg0 := v }) ∨
    (r = .arg1 ∧ writeReg v s r = { s with arg1 := v }) := by
  cases r <;> simp [writeReg]

/-- What a write to a target can do. -/
theorem writeTarget_cases (v : Word) (s : State) (t : Target) :
    writeTarget v s t = s ∨ (∃ r, t = .reg r ∧ writeTarget v s t = writeReg v s r) ∨
    (∃ sym, t = .freq sym ∧
      writeTarget v s t = { s with freq := tableSet s.freq sym v, lenValid := false }) ∨
    (∃ k, t = .inByte k ∧ k < s.inCap ∧
      writeTarget v s t = { s with inBuf := s.inBuf.write k (v.extractLsb' 0 8) }) := by
  cases t with
  | reg r => exact .inr (.inl ⟨r, rfl, rfl⟩)
  | freq sym => exact .inr (.inr (.inl ⟨sym, rfl, rfl⟩))
  | len _ => exact .inl rfl
  | dictHead _ => exact .inl rfl
  | dictVal _ => exact .inl rfl
  | inByte k =>
    by_cases h : k < s.inCap
    · exact .inr (.inr (.inr ⟨k, rfl, h, by simp [writeTarget, h]⟩))
    · exact .inl (by simp [writeTarget, h])
  | outByte _ => exact .inl rfl
  | reserved => exact .inl rfl

/-- A read changes nothing but the free values' counter (20_memory.md R59). -/
theorem busRead_state (s : State) (off : Offset) : ∃ d, (busRead s off).2 = { s with draws := d } := by
  unfold busRead
  split
  · exact ⟨s.draws, rfl⟩
  · exact ⟨s.draws + 1, rfl⟩

/-- A read of the host: the model's own fields apart from the verdicts, nothing else. -/
theorem hostRead_state (off : Offset) (s : State) :
    ∃ d tr, (hostRead off s).2 = { s with draws := d, trace := tr } := by
  obtain ⟨d, h⟩ := busRead_state s off
  refine ⟨d, s.trace ++ [.read off (busRead s off).1], ?_⟩
  unfold hostRead
  simp only [h]
  rfl

/-- What the host's statement does when it is not refused: a reset, a write, or a read that changes nothing of the
block. -/
theorem runStmt_next {stmt : HostStmt} {s t : State} (h : runStmt stmt s = .next t) :
    (stmt = .reset ∧ t = popStmt (hardwareReset s)) ∨
    (∃ off v, stmt = .wr off v ∧ WellFormed.offset off = true ∧ t = popStmt (logTxn (.write off v) (busWrite s off v))) ∨
    (∃ d p tr c f, t = { s with draws := d, program := p, trace := tr, checkFailed := c, hostFailed := f }) := by
  cases stmt with
  | reset =>
    cases h
    exact .inl ⟨rfl, rfl⟩
  | wr off v =>
    simp only [runStmt, whenAligned] at h
    split at h
    · rename_i ha
      cases h
      exact .inr (.inl ⟨off, v, rfl, ha, rfl⟩)
    · cases h
  | rd off =>
    simp only [runStmt, whenAligned] at h
    split at h
    · cases h
      obtain ⟨d, tr, he⟩ := hostRead_state off s
      exact .inr (.inr ⟨d, s.program.tail, tr, s.checkFailed, s.hostFailed, by rw [he]; rfl⟩)
    · cases h
  | check off v =>
    simp only [runStmt, whenAligned] at h
    split at h
    · cases h
      obtain ⟨d, tr, he⟩ := hostRead_state off s
      unfold hostCheck
      simp only [he]
      split
      · exact .inr (.inr ⟨d, s.program.tail, tr, s.checkFailed, s.hostFailed, rfl⟩)
      · exact .inr (.inr ⟨d, s.program.tail, tr, true, s.hostFailed, rfl⟩)
    · cases h
  | checkm off mask v =>
    simp only [runStmt, whenAligned] at h
    split at h
    · cases h
      obtain ⟨d, tr, he⟩ := hostRead_state off s
      unfold hostCheck
      simp only [he]
      split
      · exact .inr (.inr ⟨d, s.program.tail, tr, s.checkFailed, s.hostFailed, rfl⟩)
      · exact .inr (.inr ⟨d, s.program.tail, tr, true, s.hostFailed, rfl⟩)
    · cases h
  | wait =>
    cases h
    obtain ⟨d, tr, he⟩ := hostRead_state (Reg.offset .status) s
    unfold hostWait
    simp only [he]
    split
    · exact .inr (.inr ⟨d, s.program, tr, s.checkFailed, s.hostFailed, rfl⟩)
    · exact .inr (.inr ⟨d, s.program.tail, tr, s.checkFailed, s.hostFailed, rfl⟩)
  | stopIfError =>
    cases h
    obtain ⟨d, tr, he⟩ := hostRead_state (Reg.offset .status) s
    unfold hostStopIfError
    simp only [he]
    split
    · exact .inr (.inr ⟨d, [], tr, s.checkFailed, true, rfl⟩)
    · exact .inr (.inr ⟨d, s.program.tail, tr, s.checkFailed, s.hostFailed, rfl⟩)
  | readOut =>
    cases h
    obtain ⟨d, tr, he⟩ := hostRead_state (Reg.offset .outLen) s
    unfold hostReadOut
    simp only [he]
    exact .inr (.inr ⟨d, _, tr, s.checkFailed, s.hostFailed, rfl⟩)
  | narrow _ _ => cases h

/-- Counting an access changes only the model's count. -/
theorem countAccess_eq (s : State) : ∃ d, countAccess s = { s with delay := d } := by
  unfold countAccess
  split
  · exact ⟨_, rfl⟩
  · exact ⟨s.delay, rfl⟩

/-- Everything a step can do. -/
theorem step_cases {s t : State} (h : step s = .next t) :
    (engineMoves s = true ∧ t = complete (latchedBody s)) ∨
    (engineMoves s = false ∧ s.program = [] ∧ t = countAccess s) ∨
    (engineMoves s = false ∧ ∃ stmt rest, s.program = stmt :: rest ∧ runStmt stmt (countAccess s) = .next t) := by
  unfold step at h
  split at h
  · rename_i hm
    rw [engineStep_eq] at h
    cases h
    exact .inl ⟨hm, rfl⟩
  · rename_i hm
    have hm' : engineMoves s = false := by simpa using hm
    obtain ⟨d, hd⟩ := countAccess_eq s
    unfold hostStep at h
    split at h
    · rename_i hp
      cases h
      exact .inr (.inl ⟨hm', by simpa [hd] using hp, rfl⟩)
    · rename_i stmt rest hp
      exact .inr (.inr ⟨hm', stmt, rest, by simpa [hd] using hp, h⟩)

end Sys2Proof.Machine
end

