-- ==== Sys2Proof/Laws/Stages.lean ====
section
/-! SUPPORT. What the host reads back at the end of a stage: the words of its reads are the block's, so the dictionary
and the output bytes it collects are those on the block (44_dictionary.md R186, 47_pipeline.md R252, R253). -/

namespace Sys2Proof.Machine

/-! ## Starting a stage -/

@[simp] theorem withProgram_program (p : List HostStmt) (s : State) : (withProgram p s).program = p := rfl
@[simp] theorem withProgram_trace (p : List HostStmt) (s : State) : (withProgram p s).trace = [] := rfl
@[simp] theorem withProgram_checkFailed (p : List HostStmt) (s : State) : (withProgram p s).checkFailed = false := rfl
@[simp] theorem withProgram_hostFailed (p : List HostStmt) (s : State) : (withProgram p s).hostFailed = false := rfl

/-- A stage's start sees nothing of the host's trace and verdicts before it (R254, R259). -/
theorem startStage_independent (p : Option (List HostStmt)) (s : State) (q : List HostStmt) (tr : List BusTxn)
    (c f : Bool) :
    startStage p { s with program := q, trace := tr, checkFailed := c, hostFailed := f } = startStage p s := by
  cases p <;> rfl

/-! ## Reads while idle -/

/-- The host's own fields are not read through the register interface. -/
theorem storedWord_host (s : State) (p : List HostStmt) (tr : List BusTxn) (t : Target) :
    storedWord { s with program := p, trace := tr } t = storedWord s t := by
  cases t with
  | reg r => cases r <;> rfl
  | _ => rfl

/-- The transaction of an idle read. -/
def idleRead (s : State) (off : Offset) : BusTxn := .read off (storedWord s (target off))

theorem idleRead_host (s : State) (p : List HostStmt) (tr : List BusTxn) :
    idleRead { s with program := p, trace := tr } = idleRead s :=
  funext fun off => congrArg (BusTxn.read off) (storedWord_host s p tr (target off))

/-- A program's reads while the block is idle: each puts the stored word in the trace, and nothing else changes. -/
theorem runs_reads (offs : List Offset) (n : Nat) (hn : offs.length = n) (rest : List HostStmt) (s : State) (hi : s.phase = .idle)
    (ha : ∀ off ∈ offs, WellFormed.offset off = true) (hp : s.program = offs.map .rd ++ rest) :
    Runs n s { s with program := rest, trace := s.trace ++ offs.map (idleRead s) } := by
  subst hn
  induction offs generalizing s with
  | nil =>
    simp only [List.map_nil, List.nil_append, List.append_nil] at hp ⊢
    rw [← hp]
    rfl
  | cons off offs ih =>
    have hoff : WellFormed.offset off = true := ha off (by simp)
    have hm : engineMoves s = false := by simp [engineMoves, hi]
    have hstep : step s = .next { s with program := offs.map .rd ++ rest, trace := s.trace ++ [idleRead s off] } := by
      simp only [step, hm, Bool.false_eq_true, if_false, countAccess, hi, reduceCtorEq, hostStep, hp, List.map_cons,
        List.cons_append, runStmt, whenAligned, hoff, if_true, hostRead, busRead, logTxn, popStmt, List.tail_cons,
        idleRead]
    refine ⟨_, hstep, ?_⟩
    have h := ih { s with program := offs.map .rd ++ rest, trace := s.trace ++ [idleRead s off] } hi
      (fun o ho => ha o (by simp [ho])) rfl
    rw [idleRead_host s (offs.map HostStmt.rd ++ rest) (s.trace ++ [idleRead s off])] at h
    simpa only [List.map_cons, List.append_assoc, List.singleton_append] using h

theorem lastRead_idleRead (s : State) (off o : Offset) (l : List BusTxn) :
    lastRead off (idleRead s o :: l) =
      (lastRead off l).or (if o = off then some (storedWord s (target o)) else none) := rfl

/-- After idle reads, the last word read at one of their offsets is the stored word; at another there is none. -/
theorem lastRead_map_idleRead (s : State) (off : Offset) (offs : List Offset) :
    lastRead off (offs.map (idleRead s)) = if off ∈ offs then some (storedWord s (target off)) else none := by
  induction offs with
  | nil => rfl
  | cons o offs ih =>
    rw [List.map_cons, lastRead_idleRead, ih]
    by_cases hm : off ∈ offs
    · simp [hm]
    · by_cases ho : o = off
      · simp [ho, hm]
      · simp [hm, ho, Ne.symm ho]

/-- The last read is the later part's, where that part has one. -/
theorem lastRead_append (off : Offset) (a b : List BusTxn) :
    lastRead off (a ++ b) = (lastRead off b).or (lastRead off a) := by
  induction a with
  | nil => simp [lastRead]
  | cons t a ih => cases t <;> simp [lastRead, ih, Option.or_assoc]

theorem lastRead_reads (s : State) (off : Offset) (pre : List BusTxn) (offs : List Offset) (h : off ∈ offs) :
    lastRead off (pre ++ offs.map (idleRead s)) = some (storedWord s (target off)) := by
  simp [lastRead_append, lastRead_map_idleRead, h]

/-! ## The dictionary -/

/-- The offset of a DICT word, as a number: it does not wrap. -/
theorem dictHeadOffset_toNat (s : Byte) : (dictHeadOffset s).toNat = 0x002000 + 8 * s.toNat := by
  have := s.isLt
  simp only [dictHeadOffset, BitVec.toNat_ofNat]
  omega

theorem dictValOffset_toNat (s : Byte) : (dictValOffset s).toNat = 0x002004 + 8 * s.toNat := by
  have := s.isLt
  simp only [dictValOffset, BitVec.toNat_ofNat]
  omega

/-- The map of R51 in the DICT window. -/
theorem target_dictWindow (off : Offset) (h1 : 0x002000 ≤ off.toNat) (h2 : off.toNat < 0x002800) :
    target off = dictWordAt ((off.toNat - 0x002000) / 4) := by
  simp only [target]
  repeat rw [if_neg (by omega)]
  rw [if_pos h2]

@[simp] theorem target_dictHeadOffset (s : Byte) : target (dictHeadOffset s) = .dictHead s := by
  have hs := s.isLt
  have ho := dictHeadOffset_toNat s
  rw [target_dictWindow _ (by omega) (by omega), ho]
  have h1 : (0x002000 + 8 * s.toNat - 0x002000) / 4 = 2 * s.toNat := by omega
  rw [h1]
  simp [dictWordAt]

@[simp] theorem target_dictValOffset (s : Byte) : target (dictValOffset s) = .dictVal s := by
  have hs := s.isLt
  have ho := dictValOffset_toNat s
  rw [target_dictWindow _ (by omega) (by omega), ho]
  have h1 : (0x002004 + 8 * s.toNat - 0x002000) / 4 = 2 * s.toNat + 1 := by omega
  have h2 : (2 * s.toNat + 1) / 2 = s.toNat := by omega
  have h3 : (2 * s.toNat + 1) % 2 = 1 := by omega
  rw [h1]
  simp [dictWordAt, h2, h3]

/-- An offset is admitted when its number is a multiple of 4. -/
theorem offset_wellFormed (off : Offset) (h : off.toNat % 4 = 0) : WellFormed.offset off = true := by
  have h0 : off.extractLsb' 0 2 = 0#2 := BitVec.eq_of_toNat_eq (by simpa using h)
  simp [WellFormed.offset, h0]

/-- The two DICT words of an entry spell it. -/
@[simp] theorem entryOfWords_head (e : Entry) : entryOfWords (entryHead e) e.val = e := by
  obtain ⟨v, len, val⟩ := e
  have hv : (BitVec.ofBool v ++ 0#25 ++ len : BitVec (1 + 25 + 6)).getLsbD 31 = v := by
    simp only [BitVec.getLsbD_append]
    cases v <;> rfl
  have hl : (BitVec.ofBool v ++ 0#25 ++ len : BitVec (1 + 25 + 6)).extractLsb' 0 6 = len := by
    apply BitVec.eq_of_getLsbD_eq
    intro i hi
    simp only [BitVec.getLsbD_extractLsb', hi, decide_true, Bool.true_and, Nat.zero_add, BitVec.getLsbD_append, if_true]
  exact (Entry.mk.injEq ..).mpr ⟨hv, hl, rfl⟩

/-- The offsets of R186's reads. -/
def dictionaryOffsets : List Offset :=
  Reg.offset .nsym :: allBytes.flatMap (fun s => [dictHeadOffset s, dictValOffset s])

theorem readDictionaryStmts_eq : readDictionaryStmts = dictionaryOffsets.map .rd := by
  simp [readDictionaryStmts, dictionaryOffsets, List.map_flatMap]

/-- Reading the dictionary back from an idle block gives the block's dictionary, and changes nothing of the block. -/
theorem runs_readDictionary (s : State) (hi : s.phase = .idle) (hp : s.program = readDictionaryStmts) :
    ∃ n tr, Runs n s { s with program := [], trace := tr } ∧
      dictionaryRead { s with program := [], trace := tr } = s.dict := by
  have ha : ∀ off ∈ dictionaryOffsets, WellFormed.offset off = true := by
    intro off h
    simp only [dictionaryOffsets, List.mem_cons, List.mem_flatMap, List.not_mem_nil, or_false] at h
    apply offset_wellFormed
    rcases h with rfl | ⟨sym, -, rfl | rfl⟩
    · rfl
    · rw [dictHeadOffset_toNat]; omega
    · rw [dictValOffset_toNat]; omega
  obtain ⟨n, hn⟩ : ∃ n, dictionaryOffsets.length = n := ⟨_, rfl⟩
  have hr : Runs n s { s with program := [], trace := s.trace ++ dictionaryOffsets.map (idleRead s) } := by
    apply runs_reads dictionaryOffsets n hn [] s hi ha
    rw [hp, readDictionaryStmts_eq, List.append_nil]
  refine ⟨n, _, hr, table_ext fun sym => ?_⟩
  have hh : dictHeadOffset sym ∈ dictionaryOffsets :=
    List.mem_cons_of_mem _ (List.mem_flatMap.2 ⟨sym, mem_allBytes sym, by simp⟩)
  have hv : dictValOffset sym ∈ dictionaryOffsets :=
    List.mem_cons_of_mem _ (List.mem_flatMap.2 ⟨sym, mem_allBytes sym, by simp⟩)
  simp [dictionaryRead, wordRead, lastRead_reads _ _ _ _ hh, lastRead_reads _ _ _ _ hv, storedWord]

/-! ## The output -/

theorem outOffset_toNat (k : Nat) (h : k < 262144) : (outOffset k).toNat = 0x200000 + 4 * k := by
  simp only [outOffset, BitVec.toNat_ofNat]
  omega

/-- The map of R51 in the OUT window. -/
theorem target_outWindow (off : Offset) (h1 : 0x200000 ≤ off.toNat) (h2 : off.toNat < 0x300000) :
    target off = .outByte ((off.toNat - 0x200000) / 4) := by
  simp only [target]
  repeat rw [if_neg (by omega)]
  rw [if_pos h2]

theorem target_outOffset (k : Nat) (h : k < 262144) : target (outOffset k) = .outByte k := by
  have ho := outOffset_toNat k h
  have hk : (0x200000 + 4 * k - 0x200000) / 4 = k := by omega
  rw [target_outWindow _ (by omega) (by omega), ho, hk]

/-- Collecting the output of an idle block gives `OUT[0..OUT_LEN)`, and changes nothing of the block. -/
theorem runs_readOut (s : State) (hi : s.phase = .idle) (hc : WellFormed.capacity s.outCap = true)
    (hf : s.outLen.toNat ≤ s.outCap) (hp : s.program = [.readOut]) :
    ∃ tr, Runs (s.outLen.toNat + 1) s { s with program := [], trace := tr } ∧
      outputRead { s with program := [], trace := tr } = outputBytes s := by
  have hcap : s.outCap ≤ 262144 := by
    simp only [WellFormed.capacity, Config.capLimit, Bool.and_eq_true, decide_eq_true_eq] at hc
    exact of_decide_eq_true hc.2
  let offs := (List.range s.outLen.toNat).map outOffset
  let u : State := { s with program := offs.map .rd, trace := s.trace ++ [idleRead s (Reg.offset .outLen)] }
  have hstep : step s = .next u := by
    have hm : engineMoves s = false := by simp [engineMoves, hi]
    have hw : storedWord s (target (Reg.offset .outLen)) = s.outLen := rfl
    simp [step, hm, countAccess, hi, hostStep, hp, runStmt, hostReadOut, hostRead, busRead, logTxn, hw, u, offs,
      idleRead]
  have ha : ∀ off ∈ offs, WellFormed.offset off = true := by
    intro off h
    obtain ⟨k, hk, rfl⟩ := List.mem_map.1 h
    have := List.mem_range.1 hk
    apply offset_wellFormed
    rw [outOffset_toNat k (by omega)]
    omega
  have hr := runs_reads offs s.outLen.toNat (by simp [offs]) [] u hi ha (by simp [u])
  have hu : idleRead u = idleRead s := idleRead_host s _ _
  rw [hu] at hr
  have hall : s.trace ++ [idleRead s (Reg.offset .outLen)] ++ offs.map (idleRead s) =
      s.trace ++ (Reg.offset .outLen :: offs).map (idleRead s) := by simp
  refine ⟨_, ⟨u, hstep, hr⟩, ?_⟩
  have hread : ∀ off ∈ Reg.offset .outLen :: offs,
      wordRead { s with program := [], trace := u.trace ++ offs.map (idleRead s) } off = storedWord s (target off) := by
    intro off h
    simp only [wordRead, u, hall, lastRead_reads s off _ _ h, Option.getD_some]
  have hn : storedWord s (target (Reg.offset .outLen)) = s.outLen := rfl
  simp only [outputRead, outputBytes, Buffer.bytes]
  rw [hread _ (by simp), hn]
  apply List.map_congr_left
  intro k hk
  have hk' := List.mem_range.1 hk
  rw [hread _ (List.mem_cons_of_mem _ (List.mem_map.2 ⟨k, hk, rfl⟩)), target_outOffset k (by omega)]
  have hb : k < s.outCap := by omega
  simp only [storedWord, hb, if_true]
  exact BitVec.eq_of_toNat_eq (by simpa using (s.outBuf.read k).isLt)

end Sys2Proof.Machine
end

