-- ==== Sys2Proof/Tests/Slice0.lean ====
section
/-! SUPPORT. Tests of the model against the spec's vectors (95_test_vectors.md), the smoke tests of WellFormed, and a
witness for every statement with hypotheses. Each expected value comes from the spec's text named beside it. -/

namespace Sys2Proof.Tests

-- One theorem after another: the kernel's evaluations would else wait for each other, a thread's stack each.
set_option Elab.async false

open Sys2Proof.Machine

/-! ## Helpers -/

/-- The vectors' block: IN_CAP = OUT_CAP = 64, after reset. -/
def block64 : Machine.State := { State.reset with inCap := 64, outCap := 64 }

/-- The block with `bytes` in IN and IN_LEN their count. -/
def withInput (bytes : List Byte) (s : Machine.State) : Machine.State :=
  { s with
    inBuf := { s.inBuf with cells := bytes.zipIdx.map (fun p => (p.2, p.1)) }
    inLen := BitVec.ofNat 32 bytes.length }

/-- An entry from its codeword. -/
def entryOf (c : List Bool) : Entry := presentEntry c.length (valOf c)

/-- The block with a dictionary. -/
def withDict (l : List (Byte × List Bool)) (s : Machine.State) : Machine.State :=
  { s with
    dict := tableOfPairs Entry.absent (l.map (fun p => (p.1, entryOf p.2)))
    nsym := BitVec.ofNat 9 l.length }

/-- The block with weights. -/
def withWeights (l : List (Byte × Word)) (s : Machine.State) : Machine.State := { s with freq := tableOfPairs 0#32 l }

/-- The next state of an outcome tested, false when the step stops. -/
def nextIs (p : Machine.State → Bool) : Host.Outcome Machine.State Machine.Fault Machine.Refusal → Bool
  | .next t => p t
  | .fault _ => false
  | .refused _ => false

/-- The refusal of an outcome, if it is one. -/
def refusalOf : Host.Outcome Machine.State Machine.Fault Machine.Refusal → Option Machine.Refusal
  | .next _ => none
  | .fault _ => none
  | .refused r => some r

/-- "AAAB". -/
def aaab : List Byte := [0x41#8, 0x41#8, 0x41#8, 0x42#8]

/-- "ABRACADABRA". -/
def abra : List Byte :=
  [0x41#8, 0x42#8, 0x52#8, 0x41#8, 0x43#8, 0x41#8, 0x44#8, 0x41#8, 0x42#8, 0x52#8, 0x41#8]

/-- V-CANON-1: A "0", B "1". -/
def abDict : List (Byte × List Bool) := [(0x41#8, [false]), (0x42#8, [true])]

/-- V-CANON-2: A "0", R "10", B "110", C "1110", D "1111". -/
def abraDict : List (Byte × List Bool) :=
  [(0x41#8, [false]), (0x52#8, [true, false]), (0x42#8, [true, true, false]), (0x43#8, [true, true, true, false]),
   (0x44#8, [true, true, true, true])]

/-- The trie of V-CANON-2. -/
def abraTrie : Trie :=
  { child0 := .leaf 0x41#8
    child1 := .internal (.leaf 0x52#8)
      (.internal (.leaf 0x42#8) (.internal (.leaf 0x43#8) (.leaf 0x44#8))) }

/-- BUILD_TREE, given the depths of the leaves. -/
theorem buildTree_next {s : Machine.State} {l : List (Byte × Nat)} (h : symbolLengths s.freq = l)
    (hd : (allBytes.map (fun b => (l.lookup b).getD 0)).foldl max 0 ≤ 32) :
    exec .buildTree s = .next (complete (finish { s with len := lengthTable (tableOfPairs 0 l), lenValid := true })) := by
  have hl : huffmanLengths s.freq = tableOfPairs 0 l := by rw [huffmanLengths, h]
  rcases bodyBuildTree_cases s with ⟨hb, -⟩ | ⟨-, he⟩
  · rw [hl, maxLength_ofPairs] at hb
    omega
  · rw [hl] at he
    exact congrArg completed he

/-- BUILD_DICT, given the depths of the leaves. -/
theorem buildDict_next {s : Machine.State} {l : List (Byte × Nat)} (hi : s.inLen.toNat ≤ s.inCap)
    (h : symbolLengths (countInput s).freq = l)
    (hd : (allBytes.map (fun b => (l.lookup b).getD 0)).foldl max 0 ≤ 32) :
    exec .buildDict s = .next (complete (finish (storeCanonical
      { countInput s with len := lengthTable (tableOfPairs 0 l), lenValid := true }))) := by
  have hl : huffmanLengths (countInput s).freq = tableOfPairs 0 l := by rw [huffmanLengths, h]
  rcases bodyBuildDict_cases s with ⟨hb, -⟩ | ⟨-, hb, -⟩ | ⟨-, -, he⟩
  · omega
  · rw [hl, maxLength_ofPairs] at hb
    omega
  · rw [hl] at he
    exact congrArg completed he

/-! ## WellFormed: an ill-formed term for each check -/

theorem test_wellFormed_rsvd : WellFormed.rsvdZero 0x00000100#32 = false := by decide
theorem test_wellFormed_opcode : WellFormed.opcodeListed 0x0000000B#32 = false := by decide
theorem test_wellFormed_word : WellFormed.commandWord 0x80000003#32 = false := by decide
theorem test_wellFormed_offset : WellFormed.offset 0x000002#24 = false := by decide
theorem test_wellFormed_capacity_zero : WellFormed.capacity 0 = false := by decide
theorem test_wellFormed_capacity_large : WellFormed.capacity 262145 = false := by decide
theorem test_admitted_narrow : HostStmt.admitted (.narrow .bits16 0x000000#24) = false := by decide
theorem test_admitted_misaligned : HostStmt.admitted (.wr 0x000002#24 0#32) = false := by decide

/-! ## Decoding: each command's word written out bit by bit (30_encoding.md R80, R84) -/

theorem test_decode_nop : decode 0b00000000000000000000000000000000#32 = .ok .nop := by decide
theorem test_decode_softReset : decode 0b00000000000000000000000000000001#32 = .ok .softReset := by decide
theorem test_decode_freqCount : decode 0b00000000000000000000000000000010#32 = .ok .freqCount := by decide
theorem test_decode_buildTree : decode 0b00000000000000000000000000000011#32 = .ok .buildTree := by decide
theorem test_decode_assignCodes : decode 0b00000000000000000000000000000100#32 = .ok .assignCodes := by decide
theorem test_decode_buildDict : decode 0b00000000000000000000000000000101#32 = .ok .buildDict := by decide
theorem test_decode_dictClear : decode 0b00000000000000000000000000000110#32 = .ok .dictClear := by decide
theorem test_decode_dictWrite : decode 0b00000000000000000000000000000111#32 = .ok .dictWrite := by decide
theorem test_decode_encode : decode 0b00000000000000000000000000001000#32 = .ok .encode := by decide
theorem test_decode_buildTrie : decode 0b00000000000000000000000000001001#32 = .ok .buildTrie := by decide
theorem test_decode_decode : decode 0b00000000000000000000000000001010#32 = .ok .decode := by decide

/-- V-CMD-3 to V-CMD-7. -/
theorem test_decode_illegal :
    decode 0x0000000B#32 = .error .opcodeReserved ∧ decode 0x000000FF#32 = .error .opcodeReserved ∧
    decode 0x00000100#32 = .error .rsvdNonzero ∧ decode 0x80000003#32 = .error .rsvdNonzero ∧
    decode 0xFFFFFFFF#32 = .error .rsvdNonzero := by decide

/-- The host's question on the last row of the table. -/
theorem test_tableWord : decodeTableWord 32 10 = some .decode ∧ decodeTableWord 32 11 = none := by decide

/-! ## One step of each command -/

/-- V-LIFE-3. -/
theorem test_nop : nextIs (fun t => statusWord t == 0x00000002#32) (step (block64.withFetchWord 32 0)) = true := by
  decide

/-- V-LIFE-4: the issue clears the record of an earlier error. -/
theorem test_nop_clears_error :
    nextIs (fun t => statusWord t == 0x00000002#32 && t.errCode == .noError && t.errInfo == 0#32)
      (step ({ block64 with done := true, error := true, errCode := .illegalCommand, errInfo := 11#32 }.withFetchWord
        32 0)) = true := by
  decide

/-- V-CMD-3. -/
theorem test_illegal :
    nextIs (fun t => statusWord t == 0x00000006#32 && t.errCode.number == 0x01#8 && t.errInfo == 0x0000000B#32)
      (step (block64.withFetchWord 32 0x0B)) = true := by
  decide

/-- V-SRST-2: STATUS 0x8A. -/
theorem test_softReset :
    nextIs (fun t => statusWord t == 0x00000002#32)
      (exec .softReset { block64 with done := true, overrun := true, dictBad := true }) = true := by
  decide

/-- V-SRST-1: IRQ_EN stays and irq is 1, IN_LEN is 0. -/
theorem test_softReset_irq :
    nextIs (fun t => t.irqEn == 1#2 && irq t && t.inLen == 0#32)
      (exec .softReset { withInput aaab block64 with irqEn := 1#2 }) = true := by
  decide

/-- V-FREQ-1. -/
theorem test_freqCount :
    nextIs (fun t => tableGet t.freq 0x41#8 == 3#32 && tableGet t.freq 0x42#8 == 1#32 && tableGet t.freq 0x43#8 == 0#32)
      (exec .freqCount (withInput aaab block64)) = true := by
  decide +kernel

/-- V-FREQ-5: IN_LEN = 65 with IN_CAP = 64. -/
theorem test_freqCount_badLength :
    nextIs (fun t => t.error && t.errCode.number == 0x02#8 && t.errInfo == 0x00000041#32)
      (exec .freqCount { block64 with inLen := 65#32 }) = true := by
  decide

/-- TB-3: A:2 B:1 C:1 D:2 gives D1 A2 B3 C3. -/
theorem test_buildTree_ties :
    nextIs (fun t => tableGet t.len 0x41#8 == 2#6 && tableGet t.len 0x42#8 == 3#6 && tableGet t.len 0x43#8 == 3#6
        && tableGet t.len 0x44#8 == 1#6 && statusWord t == 0x00000012#32)
      (exec .buildTree (withWeights [(0x41#8, 2#32), (0x42#8, 1#32), (0x43#8, 1#32), (0x44#8, 2#32)] block64)) =
      true := by
  have h : symbolLengths (withWeights [(0x41#8, 2#32), (0x42#8, 1#32), (0x43#8, 1#32), (0x44#8, 2#32)] block64).freq =
      [(0x44#8, 1), (0x41#8, 2), (0x42#8, 3), (0x43#8, 3)] := by
    rw [withWeights, symbolLengths, presentSymbols_ofPairs]
    decide +kernel
  rw [buildTree_next h (by decide +kernel), lengthTable_ofPairs]
  simp only [nextIs, complete, finish, tableGet_of]
  decide

/-- V-TREE-10: sums above 32 bits are exact, so all four symbols have length 2. -/
theorem test_buildTree_sums :
    symbolLengths (tableOfPairs 0#32
      [(0#8, 0xFFFFFFFF#32), (1#8, 0xFFFFFFFF#32), (2#8, 0xFFFFFFFF#32), (3#8, 1#32)]) =
      [(3#8, 2), (0#8, 2), (1#8, 2), (2#8, 2)] := by
  rw [symbolLengths, presentSymbols_ofPairs]
  decide +kernel

/-- V-CANON-11: the length carry `(0 + 1) << 2 = 4`, so B is "100". -/
theorem test_assignCodes_carry :
    nextIs (fun t => tableGet t.dict 0x42#8 == entryOf [true, false, false]
        && tableGet t.dict 0x45#8 == entryOf [true, true, true] && t.nsym == 5#9)
      (exec .assignCodes { block64 with
        lenValid := true
        len := tableOfPairs 0#6 [(0x41#8, 1#6), (0x42#8, 3#6), (0x43#8, 3#6), (0x44#8, 3#6), (0x45#8, 3#6)] }) =
      true := by
  have h : sortedLengths
      (tableOfPairs 0#6 [(0x41#8, 1#6), (0x42#8, 3#6), (0x43#8, 3#6), (0x44#8, 3#6), (0x45#8, 3#6)]) =
      [(0x41#8, 1), (0x42#8, 3), (0x43#8, 3), (0x44#8, 3), (0x45#8, 3)] := by
    rw [sortedLengths_ofPairs]
    decide +kernel
  simp only [nextIs, exec, execAssignCodes, bodyAssignCodes, if_true, completed, complete, finish, storeCanonical,
    canonical, h, numPresent_ofPairs, tableGet_ofPairs]
  decide +kernel

/-- V-CANON-14. -/
theorem test_assignCodes_notReady :
    nextIs (fun t => t.error && t.errCode.number == 0x03#8 && t.errInfo == 0x00000004#32) (exec .assignCodes block64) =
      true := by
  decide

/-- "AAAB" counted: B is the leaf of least key, both at depth 1. -/
theorem aaab_lengths : symbolLengths (countInput (withInput aaab block64)).freq = [(0x42#8, 1), (0x41#8, 1)] := by
  have h : presentSymbols (countInput (withInput aaab block64)).freq = [0x41#8, 0x42#8] := by
    simp only [presentSymbols, countInput, tableGet_of]
    decide +kernel
  rw [symbolLengths, h]
  decide +kernel

theorem aaab_sorted :
    sortedLengths (lengthTable (tableOfPairs 0 [(0x42#8, 1), (0x41#8, 1)])) = [(0x41#8, 1), (0x42#8, 1)] := by
  rw [lengthTable_ofPairs, sortedLengths_of]
  decide +kernel

/-- V-PIPE-1. -/
theorem test_buildDict :
    nextIs (fun t => tableGet t.dict 0x41#8 == entryOf [false] && tableGet t.dict 0x42#8 == entryOf [true]
        && t.nsym == 2#9 && statusWord t == 0x00000012#32)
      (exec .buildDict (withInput aaab block64)) = true := by
  rw [buildDict_next (by decide) aaab_lengths (by decide +kernel)]
  simp only [nextIs, complete, finish, storeCanonical, canonical, aaab_sorted, numPresent_ofPairs, tableGet_ofPairs]
  decide +kernel

/-- What DICT_CLEAR leaves, in every state (R171). -/
theorem dictClear_next (s : State) :
    exec .dictClear s = .next (complete (finish
      { s with dict := tableFill Entry.absent, nsym := 0#9, trieValid := false, dictBad := false })) := rfl

/-- Two rules of the spec at odds (log 18): BUILD_DICT of "AAAB" (R250), then DICT_CLEAR, which as R171 says empties DICT
and leaves LEN, ends with DICT_BAD 0 and no DICT_WRITE run, and DICT is not the canonical code of LEN, against the words
of R39 (d). DICT is still the canonical code of no weights. -/
theorem test_dictClear_against_r39d :
    ∃ a b, exec .buildDict (withInput aaab block64) = .next a ∧ exec .dictClear a = .next b ∧ a.dictIsCode ∧
      (∀ sym, tableGet b.dict sym = Entry.absent) ∧ b.len = a.len ∧ b.dictBad = false ∧ ¬ b.dictIsCode ∧
      b.dictIsCanonical := by
  have hb := buildDict_next (s := withInput aaab block64) (by decide) aaab_lengths (by decide +kernel)
  have hd : ¬ tableFill Entry.absent = canonical (lengthTable (tableOfPairs 0 [(0x42#8, 1), (0x41#8, 1)])) := by
    intro he
    have hg := congrArg (fun d => (tableGet d 0x41#8).valid) he
    simp only [tableGet_fill, canonical, aaab_sorted, tableGet_ofPairs] at hg
    exact absurd hg (by decide)
  generalize lengthTable (tableOfPairs 0 [(0x42#8, 1), (0x41#8, 1)]) = L at hb hd
  refine ⟨_, _, hb, dictClear_next _, ?_, ?_, ?_, ?_, ?_, ?_⟩
  all_goals simp only [State.dictIsCode, complete, finish, storeCanonical, tableGet_fill, implies_true]
  · exact fun h => hd (h trivial)
  · exact dictIsCanonical_of_empty rfl

/-- V-DICT-13. -/
theorem test_dictClear :
    nextIs (fun t => statusWord t == 0x00000002#32 && t.nsym == 0#9)
      (exec .dictClear { withDict abDict block64 with dictBad := true }) = true := by
  decide

/-- V-DICT-8: after `dput 65, "0"`, `dput 66, "0"`. -/
theorem test_dictWrite_duplicate :
    nextIs (fun t => t.errCode.number == 0x11#8 && t.errInfo == 0x00000041#32 && t.dictBad)
      (exec .dictWrite { withDict [(0x41#8, [false])] block64 with arg0 := 0x00000142#32, arg1 := 0#32 }) = true := by
  decide +kernel

/-- V-DICT-7: ARG0 bit 14. -/
theorem test_dictWrite_reserved :
    nextIs (fun t => t.errCode.number == 0x10#8 && t.errInfo == 0x00004141#32)
      (exec .dictWrite { block64 with arg0 := 0x00004141#32, arg1 := 0#32 }) = true := by
  decide

/-- V-ENC-2. -/
theorem test_encode_stream :
    streamOf (encodeBits (withDict abraDict block64).dict abra) =
      [0x00#8, 0x00#8, 0x00#8, 0x17#8, 0x69#8, 0xCF#8, 0x68#8] := by
  decide +kernel

/-- V-ENC-11: "ABC". -/
theorem test_encode_missing :
    nextIs (fun t => t.errCode.number == 0x30#8 && t.errInfo == 2#32 && t.outLen == 0#32)
      (exec .encode (withInput [0x41#8, 0x42#8, 0x43#8] (withDict abDict block64))) = true := by
  decide +kernel

/-- V-TRIE-6: an incomplete dictionary. -/
theorem test_buildTrie_incomplete :
    nextIs (fun t => t.trie == { child0 := .internal (.leaf 65#8) (.leaf 66#8), child1 := .absent } && t.trieValid)
      (exec .buildTrie (withDict [(65#8, [false, false]), (66#8, [false, true])] block64)) = true := by
  simp only [exec, execBuildTrie, bodyBuildTrie, withDict, buildTrie_ofPairs]
  decide +kernel

/-- V-TRIE-4. -/
theorem test_buildTrie_corrupt :
    nextIs (fun t => t.errCode.number == 0x40#8 && t.errInfo == 0x43#32)
      (exec .buildTrie (withDict [(65#8, [false]), (66#8, [true, false]), (67#8, [true])] block64)) = true := by
  simp only [exec, execBuildTrie, bodyBuildTrie, withDict, buildTrie_ofPairs]
  decide +kernel

/-- V-DEC-2. -/
theorem test_decode_stream :
    decodeStream abraTrie 64 [0x00#8, 0x00#8, 0x00#8, 0x17#8, 0x69#8, 0xCF#8, 0x68#8] = .ok (23, abra) := by
  decide +kernel

/-- V-DEC-5: N = 21 stops inside a codeword. -/
theorem test_decode_midcode :
    nextIs (fun t => t.errCode.number == 0x42#8 && t.errInfo == 0x15#32 && !t.outValid)
      (exec .decode { withInput [0x00#8, 0x00#8, 0x00#8, 0x15#8, 0x69#8, 0xCF#8, 0x68#8] block64 with
        trie := abraTrie, trieValid := true }) = true := by
  decide +kernel

/-! ## The register interface and the host -/

/-- V-MEM-7: STATUS 0x12, `wr FREQ[0], 7`. -/
theorem test_freqWindow :
    (busRead (busWrite { block64 with done := true, lenValid := true } 0x001000#24 7#32) 0x00000C#24).1 = 0x02#32 ∧
    (busRead (busWrite block64 0x001000#24 7#32) 0x001000#24).1 = 7#32 := by
  decide +kernel

/-- V-MEM-5: DICTL[65], DICTV[65]. -/
theorem test_dictWindow :
    (busRead (withDict abDict block64) 0x002208#24).1 = 0x80000001#32 ∧
    (busRead (withDict abDict block64) 0x00220C#24).1 = 0#32 := by
  decide +kernel

/-- V-MEM-1: only bits 7:0 of an IN write are stored. -/
theorem test_inWindow : (busRead (busWrite block64 0x100000#24 0x12345641#32) 0x100000#24).1 = 0x00000041#32 := by
  have ht : target 0x100000#24 = .inByte 0 := by decide
  simp [busWrite, busRead, ht, block64, State.reset, writeTarget, storedWord]

/-- V-LIFE-6 and V-LIFE-5. -/
theorem test_statusWrite :
    statusWord (busWrite { block64 with done := true, lenValid := true } 0x00000C#24 0xF0#32) = 0x12#32 ∧
    statusWord (busWrite { block64 with done := true, error := true } 0x00000C#24 0xFFFFFFFF#32) = 0x00#32 := by
  decide

/-- V-LIFE-12: a write of IN_LEN in the busy window. -/
theorem test_busyWrite :
    nextIs (fun t => t.inLen == 4#32 && t.overrun && t.program == [.wait])
      (step { latchCommand 0#32 { block64 with inLen := 4#32 } with
        delay := 3, program := [wrReg .inLen 9#32, .wait] }) = true := by
  decide

/-- V-LIFE-11. -/
theorem test_irqEn : (busRead (busWrite block64 0x000018#24 0xFFFFFFFF#32) 0x000018#24).1 = 0x00000003#32 := by decide

/-- V-MEM-9: a 16-bit access, and a write at offset 0x000002, are refused. -/
theorem test_refused :
    refusalOf (step { block64 with program := [.narrow .bits16 0#24] }) = some .narrowAccess ∧
    refusalOf (step { block64 with program := [.wr 0x000002#24 0#32] }) = some .misalignedAccess := by
  decide

/-- R89's example: `run ENCODE` begins with `W 000008 00000008`. -/
theorem test_transaction :
    BusTxn.text (.write 0x000008#24 0x00000008#32) =
      [0x57#8, 0x20#8, 0x30#8, 0x30#8, 0x30#8, 0x30#8, 0x30#8, 0x38#8, 0x20#8, 0x30#8, 0x30#8, 0x30#8, 0x30#8, 0x30#8,
       0x30#8, 0x30#8, 0x38#8] := by
  decide

/-- R88: `loads "AAAB"` is `load 41 41 41 42`. -/
theorem test_loads :
    loadsStmts "AAAB" =
      [.wr 0x100000#24 0x41#32, .wr 0x100004#24 0x41#32, .wr 0x100008#24 0x41#32, .wr 0x10000C#24 0x42#32,
       .wr 0x00001C#24 4#32] := by
  decide

/-- R252: the output of two bytes is collected by a read of OUT_LEN and two reads of OUT. -/
theorem test_readOut :
    nextIs (fun t => t.program == [.rd 0x200000#24, .rd 0x200004#24, .wait] && t.trace == [.read 0x000020#24 2#32])
      (step { block64 with outLen := 2#32, program := [.readOut, .wait] }) = true := by
  decide

/-- R254, R259: a stage after a failed one is judged by itself. -/
theorem test_startStage :
    stageSucceeded (startStage (some []) { block64 with hostFailed := true }) = true ∧
    stageSucceeded (startStage none block64) = false := by
  decide

/-! ## The dictionary text -/

/-- V-TEXT-2: "  066\t1\r\n\n65   0". -/
theorem test_parse :
    parseDictionary [0x20#8, 0x20#8, 0x30#8, 0x36#8, 0x36#8, 0x09#8, 0x31#8, 0x0D#8, 0x0A#8, 0x0A#8, 0x36#8, 0x35#8,
      0x20#8, 0x20#8, 0x20#8, 0x30#8] = .ok [(66#8, [true]), (65#8, [false])] := by
  decide

/-- V-TEXT-3, V-TEXT-4, V-TEXT-6: "65", "256 0", "65 2". -/
theorem test_parse_errors :
    parseDictionary [0x36#8, 0x35#8] = .error .oddTokenCount ∧
    parseDictionary [0x32#8, 0x35#8, 0x36#8, 0x20#8, 0x30#8] = .error .badSymbolToken ∧
    parseDictionary [0x36#8, 0x35#8, 0x20#8, 0x32#8] = .error .badCodewordToken := by
  decide

/-- R187's example: `36 35 20 30 0A 36 36 20 31 0A`. -/
theorem test_serialise :
    serialiseDictionary (withDict abDict block64).dict =
      [0x36#8, 0x35#8, 0x20#8, 0x30#8, 0x0A#8, 0x36#8, 0x36#8, 0x20#8, 0x31#8, 0x0A#8] := by
  simp only [serialiseDictionary, withDict, serialOrder_ofPairs, tableGet_ofPairs]
  decide +kernel

/-! ## Witnesses: a state and operands that meet the hypotheses of each statement, clause by clause -/

/-- The block after the issue of a word, the engine to move next. -/
def busy64 : Machine.State := block64.withFetchWord 32 0

/-- The dictionary of "ABRACADABRA" on the block. -/
def abraBlock : Machine.State := withDict abraDict block64

/-- The weights A:3, B:1. -/
def abWeights : Table Word := tableOfPairs 0#32 [(0x41#8, 3#32), (0x42#8, 1#32)]

/-- The Fibonacci weights of TB-6. -/
def fibWeights : Table Word :=
  tableOfPairs 0#32 ((List.range 34).map (fun i => (BitVec.ofNat 8 i, BitVec.ofNat 32 (Nat.fib (i + 1)))))

theorem block64_inv : block64.Inv where
  inCapLegal := by decide
  outCapLegal := by decide
  inCanonical := rfl
  outCanonical := rfl
  nsymCounts := by
    have h : block64.dict = tableOfPairs Entry.absent [] := rfl
    rw [h, numPresent_ofPairs]
    decide +kernel
  lenBounded := fun sym => by
    have h : tableGet block64.len sym = 0#6 := tableGet_fill 0#6 sym
    simp [h]
  lenCurrent := fun h => absurd h (by decide)
  trieCurrent := fun h => absurd h (by decide)
  busyClear := fun h => absurd h (by decide)
  errorCoded := fun h => absurd h (by decide)
  infoClear := fun _ => rfl
  outCleared := fun _ => ⟨rfl, rfl⟩
  outFits := by decide

theorem busy64_inv : busy64.Inv :=
  { block64_inv with
    busyClear := fun _ => ⟨rfl, rfl, rfl, rfl⟩
    errorCoded := fun h => absurd h (by decide)
    infoClear := fun _ => rfl }

theorem block64_dictLegal : block64.dictLegal := fun sym => .inl (tableGet_fill Entry.absent sym)

/-- A dictionary of pairs reads as the first pair of a symbol. -/
theorem get_withDict (l : List (Byte × List Bool)) (s : Machine.State) (sym : Byte) :
    tableGet (withDict l s).dict sym = ((l.map (fun p => (p.1, entryOf p.2))).lookup sym).getD Entry.absent :=
  tableGet_ofPairs _ _ _

theorem abraBlock_legal : ∀ sym, (tableGet abraBlock.dict sym).legal := by
  have h : ∀ sym ∈ allBytes,
      (((abraDict.map (fun p => (p.1, entryOf p.2))).lookup sym).getD Entry.absent).legal := by decide +kernel
  intro sym
  rw [abraBlock, get_withDict]
  exact h sym (mem_allBytes sym)

theorem abraBlock_prefixFree : prefixFree abraBlock.dict := by
  let get := fun sym => ((abraDict.map (fun p => (p.1, entryOf p.2))).lookup sym).getD Entry.absent
  have h : ∀ s ∈ allBytes, (get s).valid = true → ∀ t ∈ allBytes, (get t).valid = true → s ≠ t →
      ¬ codesConflict (get s) (get t) := by decide +kernel
  intro s t
  rw [abraBlock, get_withDict, get_withDict]
  exact fun hne hs ht => h s (mem_allBytes s) hs t (mem_allBytes t) ht hne

theorem witness_stepRunsTheLatchedCommand :
    (decode busy64.latch = .ok .nop ∧ busy64.phase = .busy ∧ busy64.delay = 0) ∧
    (∃ s : Machine.State, decode s.latch = .ok .nop ∧ s.phase = .busy ∧ s.delay = 3 ∧ s.program = []) ∧
    (∃ s : Machine.State, decode s.latch = .error .opcodeReserved ∧ s.phase = .busy ∧ s.delay = 0) ∧
    (∃ s : Machine.State, s.phase = .busy ∧ s.delay ≠ 0 ∧ s.program ≠ []) ∧
    State.reset.phase = .idle :=
  ⟨by decide, ⟨{ busy64 with delay := 3 }, by decide⟩, ⟨block64.withFetchWord 32 0x0B, by decide⟩,
    ⟨{ busy64 with delay := 1, program := [.wait] }, by decide⟩, rfl⟩

theorem witness_everyCommandCompletes : engineMoves busy64 = true := by decide

theorem witness_illegalCommandOnlyReports :
    (engineMoves (block64.withFetchWord 32 0x100) = true ∧
      decode (block64.withFetchWord 32 0x100).latch = .error .rsvdNonzero) ∧
    (engineMoves (block64.withFetchWord 32 0x0B) = true ∧
      decode (block64.withFetchWord 32 0x0B).latch = .error .opcodeReserved) ∧
    block64.phase = .idle ∧ statusWord block64 = 0#32 := by decide

theorem witness_phases : block64.phase = .idle ∧ busy64.phase = .busy := by decide

/-- Each clause of the busy writes at the ends of its ranges. -/
theorem witness_busyWritesOfInputsAreDropped :
    busy64.phase = .busy ∧
    (∀ a ∈ [0x08, 0x1C, 0x2C, 0x30, 0x1000, 0x13FC, 0x100000, 0x1000FC],
      a % 4 = 0 ∧ (a = 0x08 ∨ a = 0x1C ∨ a = 0x2C ∨ a = 0x30 ∨ (0x1000 ≤ a ∧ a < 0x1400) ∨
        (0x100000 ≤ a ∧ a < 0x200000 ∧ (a - 0x100000) / 4 < busy64.inCap))) ∧
    (∀ a ∈ [0x00, 0x04, 0x10, 0x14, 0x20, 0x34, 0x3C, 0xFFC, 0x1400, 0x100100, 0x200000, 0xFFFFFC],
      a % 4 = 0 ∧ a ≠ 0x0C ∧ a ≠ 0x18 ∧ ¬ (a = 0x08 ∨ a = 0x1C ∨ a = 0x2C ∨ a = 0x30 ∨ (0x1000 ≤ a ∧ a < 0x1400) ∨
        (0x100000 ≤ a ∧ a < 0x200000 ∧ (a - 0x100000) / 4 < busy64.inCap))) := by decide

theorem witness_busyReadsThatAreNotFree : busy64.Inv ∧ busy64.phase = .busy ∧ 63 < busy64.inCap :=
  ⟨busy64_inv, rfl, by decide⟩

theorem witness_inWindowStoresBytes :
    (63 < block64.inCap ∧ block64.phase = .idle) ∧ (0 < busy64.inCap ∧ busy64.phase = .busy) ∧
    (block64.inCap ≤ 64 ∧ 64 < 262144) ∧ (block64.inCap ≤ 262143 ∧ 262143 < 262144) := by decide

theorem witness_resultWindowsAreReadOnly : block64.phase = .idle ∧ 63 < block64.outCap ∧ 262143 < 262144 := by decide

theorem witness_reservedOffsetsReadZero :
    ∀ off ∈ [0x000040#24, 0x000FFC#24, 0x001800#24, 0x001FFC#24, 0x002800#24, 0x0FFFFC#24, 0x300000#24, 0xFFFFFC#24],
      (0x40 ≤ off.toNat ∧ off.toNat < 0x1000) ∨ (0x1800 ≤ off.toNat ∧ off.toNat < 0x2000) ∨
        (0x2800 ≤ off.toNat ∧ off.toNat < 0x100000) ∨ 0x300000 ≤ off.toNat := by simp

theorem witness_onlyThreeWritesHaveSideEffects :
    block64.phase = .idle ∧ busy64.phase = .busy ∧
    (∀ a ∈ [0x18, 0x1C, 0x2C, 0x30], a % 4 = 0) ∧
    (∀ a ∈ [0x100000, 0x1000FC],
      a % 4 = 0 ∧ 0x100000 ≤ a ∧ a < 0x200000 ∧ (a - 0x100000) / 4 < block64.inCap) ∧
    (∀ a ∈ [0x00, 0x20, 0x34, 0x3C, 0xFFC, 0x1400, 0x0FFFFC, 0x100100, 0x1FFFFC, 0x200000, 0xFFFFFC],
      a % 4 = 0 ∧ a ≠ 0x08 ∧ a ≠ 0x0C ∧ ¬ (0x1000 ≤ a ∧ a < 0x1400) ∧ a ≠ 0x18 ∧ a ≠ 0x1C ∧ a ≠ 0x2C ∧ a ≠ 0x30 ∧
        ¬ (0x100000 ≤ a ∧ a < 0x200000 ∧ (a - 0x100000) / 4 < block64.inCap)) := by decide

theorem witness_narrowAndMisalignedAccessesAreRefused :
    engineMoves { block64 with program := [.narrow .bits8 0#24] } = false ∧
    (∀ stmt ∈ [HostStmt.rd 1#24, .wr 2#24 0#32, .check 3#24 0#32, .checkm 0xFFFFFF#24 0#32 0#32],
      engineMoves { block64 with program := [stmt] } = false) ∧
    (∀ off ∈ [1#24, 2#24, 3#24, 0xFFFFFF#24], off.toNat % 4 ≠ 0) := ⟨by decide, by decide, by simp⟩

theorem witness_admittedProgramsAreNeverRefused : { block64 with program := [.rd 0#24, .wait, .reset] }.admitted := by
  have h : ∀ stmt ∈ [HostStmt.rd 0#24, .wait, .reset], stmt.admitted = true := by decide
  exact h

theorem witness_hardwareResetRestoresResetValues :
    engineMoves { busy64 with delay := 1, program := [.reset] } = false ∧
    engineMoves { block64 with program := [.reset, .wait] } = false := by decide

theorem witness_stepKeepsTheInvariants :
    block64.Inv ∧ block64.dictLegal ∧ block64.dictIsCode ∧ block64.dictIsCanonical ∧ engineMoves block64 = false ∧ step block64 = .next block64 :=
  ⟨block64_inv, block64_dictLegal, fun _ => canonical_zero.symm, dictIsCanonical_of_empty rfl, rfl, rfl⟩

/-- The engine's step from a state with the invariants. -/
theorem witness_stepKeepsTheInvariants_engine :
    busy64.Inv ∧ busy64.dictIsCode ∧ busy64.dictIsCanonical ∧ engineMoves busy64 = true ∧
    (∀ i, decode busy64.latch = .ok i → ¬ partsDictFromLen i) ∧ decode busy64.latch ≠ .ok .dictWrite ∧
    ∃ t, step busy64 = .next t := by
  refine ⟨busy64_inv, fun _ => canonical_zero.symm, dictIsCanonical_of_empty rfl, rfl, fun i hi => ?_, by decide, _,
    rfl⟩
  have hn : decode busy64.latch = .ok .nop := by decide
  rw [hn] at hi
  cases hi
  unfold partsDictFromLen
  decide

theorem witness_commandsWriteOnlyTheirOwnState : ∀ i : Instr, ∃ t, exec i block64 = .next t :=
  fun i => ⟨_, exec_eq i block64⟩

theorem witness_inputFits : (withInput aaab block64).inLen.toNat ≤ (withInput aaab block64).inCap ∧
    (withInput [] block64).inLen.toNat ≤ (withInput [] block64).inCap := by decide

theorem witness_badLength : block64.inCap < { block64 with inLen := 65#32 }.inLen.toNat := by decide

theorem abWeights_lengths : symbolLengths abWeights = [(0x42#8, 1), (0x41#8, 1)] := by
  rw [symbolLengths, abWeights, presentSymbols_ofPairs]
  decide +kernel

theorem abWeights_len (s : Byte) : tableGet (lengthTable (huffmanLengths abWeights)) s =
    if s = 0x42#8 ∨ s = 0x41#8 then 1#6 else 0#6 := by
  rw [lengthTable, tableGet_of, huffmanLengths, tableGet_ofPairs, abWeights_lengths]
  by_cases hb : s = 0x42#8
  · simp [hb]
  · by_cases ha : s = 0x41#8 <;> simp [hb, ha, List.lookup, beq_eq_false_iff_ne.2]

theorem abWeights_shallow : maxLength (huffmanLengths abWeights) ≤ 32 := by
  rw [huffmanLengths, abWeights_lengths, maxLength_ofPairs]
  decide +kernel

theorem aaab_shallow : maxLength (huffmanLengths (countInput (withInput aaab block64)).freq) ≤ 32 := by
  rw [huffmanLengths, aaab_lengths, maxLength_ofPairs]
  decide +kernel

theorem fibWeights_deep : 32 < maxLength (huffmanLengths fibWeights) := by
  rw [huffmanLengths, maxLength_ofPairs, symbolLengths, fibWeights, presentSymbols_ofPairs]
  decide +kernel

theorem witness_buildTreeStoresLengths :
    maxLength (huffmanLengths abWeights) ≤ 32 ∧ 32 < maxLength (huffmanLengths fibWeights) :=
  ⟨abWeights_shallow, fibWeights_deep⟩

theorem witness_smallAlphabets :
    presentSymbols (tableOfPairs 0#32 []) = [] ∧ presentSymbols (tableOfPairs 0#32 [(7#8, 5#32)]) = [7#8] ∧
    presentSymbols abWeights = [0x41#8, 0x42#8] := by
  rw [abWeights, presentSymbols_ofPairs, presentSymbols_ofPairs, presentSymbols_ofPairs]
  decide +kernel

theorem witness_countedWeights : (withInput aaab block64).inLen.toNat ≤ 262144 := by decide

theorem witness_assignCodes : { block64 with lenValid := true }.lenValid = true ∧ block64.lenValid = false := by decide

/-- With A:3, B:1 both codewords have one bit: A has nothing before it, and A stands next before B. -/
theorem witness_canonicalCodesFollowTheOrder :
    maxLength (huffmanLengths abWeights) ≤ 32 ∧
    (∀ s, tableGet (lengthTable (huffmanLengths abWeights)) s ≠ 0#6 → s = 0x42#8 ∨ s = 0x41#8) ∧
    tableGet (lengthTable (huffmanLengths abWeights)) 0x41#8 = 1#6 ∧
    tableGet (lengthTable (huffmanLengths abWeights)) 0x42#8 = 1#6 := by
  refine ⟨abWeights_shallow, fun s hs => ?_, by rw [abWeights_len]; decide, by rw [abWeights_len]; decide⟩
  rw [abWeights_len] at hs
  by_contra h
  exact hs (if_neg h)

/-- The hypothesis of BUILD_TREE's tree, on a state. -/
theorem witness_buildTreeFollowsTheLoop : 2 ≤ (presentSymbols { block64 with freq := abWeights }.freq).length := by
  show 2 ≤ (presentSymbols abWeights).length
  rw [witness_smallAlphabets.2.2]
  decide

/-- The loop of R131 on A:3, B:1: B is the node of the least key and joins A. -/
theorem test_mergesTo :
    MergesTo [{ weight := 3, least := 0x41, tree := .leaf 0x41#8 }, { weight := 1, least := 0x42, tree := .leaf 0x42#8 }]
      { weight := 4, least := 0x41, tree := .node (.leaf 0x42#8) (.leaf 0x41#8) } :=
  .merge (a := { weight := 1, least := 0x42, tree := .leaf 0x42#8 })
    (b := { weight := 3, least := 0x41, tree := .leaf 0x41#8 }) (rest := []) (List.Perm.swap ..) (by decide) (by decide)
    (.done _)

theorem witness_canonicalComplete :
    2 ≤ (presentSymbols abWeights).length ∧ 32 ≤ (List.replicate 32 true).length := by
  rw [witness_smallAlphabets.2.2]
  decide

theorem witness_buildDict :
    WellFormed.capacity (withInput aaab block64).inCap = true ∧
    maxLength (huffmanLengths (countInput (withInput aaab block64)).freq) ≤ 32 := ⟨by decide, aaab_shallow⟩

/-- `dput 0, "1"` with 32 ones (V-DICT-2), on the empty dictionary. -/
theorem witness_dictWriteStoresANewPair :
    block64.dictBad = false ∧ (0x00002000#32).extractLsb' 14 18 = 0#18 ∧
    ((0x00002000#32).extractLsb' 8 6).toNat = 32 ∧ (0xFFFFFFFF#32).toNat < 2 ^ 32 ∧
    (∀ t, tableGet block64.dict t ≠ { valid := true, len := 32#6, val := 0xFFFFFFFF#32 }) ∧
    (tableGet block64.dict 0#8).valid = false := by
  refine ⟨by decide, by decide, by decide, by decide, fun t h => ?_, ?_⟩
  · have ha : tableGet block64.dict t = Entry.absent := tableGet_fill Entry.absent t
    rw [ha] at h
    exact absurd h (by decide)
  · have ha : tableGet block64.dict 0#8 = Entry.absent := tableGet_fill Entry.absent 0#8
    rw [ha]
    decide

/-- The dictionary A "0" of `dput 65, "0"`. -/
def aBlock : Machine.State := withDict [(0x41#8, [false])] block64

/-- V-DICT-12, V-DICT-3, V-DICT-4, V-DICT-6, V-DICT-7. -/
theorem witness_dictWriteMalformed :
    { block64 with dictBad := true }.dictBad = true ∧
    ∀ p ∈ [(0x00000041#32, 0#32), (0x00002141#32, 0#32), (0x00000141#32, 2#32), (0x00004141#32, 0#32)],
      malformedOperand { block64 with arg0 := p.1, arg1 := p.2 } = true := by
  simp [malformedOperand, argReserved, argLength, wellFormedCode, Config.maxCodeLen]

/-- V-DICT-8 (the holder of "0" is 65), V-DICT-9 (nobody holds "1", 65 is present). -/
theorem witness_dictWriteDuplicates :
    (malformedOperand { aBlock with arg0 := 0x00000142#32, arg1 := 0#32 } = false ∧
      tableGet aBlock.dict 0x41#8 = { valid := true, len := 1#6, val := 0#32 } ∧
      ∀ u, tableGet aBlock.dict u = { valid := true, len := 1#6, val := 0#32 } → u = 0x41#8) ∧
    (malformedOperand { aBlock with arg0 := 0x00000141#32, arg1 := 1#32 } = false ∧
      (∀ t, tableGet aBlock.dict t ≠ { valid := true, len := 1#6, val := 1#32 }) ∧
      (tableGet aBlock.dict 0x41#8).valid = true) := by
  have hget : ∀ u, tableGet aBlock.dict u = if u = 0x41#8 then entryOf [false] else Entry.absent := by
    intro u
    rw [aBlock, get_withDict]
    by_cases h : u = 0x41#8 <;> simp [h, List.lookup, beq_eq_false_iff_ne.2]
  refine ⟨⟨by decide, by rw [hget]; decide, fun u hu => ?_⟩, ⟨by decide, fun t ht => ?_, by rw [hget]; decide⟩⟩
  · rw [hget] at hu
    by_contra h
    rw [if_neg h] at hu
    exact absurd hu (by decide)
  · rw [hget] at ht
    split at ht <;> exact absurd ht (by decide)

theorem witness_dput : 1 ≤ [true].length ∧ (List.replicate 32 true).length ≤ 32 := by decide

theorem witness_encodeWritesTheStream :
    let s := withInput abra abraBlock
    s.inLen.toNat ≤ s.inCap ∧ s.dictBad = false ∧
    (∀ k, k < s.inLen.toNat → (tableGet s.dict (s.inBuf.read k)).valid = true) ∧
    (encodeBits s.dict (inputBytes s)).length = 23 ∧ 4 + (23 + 7) / 8 ≤ s.outCap := by decide +kernel

/-- V-ENC-15, V-ENC-14. -/
theorem witness_encodeChecks :
    { block64 with inLen := 65#32 }.inCap < { block64 with inLen := 65#32 }.inLen.toNat ∧
    (let s := { withInput [0x41#8] block64 with dictBad := true }
     s.inLen.toNat ≤ s.inCap ∧ s.dictBad = true) := by decide

/-- V-ENC-11 and V-ENC-13. -/
theorem witness_encodeErrors :
    (let s := withInput [0x41#8, 0x42#8, 0x43#8] (withDict abDict block64)
     s.inLen.toNat ≤ s.inCap ∧ s.dictBad = false ∧ 2 < s.inLen.toNat ∧
       (tableGet s.dict (s.inBuf.read 2)).valid = false ∧
       ∀ j, j < 2 → (tableGet s.dict (s.inBuf.read j)).valid = true) ∧
    (let s := { block64 with outCap := 3 }
     s.inLen.toNat ≤ s.inCap ∧ s.dictBad = false ∧
       (∀ k, k < s.inLen.toNat → (tableGet s.dict (s.inBuf.read k)).valid = true) ∧
       (encodeBits s.dict (inputBytes s)).length < 2 ^ 32 ∧
       s.outCap < 4 + ((encodeBits s.dict (inputBytes s)).length + 7) / 8) := by decide +kernel

/-- A count of 2^32 bits: 2^27 bytes under a dictionary whose codewords are all 32 bits long. No legal IN_CAP admits it
(45_bitstream_encoder.md R205). -/
theorem witness_bitCountOverflow :
    ∃ s : Machine.State, s.inLen.toNat ≤ s.inCap ∧ s.dictBad = false ∧
      (∀ k, k < s.inLen.toNat → (tableGet s.dict (s.inBuf.read k)).valid = true) ∧
      2 ^ 32 ≤ (encodeBits s.dict (inputBytes s)).length := by
  refine ⟨{ block64 with
    inCap := 2 ^ 27, inLen := BitVec.ofNat 32 (2 ^ 27), dict := tableFill { valid := true, len := 32#6, val := 0#32 } },
    by decide, by decide, fun k _ => by simp, ?_⟩
  have h : ∀ bytes : List Byte,
      (encodeBits (tableFill { valid := true, len := 32#6, val := 0#32 }) bytes).length = 32 * bytes.length := by
    intro bytes
    induction bytes with
    | nil => rfl
    | cons b bytes ih =>
      have hb : (Entry.bits { valid := true, len := 32#6, val := 0#32 }).length = 32 := by decide
      simp only [encodeBits, List.flatMap_cons, List.length_append, tableGet_fill, hb, List.length_cons] at ih ⊢
      omega
  rw [h]
  simp

theorem witness_buildTrie :
    { abraBlock with dictBad := true }.dictBad = true ∧ abraBlock.dictBad = false ∧
    (∀ sym, (tableGet abraBlock.dict sym).legal) ∧ prefixFree abraBlock.dict ∧
    buildTrie (withDict [(65#8, [false]), (66#8, [true, false]), (67#8, [true])] block64).dict = .error 67#8 ∧
    buildTrie abraBlock.dict = .ok abraTrie := by
  refine ⟨rfl, rfl, abraBlock_legal, abraBlock_prefixFree, ?_, ?_⟩
  · rw [withDict, buildTrie_ofPairs]
    decide +kernel
  · rw [abraBlock, withDict, buildTrie_ofPairs]
    decide +kernel

/-- V-DEC-1, with the trie of A "0", B "1". -/
theorem witness_decodeEmits :
    let s : Machine.State := { withInput [0#8, 0#8, 0#8, 4#8, 0x10#8] block64 with
      trieValid := true, trie := { child0 := .leaf 0x41#8, child1 := .leaf 0x42#8 } }
    let syms : List (Byte × List Bool) :=
      [(0x41#8, [false]), (0x41#8, [false]), (0x41#8, [false]), (0x42#8, [true])]
    s.inLen.toNat ≤ s.inCap ∧ s.trieValid = true ∧ (∀ p ∈ syms, s.trie.reach p.2 = .leaf p.1) ∧
    (syms.flatMap (fun p => p.2)).length = 4 ∧ 4 + (4 + 7) / 8 ≤ s.inLen.toNat ∧
    (s.inBuf.read 0).toNat * 2 ^ 24 + (s.inBuf.read 1).toNat * 2 ^ 16 + (s.inBuf.read 2).toNat * 2 ^ 8
      + (s.inBuf.read 3).toNat = 4 ∧
    (∀ j, j < 4 → (s.inBuf.read (4 + j / 8)).getLsbD (7 - j % 8) = (syms.flatMap (fun p => p.2)).getD j false) ∧
    syms.length ≤ s.outCap := by decide +kernel

/-- V-DEC-17, V-DEC-16, V-DEC-8, V-DEC-7. -/
theorem witness_decodeErrorsBeforeTheWalk :
    { block64 with inLen := 65#32 }.inCap < { block64 with inLen := 65#32 }.inLen.toNat ∧
    (block64.inLen.toNat ≤ block64.inCap ∧ block64.trieValid = false) ∧
    (let s := { withInput [0#8, 0#8, 0#8] block64 with trieValid := true }
     s.inLen.toNat ≤ s.inCap ∧ s.trieValid = true ∧ s.inLen.toNat < 4) ∧
    (let s := { withInput [0#8, 0#8, 0#8, 4#8] block64 with trieValid := true }
     s.inLen.toNat ≤ s.inCap ∧ s.trieValid = true ∧ 4 ≤ s.inLen.toNat ∧
       s.inLen.toNat - 4 < ((s.inBuf.read 0).toNat * 2 ^ 24 + (s.inBuf.read 1).toNat * 2 ^ 16
         + (s.inBuf.read 2).toNat * 2 ^ 8 + (s.inBuf.read 3).toNat + 7) / 8) := by decide +kernel

/-- The common hypotheses of the walk's errors. -/
def walkPremises (s : Machine.State) (syms : List (Byte × List Bool)) (tail : List Bool) (n : Nat) : Bool :=
  let bits := syms.flatMap (fun p => p.2) ++ tail
  s.inLen.toNat ≤ s.inCap && s.trieValid && syms.all (fun p => s.trie.reach p.2 == .leaf p.1) &&
    syms.length ≤ s.outCap &&
    (s.inBuf.read 0).toNat * 2 ^ 24 + (s.inBuf.read 1).toNat * 2 ^ 16 + (s.inBuf.read 2).toNat * 2 ^ 8
      + (s.inBuf.read 3).toNat == n &&
    4 + (n + 7) / 8 ≤ s.inLen.toNat && bits.length ≤ n &&
    (List.range bits.length).all (fun j => (s.inBuf.read (4 + j / 8)).getLsbD (7 - j % 8) == bits.getD j false) &&
    tail != []

/-- V-DEC-10: the trie of {90:"0"}, one bit 1. -/
theorem witness_invalidCode :
    let s : Machine.State := { withInput [0#8, 0#8, 0#8, 1#8, 0x80#8] block64 with
      trieValid := true, trie := { child0 := .leaf 90#8, child1 := .absent } }
    walkPremises s [] [true] 1 = true ∧ s.trie.reach ([true].dropLast) = .internal (.leaf 90#8) .absent ∧
      s.trie.reach [true] = .absent := by decide +kernel

/-- V-DEC-15: OUT_CAP = 3, the fourth symbol. -/
theorem witness_decodeOverflow :
    let s : Machine.State := { withInput [0#8, 0#8, 0#8, 4#8, 0x10#8] block64 with
      outCap := 3, trieValid := true, trie := { child0 := .leaf 0x41#8, child1 := .leaf 0x42#8 } }
    let a : Byte × List Bool := (0x41#8, [false])
    walkPremises s [a, a, a] [true] 4 = true ∧ s.trie.reach [true] = .leaf 0x42#8 ∧ [a, a, a].length = s.outCap := by
  decide +kernel

/-- V-DEC-6: two bits 1,1 stop inside a codeword. -/
theorem witness_decodeMidcode :
    let s : Machine.State := { withInput [0#8, 0#8, 0#8, 2#8, 0xC0#8] block64 with trieValid := true, trie := abraTrie }
    walkPremises s [] [true, true] 2 = true ∧
      s.trie.reach [true, true] = .internal (.leaf 0x42#8) (.internal (.leaf 0x43#8) (.leaf 0x44#8)) := by
  decide +kernel

theorem witness_truncatedStreams :
    ∃ s t u : Machine.State, s.error = false ∧ exec .encode s = .next t ∧ t.error = false ∧ t.bitCount ≠ 0#32 ∧
      u.trieValid = true ∧ u.inLen = t.outLen - 1#32 ∧ u.inLen.toNat ≤ u.inCap ∧
      ∀ k, k < u.inLen.toNat → u.inBuf.read k = t.outBuf.read k :=
  ⟨withInput aaab (withDict abDict block64), complete (bodyEncode (withInput aaab (withDict abDict block64))),
    { block64 with
      trieValid := true
      inLen := 4#32
      inBuf := (complete (bodyEncode (withInput aaab (withDict abDict block64)))).outBuf },
    rfl, rfl, by decide +kernel, by decide +kernel, rfl, by decide +kernel, by decide, fun _ _ => rfl⟩

theorem witness_roundTrip :
    let s := withInput aaab block64
    let total := 4 + ((encodeBits (canonical (lengthTable (huffmanLengths (countInput s).freq)))
      (inputBytes s)).length + 7) / 8
    WellFormed.capacity s.inCap = true ∧ s.inLen.toNat ≤ s.inCap ∧
    maxLength (huffmanLengths (countInput s).freq) ≤ 32 ∧ total ≤ s.outCap ∧ total ≤ s.inCap ∧
    s.inLen.toNat ≤ s.outCap := by
  refine ⟨by decide, by decide, aaab_shallow, ?_⟩
  simp only [huffmanLengths, aaab_lengths, canonical, aaab_sorted, encodeBits, tableGet_ofPairs]
  decide +kernel

/-- The state that holds the stream and the trie, for any `b` and `c`. -/
theorem witness_roundTrip_copied (b c : Machine.State) :
    let u := { c with inBuf := b.outBuf, inLen := b.outLen }
    u.trie = c.trie ∧ u.trieValid = c.trieValid ∧ u.inLen = b.outLen ∧
    ∀ k, k < b.outLen.toNat → u.inBuf.read k = b.outBuf.read k := ⟨rfl, rfl, rfl, fun _ _ => rfl⟩

theorem witness_singleton :
    let s := withInput [0x5A#8, 0x5A#8, 0x5A#8, 0x5A#8] block64
    1 ≤ s.inLen.toNat ∧ s.inLen.toNat ≤ s.inCap ∧ (∀ k, k < s.inLen.toNat → s.inBuf.read k = 0x5A#8) ∧
    4 + (s.inLen.toNat + 7) / 8 ≤ s.outCap := by decide

theorem witness_emptyInput :
    block64.inLen = 0#32 ∧ 4 ≤ block64.outCap ∧
    (withInput [0#8, 0#8, 0#8, 0#8] block64).inLen = 4#32 ∧ 4 ≤ (withInput [0#8, 0#8, 0#8, 0#8] block64).inCap ∧
    inputBytes (withInput [0#8, 0#8, 0#8, 0#8] block64) = [0x00#8, 0x00#8, 0x00#8, 0x00#8] := by decide

theorem witness_serialised :
    (∀ sym, (tableGet abraBlock.dict sym).legal) ∧
    (∀ a b, a ≠ b → (tableGet abraBlock.dict a).valid = true → (tableGet abraBlock.dict b).valid = true →
      tableGet abraBlock.dict a ≠ tableGet abraBlock.dict b) :=
  ⟨abraBlock_legal, fun a b hne ha hb he =>
    abraBlock_prefixFree a b hne ha hb (.inl (by rw [he]))⟩

theorem witness_everyWaitEnds :
    { block64 with program := [.wait] }.program = [.wait] ∧
    { busy64 with delay := 5, program := [.wait, .reset] }.program = [.wait, .reset] := ⟨rfl, rfl⟩

end Sys2Proof.Tests
end

section
/-! PROOFS. The weighted tree (42_tree_builder.md R130 to R136): the model's loop is the relation `MergesTo`, and from
that relation the Kraft inequality of the code lengths and the Fibonacci bound on their depth. -/

namespace Sys2Proof.Machine

/-! ## The least key -/

theorem keyLe_refl (a : QNode) : keyLe a a := .inr ⟨rfl, le_rfl⟩

theorem keyLe_trans {a b c : QNode} (hab : keyLe a b) (hbc : keyLe b c) : keyLe a c := by
  simp only [keyLe] at *
  omega

theorem keyLe_weight {a b : QNode} (h : keyLe a b) : a.weight ≤ b.weight := by
  simp only [keyLe] at h
  omega

theorem keyLt_iff {a b : QNode} :
    keyLt a b = true ↔ a.weight < b.weight ∨ (a.weight = b.weight ∧ a.least < b.least) := by
  simp [keyLt]

theorem keyLe_of_keyLt {a b : QNode} (h : keyLt a b = true) : keyLe a b := by
  rw [keyLt_iff] at h
  simp only [keyLe]
  omega

theorem keyLe_of_not_keyLt {a b : QNode} (h : ¬ keyLt b a = true) : keyLe a b := by
  rw [keyLt_iff] at h
  simp only [keyLe]
  omega

/-- `extractLeast` takes a least node out of the collection and keeps the others. -/
theorem extractLeast_spec (a : QNode) (q : List QNode) :
    ((extractLeast a q).1 :: (extractLeast a q).2).Perm (a :: q) ∧ ∀ x ∈ a :: q, keyLe (extractLeast a q).1 x := by
  induction q generalizing a with
  | nil => simp [extractLeast, keyLe_refl]
  | cons b q ih =>
    rw [extractLeast]
    split
    next hlt =>
      obtain ⟨hperm, hleast⟩ := ih b
      refine ⟨(List.Perm.swap ..).trans (hperm.cons a), List.forall_mem_cons.2 ⟨?_, hleast⟩⟩
      exact keyLe_trans (hleast b List.mem_cons_self) (keyLe_of_keyLt hlt)
    next hge =>
      obtain ⟨hperm, hleast⟩ := ih a
      have ha := hleast a List.mem_cons_self
      refine ⟨((List.Perm.swap ..).trans (hperm.cons b)).trans (List.Perm.swap ..), ?_⟩
      intro x hx
      rcases List.mem_cons.1 hx with rfl | hx
      · exact ha
      · rcases List.mem_cons.1 hx with rfl | hx
        · exact keyLe_trans ha (keyLe_of_not_keyLt hge)
        · exact hleast x (List.mem_cons_of_mem _ hx)

/-! ## The loop -/

/-- The loop of R131 comes down to a root, by the steps `MergesTo` allows, when the fuel lets it finish. -/
theorem mergeNodes_mergesTo {fuel : Nat} {q : List QNode} (hne : q ≠ []) (hfuel : q.length ≤ fuel + 1) :
    ∃ root, mergeNodes fuel q = some root ∧ MergesTo q root := by
  induction fuel generalizing q with
  | zero =>
    match q, hne with
    | [a], _ => exact ⟨a, rfl, .done a⟩
    | _ :: _ :: _, _ => simp at hfuel
  | succ fuel ih =>
    match q, hne with
    | [a], _ => exact ⟨a, rfl, .done a⟩
    | x :: y :: q, _ =>
      obtain ⟨hperm, hleast⟩ := extractLeast_spec x (y :: q)
      rw [mergeNodes]
      cases hrest : (extractLeast x (y :: q)).2 with
      | nil => simpa [hrest] using hperm.length_eq
      | cons z rest =>
        obtain ⟨hperm', hleast'⟩ := extractLeast_spec z rest
        rw [hrest] at hperm
        have hsplit := hperm.symm.trans (hperm'.symm.cons _)
        obtain ⟨root, heq, hgo⟩ :=
          ih (q := joinNodes (extractLeast x (y :: q)).1 (extractLeast z rest).1 :: (extractLeast z rest).2) (by simp)
            (by have := hsplit.length_eq; simp only [List.length_cons] at this hfuel ⊢; omega)
        exact ⟨root, heq, .merge hsplit hleast
          (fun v hv => hleast' v (hperm'.mem_iff.1 (List.mem_cons_of_mem _ hv))) hgo⟩

/-- The code lengths of R131 and R133: none, the sole symbol at length 1, or the depths of the leaves of a tree the
loop of R131 comes down to. -/
theorem symbolLengths_cases (f : Table Word) :
    symbolLengths f = [] ∨ (∃ p, symbolLengths f = [(p, 1)]) ∨
    ∃ root, MergesTo ((presentSymbols f).map (leafNode f)) root ∧ symbolLengths f = root.tree.depths 0 := by
  unfold symbolLengths
  split
  next => exact .inl rfl
  next p _ => exact .inr (.inl ⟨p, rfl⟩)
  next p q rest hp =>
    obtain ⟨root, heq, hgo⟩ := mergeNodes_mergesTo (fuel := (p :: q :: rest).length)
      (q := (p :: q :: rest).map (leafNode f)) (by simp) (by simp)
    exact .inr (.inr ⟨root, hp ▸ hgo, by rw [heq]⟩)

theorem mergesTo_weight {q : List QNode} {root : QNode} (h : MergesTo q root) :
    root.weight = (q.map QNode.weight).sum := by
  induction h with
  | done a => simp
  | merge split _ _ _ ih =>
    rw [ih, (split.map QNode.weight).sum_eq]
    simp [Nat.add_assoc]

/-! ## Depths of leaves -/

/-- The length of the longest path from the root of a tree to a leaf. -/
def HuffTree.height : HuffTree → Nat
  | .leaf _ => 0
  | .node a b => max a.height b.height + 1

theorem depths_le_height {t : HuffTree} {d : Nat} {p : Byte × Nat} (h : p ∈ t.depths d) : p.2 ≤ d + t.height := by
  induction t generalizing d with
  | leaf s => simp_all [HuffTree.depths, HuffTree.height]
  | node a b iha ihb =>
    simp only [HuffTree.height]
    rcases List.mem_append.1 h with h | h
    · have := iha h
      omega
    · have := ihb h
      omega

/-- The Kraft equality of a tree, scaled by `2 ^ m`. -/
theorem depths_kraft (t : HuffTree) {d m : Nat} (h : d + t.height ≤ m) :
    ((t.depths d).map (fun p => 2 ^ (m - p.2))).sum = 2 ^ (m - d) := by
  induction t generalizing d with
  | leaf s => simp [HuffTree.depths]
  | node a b iha ihb =>
    simp only [HuffTree.height] at h
    have hm : m - d = m - (d + 1) + 1 := by omega
    simp only [HuffTree.depths, List.map_append, List.sum_append]
    rw [iha (by omega), ihb (by omega), hm]
    ring

/-- The Kraft inequality of the code lengths (43_canonical_assigner.md R153), at a scale `m` that no length passes. -/
theorem symbolLengths_kraft (f : Table Word) :
    ∃ m, (∀ p ∈ symbolLengths f, p.2 ≤ m) ∧ ((symbolLengths f).map (fun p => 2 ^ (m - p.2))).sum ≤ 2 ^ m := by
  rcases symbolLengths_cases f with h | ⟨p, h⟩ | ⟨root, -, h⟩ <;> rw [h]
  · exact ⟨0, by simp, by simp⟩
  · exact ⟨1, by simp, by simp⟩
  · refine ⟨root.tree.height, fun p hp => ?_, (depths_kraft root.tree (Nat.zero_add _).le).le⟩
    simpa using depths_le_height hp

/-! ## The Fibonacci bound (R136) -/

/-- A node weighs at least the Fibonacci number that its height asks for. -/
def fibHeavy (a : QNode) : Prop := Nat.fib (a.tree.height + 2) ≤ a.weight

/-- Each of two nodes of a collection weighs at least what a child of the other may weigh at its height. -/
def fibMatched (a b : QNode) : Prop :=
  Nat.fib (a.tree.height + 1) ≤ b.weight ∧ Nat.fib (b.tree.height + 1) ≤ a.weight

theorem fibMatched_symm {a b : QNode} (h : fibMatched a b) : fibMatched b a := ⟨h.2, h.1⟩

/-- Joining keeps a node heavy: the higher child and its sibling weigh consecutive Fibonacci numbers. -/
theorem fibHeavy_joinNodes {a b : QNode} (ha : fibHeavy a) (hb : fibHeavy b) (hab : fibMatched a b) :
    fibHeavy (joinNodes a b) := by
  have hfib : ∀ n, Nat.fib (n + 3) = Nat.fib (n + 1) + Nat.fib (n + 2) := fun n => Nat.fib_add_two
  simp only [fibHeavy, fibMatched, joinNodes, HuffTree.height] at *
  rcases le_total a.tree.height b.tree.height with h | h
  · rw [max_eq_right h, hfib]
    omega
  · rw [max_eq_left h, hfib]
    omega

/-- The parent of the two least nodes is matched with every other node. -/
theorem fibMatched_joinNodes {a b x : QNode} (ha : fibHeavy a) (hb : fibHeavy b) (hax : a.weight ≤ x.weight)
    (hbx : b.weight ≤ x.weight) (hm : fibMatched a x) : fibMatched (joinNodes a b) x := by
  refine ⟨?_, hm.2.trans (Nat.le_add_right _ _)⟩
  simp only [fibHeavy, joinNodes, HuffTree.height] at *
  rcases le_total a.tree.height b.tree.height with h | h
  · rw [max_eq_right h]
    exact hb.trans hbx
  · rw [max_eq_left h]
    exact ha.trans hax

/-- The root of a loop over heavy, matched nodes is heavy. -/
theorem mergesTo_fibHeavy {q : List QNode} {root : QNode} (h : MergesTo q root) (hh : ∀ a ∈ q, fibHeavy a)
    (hm : q.Pairwise fibMatched) : fibHeavy root := by
  induction h with
  | done a => exact hh a List.mem_cons_self
  | @merge q rest a b root split first second go ih =>
    rw [split.pairwise_iff fibMatched_symm, List.pairwise_cons, List.pairwise_cons] at hm
    obtain ⟨hma, -, hmrest⟩ := hm
    have hh' : ∀ x ∈ a :: b :: rest, fibHeavy x := fun x hx => hh x (split.mem_iff.2 hx)
    have ha : fibHeavy a := hh' a (by simp)
    have hb : fibHeavy b := hh' b (by simp)
    refine ih (List.forall_mem_cons.2 ⟨?_, fun x hx => hh' x (by simp [hx])⟩) (List.pairwise_cons.2 ⟨?_, hmrest⟩)
    · exact fibHeavy_joinNodes ha hb (hma b (by simp))
    · intro x hx
      exact fibMatched_joinNodes ha hb (keyLe_weight (first x (split.mem_iff.2 (by simp [hx]))))
        (keyLe_weight (second x hx)) (hma x (by simp [hx]))

theorem leafNode_weight_pos {f : Table Word} {s : Byte} (h : s ∈ presentSymbols f) : 1 ≤ (leafNode f s).weight := by
  have hne : tableGet f s ≠ 0#32 := by simpa [presentSymbols] using h
  have := BitVec.toNat_ne.1 hne
  simp only [leafNode, BitVec.toNat_ofNat] at *
  omega

/-- A tree built by the loop from the present symbols weighs at least the Fibonacci number of its height. -/
theorem fib_height_le_weight {f : Table Word} {root : QNode}
    (h : MergesTo ((presentSymbols f).map (leafNode f)) root) : Nat.fib (root.tree.height + 2) ≤ root.weight := by
  refine mergesTo_fibHeavy h ?_ ?_
  · intro a ha
    obtain ⟨s, hs, rfl⟩ := List.mem_map.1 ha
    exact leafNode_weight_pos hs
  · refine List.pairwise_map.2 (List.Pairwise.imp_of_mem ?_ (allBytes_nodup.filter _))
    exact fun ha hb _ => ⟨leafNode_weight_pos hb, leafNode_weight_pos ha⟩

/-- A code length over weights that sum to at most 262144 is at most 25: `fib 28` is more. -/
theorem symbolLengths_le_of_weight {f : Table Word}
    (hw : ((presentSymbols f).map (fun s => (tableGet f s).toNat)).sum ≤ 262144) :
    ∀ p ∈ symbolLengths f, p.2 ≤ 25 := by
  rcases symbolLengths_cases f with h | ⟨p, h⟩ | ⟨root, hgo, h⟩ <;> rw [h]
  · simp
  · simp
  · intro p hp
    have hle : p.2 ≤ root.tree.height := by simpa using depths_le_height hp
    have hweight : root.weight ≤ 262144 := by
      rw [mergesTo_weight hgo, List.map_map]
      exact hw
    have hfib := (fib_height_le_weight hgo).trans hweight
    by_contra hdeep
    have hmono : Nat.fib 28 ≤ Nat.fib (root.tree.height + 2) := Nat.fib_mono (by omega)
    have h28 : Nat.fib 28 = 317811 := by norm_num
    omega

/-! ## Lengths as a table -/

/-- A stored length is 0 or the length of the symbol's pair. -/
theorem huffmanLengths_mem {f : Table Word} {s : Byte} (h : tableGet (huffmanLengths f) s ≠ 0) :
    (s, tableGet (huffmanLengths f) s) ∈ symbolLengths f := by
  rw [huffmanLengths, tableGet_ofPairs] at h ⊢
  cases hl : (symbolLengths f).lookup s with
  | none => simp [hl] at h
  | some v =>
    obtain ⟨l₁, l₂, he, -⟩ := List.lookup_eq_some_iff.1 hl
    simp [he]

theorem foldl_max_le_iff {l : List Nat} {a n : Nat} : l.foldl max a ≤ n ↔ a ≤ n ∧ ∀ x ∈ l, x ≤ n := by
  induction l generalizing a with
  | nil => simp
  | cons b l ih => simp [ih, and_assoc]

theorem maxLength_le_iff {l : Table Nat} {n : Nat} : maxLength l ≤ n ↔ ∀ s, tableGet l s ≤ n := by
  simp [maxLength, table_toList, foldl_max_le_iff]

/-- The counts of the symbols of a list sum to at most its length. -/
theorem sum_freqCount_le (bytes : List Byte) (syms : List Byte) (h : syms.Nodup) :
    (syms.map (freqCount bytes)).sum ≤ bytes.length := by
  calc (syms.map (freqCount bytes)).sum = ∑ s ∈ syms.toFinset, freqCount bytes s := (List.sum_toFinset _ h).symm
    _ ≤ ∑ s, freqCount bytes s := Finset.sum_le_univ_sum_of_nonneg fun _ => Nat.zero_le _
    _ = bytes.length := by
      simpa [freqCount] using Multiset.sum_count_eq_card (s := Finset.univ) (m := (bytes : Multiset Byte)) (by simp)

/-- R136 for the weights that FREQ_COUNT stores: on a legal IN_CAP no length passes 25. -/
theorem countInput_shallow {s : State} (h : s.inLen.toNat ≤ 262144) :
    maxLength (huffmanLengths (countInput s).freq) ≤ 25 := by
  have hw : ((presentSymbols (countInput s).freq).map (fun c => (tableGet (countInput s).freq c).toNat)).sum
      ≤ 262144 := by
    calc _ ≤ ((presentSymbols (countInput s).freq).map (freqCount (inputBytes s))).sum :=
          List.sum_le_sum fun c _ => by simpa using Nat.mod_le _ _
      _ ≤ (inputBytes s).length := sum_freqCount_le _ _ (allBytes_nodup.filter _)
      _ ≤ 262144 := by simpa using h
  rw [maxLength_le_iff]
  intro c
  by_cases hc : tableGet (huffmanLengths (countInput s).freq) c = 0
  · omega
  · exact symbolLengths_le_of_weight hw _ (huffmanLengths_mem hc)

end Sys2Proof.Machine
end

section
/-! PROOFS. The canonical code of Huffman lengths has only legal entries (10_state.md R32, 43_canonical_assigner.md
R153), and a trie of legal entries fits the node store (10_state.md R35). -/

namespace Sys2Proof.Machine

/-! ## The canonical code -/

theorem sortedLengths_perm (l : Table (BitVec 6)) :
    (sortedLengths l).Perm ((allBytes.map (fun s => (s, (tableGet l s).toNat))).filter (fun p => p.2 != 0)) :=
  List.perm_insertionSort ..

/-- `E` of R150 pairs each symbol that has a length with it. -/
theorem mem_sortedLengths {l : Table (BitVec 6)} {p : Byte × Nat} :
    p ∈ sortedLengths l ↔ p.2 = (tableGet l p.1).toNat ∧ p.2 ≠ 0 := by
  obtain ⟨s, n⟩ := p
  simp only [(sortedLengths_perm l).mem_iff, List.mem_filter, List.mem_map, mem_allBytes, true_and, Prod.mk.injEq,
    bne_iff_ne, ↓existsAndEq, eq_comm (a := n)]

theorem sortedLengths_nodup (l : Table (BitVec 6)) : (sortedLengths l).Nodup :=
  (sortedLengths_perm l).nodup_iff.2
    ((allBytes_nodup.map fun _ _ h => (Prod.mk.inj h).1).filter _)

theorem sortedLengths_pairwise (l : Table (BitVec 6)) : (sortedLengths l).Pairwise (fun a b => a.2 ≤ b.2) := by
  have : Std.Total lengthOrder := ⟨fun a b => by simp only [lengthOrder]; omega⟩
  have : IsTrans (Byte × Nat) lengthOrder := ⟨fun a b c hab hbc => by simp only [lengthOrder] at *; omega⟩
  refine (List.pairwise_insertionSort lengthOrder _).imp fun {a b} h => ?_
  simp only [lengthOrder] at h
  omega

/-- The codes after one of length `prev`, when the Kraft sum up to `code` and of the rest is at most `2 ^ m`: each fits
its length. The sum up to a code, at scale `m`, is `code + 1` at the code's own length. -/
theorem codesAfter_fit {m code prev : Nat} {e : List (Byte × Nat)} (hsorted : e.Pairwise (fun a b => a.2 ≤ b.2))
    (hprev : ∀ p ∈ e, prev ≤ p.2) (hm : ∀ p ∈ e, p.2 ≤ m)
    (hkraft : (code + 1) * 2 ^ (m - prev) + (e.map (fun p => 2 ^ (m - p.2))).sum ≤ 2 ^ m) :
    ∀ c ∈ codesAfter code prev e, (c.1, c.2.1) ∈ e ∧ c.2.2 < 2 ^ c.2.1 := by
  induction e generalizing code prev with
  | nil => simp [codesAfter]
  | cons p e ih =>
    obtain ⟨s, l⟩ := p
    obtain ⟨hfirst, hsorted⟩ := List.pairwise_cons.1 hsorted
    have hpl : prev ≤ l := hprev _ List.mem_cons_self
    have hlm : l ≤ m := hm _ List.mem_cons_self
    have hscale : (code + 1) <<< (l - prev) * 2 ^ (m - l) = (code + 1) * 2 ^ (m - prev) := by
      rw [Nat.shiftLeft_eq, mul_assoc, ← pow_add]
      congr 2
      omega
    have hkraft' : ((code + 1) <<< (l - prev) + 1) * 2 ^ (m - l) + (e.map (fun p => 2 ^ (m - p.2))).sum ≤ 2 ^ m := by
      simp only [List.map_cons, List.sum_cons] at hkraft
      rw [add_mul, hscale, one_mul]
      omega
    have hfit : (code + 1) <<< (l - prev) < 2 ^ l := by
      have hpow : 2 ^ m = 2 ^ l * 2 ^ (m - l) := by rw [← pow_add]; congr 1; omega
      exact Nat.le_of_mul_le_mul_right (hpow ▸ (Nat.le_add_right _ _).trans hkraft') (by positivity)
    intro c hc
    rcases List.mem_cons.1 hc with rfl | hc
    · exact ⟨List.mem_cons_self, hfit⟩
    · obtain ⟨hmem, hlt⟩ := ih hsorted hfirst (fun p hp => hm p (List.mem_cons_of_mem _ hp)) hkraft' c hc
      exact ⟨List.mem_cons_of_mem _ hmem, hlt⟩

/-- Sorted lengths that meet the Kraft inequality get codes that fit them. -/
theorem canonicalCodes_fit {m : Nat} {e : List (Byte × Nat)} (hsorted : e.Pairwise (fun a b => a.2 ≤ b.2))
    (hm : ∀ p ∈ e, p.2 ≤ m) (hkraft : (e.map (fun p => 2 ^ (m - p.2))).sum ≤ 2 ^ m) :
    ∀ c ∈ canonicalCodes e, (c.1, c.2.1) ∈ e ∧ c.2.2 < 2 ^ c.2.1 := by
  match e with
  | [] => simp [canonicalCodes]
  | (s, l) :: e =>
    obtain ⟨hfirst, hsorted⟩ := List.pairwise_cons.1 hsorted
    intro c hc
    rcases List.mem_cons.1 hc with rfl | hc
    · exact ⟨List.mem_cons_self, by positivity⟩
    · obtain ⟨hmem, hlt⟩ := codesAfter_fit hsorted hfirst (fun p hp => hm p (List.mem_cons_of_mem _ hp))
        (by simpa using hkraft) c hc
      exact ⟨List.mem_cons_of_mem _ hmem, hlt⟩

/-- An entry of `canonical(L)` is absent or one of the canonical codes. -/
theorem canonical_entry (l : Table (BitVec 6)) (s : Byte) :
    tableGet (canonical l) s = Entry.absent ∨
    ∃ c ∈ canonicalCodes (sortedLengths l), tableGet (canonical l) s = presentEntry c.2.1 c.2.2 := by
  rw [canonical, tableGet_ofPairs]
  cases h : ((canonicalCodes (sortedLengths l)).map (fun c => (c.1, presentEntry c.2.1 c.2.2))).lookup s with
  | none => exact .inl rfl
  | some e =>
    obtain ⟨l₁, l₂, he, -⟩ := List.lookup_eq_some_iff.1 h
    obtain ⟨c, hc, hce⟩ := List.mem_map.1 (he ▸ List.mem_append_right l₁ List.mem_cons_self)
    exact .inr ⟨c, hc, (Prod.mk.inj hce).2.symm⟩

theorem presentEntry_legal {len code : Nat} (h1 : 1 ≤ len) (h32 : len ≤ 32) (hcode : code < 2 ^ len) :
    (presentEntry len code).legal := by
  have hlen : (BitVec.ofNat 6 len).toNat = len := by
    rw [BitVec.toNat_ofNat]
    omega
  refine .inr ⟨rfl, ?_⟩
  simp only [presentEntry, hlen]
  exact ⟨h1, h32, (Nat.mod_le _ _).trans_lt hcode⟩

/-- A dictionary that is the canonical code of the lengths of some weights, as `State.dictIsCanonical` asks for. -/
def IsHuffmanCode (d : Table Entry) : Prop :=
  ∃ f : Table Word, maxLength (huffmanLengths f) ≤ 32 ∧ d = canonical (lengthTable (huffmanLengths f))

/-- Lengths that all fit are stored as they are. -/
theorem lengthTable_toNat {l : Table Nat} (h : maxLength l ≤ 32) (s : Byte) :
    (tableGet (lengthTable l) s).toNat = tableGet l s := by
  have := maxLength_le_iff.1 h s
  simp only [lengthTable, tableGet_of, BitVec.toNat_ofNat]
  omega

/-- The pairs of `E` are pairs of the lengths they were stored from. -/
theorem sortedLengths_subperm {f : Table Word} (h : maxLength (huffmanLengths f) ≤ 32) :
    (sortedLengths (lengthTable (huffmanLengths f))).Subperm (symbolLengths f) := by
  refine (sortedLengths_nodup _).subperm fun p hp => ?_
  obtain ⟨hlen, hne⟩ := mem_sortedLengths.1 hp
  rw [lengthTable_toNat h] at hlen
  have hmem := huffmanLengths_mem (hlen ▸ hne)
  rwa [← hlen] at hmem

/-- R153: the canonical code of Huffman lengths fits its fields. -/
theorem isHuffmanCode_legal {d : Table Entry} (h : IsHuffmanCode d) (s : Byte) : (tableGet d s).legal := by
  obtain ⟨f, hmax, rfl⟩ := h
  obtain ⟨m, hm, hkraft⟩ := symbolLengths_kraft f
  obtain ⟨l', hperm, hsubl⟩ := sortedLengths_subperm hmax
  have hkraft' : ((sortedLengths (lengthTable (huffmanLengths f))).map (fun p => 2 ^ (m - p.2))).sum ≤ 2 ^ m :=
    (hperm.symm.map _).sum_eq.trans_le (((hsubl.map _).sum_le_sum (by simp)).trans hkraft)
  rcases canonical_entry (lengthTable (huffmanLengths f)) s with h | ⟨c, hc, h⟩ <;> rw [h]
  · exact .inl rfl
  · obtain ⟨hmem, hfit⟩ := canonicalCodes_fit (sortedLengths_pairwise _)
      (fun p hp => hm p (hsubl.subset (hperm.mem_iff.2 hp))) hkraft' c hc
    obtain ⟨hlen, hne⟩ := mem_sortedLengths.1 hmem
    rw [lengthTable_toNat hmax] at hlen
    exact presentEntry_legal (Nat.one_le_iff_ne_zero.2 hne) (hlen.trans_le (maxLength_le_iff.1 hmax _)) hfit

/-! ## The size of a trie -/

/-- An insertion below a child pointer adds at most a node for each bit left and the leaf. -/
theorem childInsert_nodes {s : Byte} {path : List Bool} {c c' : Child} (h : Child.insert s path c = some c') :
    c'.nodes ≤ c.nodes + path.length + 1 := by
  induction path generalizing c c' with
  | nil =>
    cases c with
    | absent =>
      cases h
      simp [Child.nodes]
    | leaf _ => simp [Child.insert] at h
    | internal _ _ => simp [Child.insert] at h
  | cons b path ih =>
    cases c with
    | leaf _ => simp [Child.insert] at h
    | absent =>
      cases b <;>
      · simp only [Child.insert, if_true, if_false, Bool.false_eq_true, Option.map_eq_some_iff] at h
        obtain ⟨d, hd, rfl⟩ := h
        have := ih hd
        simp only [Child.nodes, List.length_cons] at *
        omega
    | internal c0 c1 =>
      cases b <;>
      · simp only [Child.insert, if_true, if_false, Bool.false_eq_true, Option.map_eq_some_iff] at h
        obtain ⟨d, hd, rfl⟩ := h
        have := ih hd
        simp only [Child.nodes, List.length_cons] at *
        omega

/-- An insertion from the root adds at most a node for each bit of the path. -/
theorem trieInsert_nodes {s : Byte} {path : List Bool} {t t' : Trie} (h : t.insert s path = some t') :
    t'.nodes ≤ t.nodes + path.length := by
  match path with
  | [] => simp [Trie.insert] at h
  | b :: path =>
    cases b <;>
    · simp only [Trie.insert, if_true, if_false, Bool.false_eq_true, Option.map_eq_some_iff] at h
      obtain ⟨d, hd, rfl⟩ := h
      have := childInsert_nodes hd
      simp only [Trie.nodes, List.length_cons]
      omega

/-- A legal present entry's path has at most 32 bits. -/
theorem insertPath_length_le {e : Entry} (h : e.legal) : (insertPath e.len.toNat e.val).length ≤ 32 := by
  have hlen : e.len.toNat ≤ 32 := by
    rcases h with rfl | ⟨-, -, h, -⟩
    · decide
    · exact h
  simp only [insertPath, List.length_append, List.length_map, List.length_range, List.length_singleton]
  omega

theorem insertAll_nodes {d : Table Entry} (hd : ∀ sym, (tableGet d sym).legal) {syms : List Byte} {t t' : Trie}
    (h : insertAll d syms t = .ok t') : t'.nodes ≤ t.nodes + 32 * syms.length := by
  induction syms generalizing t with
  | nil =>
    cases h
    simp
  | cons s syms ih =>
    rw [insertAll] at h
    rw [List.length_cons]
    split at h
    · split at h
      next => cases h
      next u hu =>
        have hstep := trieInsert_nodes hu
        have hpath := insertPath_length_le (hd s)
        have := ih h
        omega
    · have := ih h
      omega

/-- Settles O51: each of 256 entries adds at most 32 nodes to the root. -/
theorem triesFitTheNodeStore : Obligations.TriesFitTheNodeStore := by
  intro d t hd h
  have hle := insertAll_nodes hd h
  rw [length_allBytes] at hle
  exact hle

end Sys2Proof.Machine
end

section
/-! PROOFS. The state invariants (10_state.md R32, R39): they hold after a reset, and every step keeps them. -/

namespace Sys2Proof.Machine

/-! ## After a reset -/

theorem numPresent_fill_absent : numPresent (tableFill Entry.absent) = 0 := by
  simp [numPresent_eq, Entry.absent]

/-- The reset values of R41 meet the invariants, with any legal parameters and canonical buffers. -/
theorem resetValues_inv {s : State} (hin : WellFormed.capacity s.inCap = true)
    (hout : WellFormed.capacity s.outCap = true) (hi : s.inBuf.wf s.inCap = true) (ho : s.outBuf.wf s.outCap = true) :
    { State.reset with
      inCap := s.inCap, outCap := s.outCap, inBuf := s.inBuf, outBuf := s.outBuf, latch := s.latch, draws := s.draws
      program := s.program, trace := s.trace, checkFailed := s.checkFailed, hostFailed := s.hostFailed }.Inv where
  inCapLegal := hin
  outCapLegal := hout
  inCanonical := hi
  outCanonical := ho
  nsymCounts := numPresent_fill_absent.symm
  lenBounded := fun sym => (congrArg BitVec.toNat (tableGet_fill 0#6 sym)).trans_le (Nat.zero_le _)
  lenCurrent := nofun
  trieCurrent := nofun
  busyClear := nofun
  errorCoded := nofun
  infoClear := fun _ => rfl
  outCleared := fun _ => ⟨rfl, rfl⟩
  outFits := Nat.zero_le _

theorem capacity_succ (i : Fin 262144) : WellFormed.capacity (i.val + 1) = true := by
  have hle : i.val + 1 ≤ 262144 := i.isLt
  simp [WellFormed.capacity, Config.capLimit, hle]

theorem reset_inv : State.reset.Inv :=
  resetValues_inv (s := State.reset) (capacity_succ _) (capacity_succ _) rfl rfl

theorem hardwareReset_inv {s : State} (h : s.Inv) : (hardwareReset s).Inv :=
  resetValues_inv (s := hardwareReset s) h.inCapLegal h.outCapLegal rfl rfl

/-- Settles O24: the reset values meet the invariants, and both tables are empty. -/
theorem resetMeetsTheInvariants : Obligations.ResetMeetsTheInvariants :=
  ⟨reset_inv, fun sym => .inl (tableGet_fill Entry.absent sym), fun _ => canonical_zero.symm,
    dictIsCanonical_of_empty rfl⟩

/-! ## Completions -/

/-- A command body's result that completes to a state with the invariants: they hold of the state it leaves, and the
error it raises has a code of its own. -/
def BodyResult.Sound (r : BodyResult) : Prop := r.1.Inv ∧ ∀ e, r.2 = some e → e.code ≠ .noError

theorem finish_sound {s : State} (h : s.Inv) : (finish s).Sound := ⟨h, nofun⟩

theorem raise_sound {c : ErrCode} {i : Word} {s : State} (h : s.Inv) (hc : c ≠ .noError) : (raise c i s).Sound :=
  ⟨h, fun _ he => Option.some.inj he ▸ hc⟩

theorem failOutput_sound {c : ErrCode} {i : Word} {s : State} (h : s.Inv) (hc : c ≠ .noError) :
    (failOutput c i s).Sound :=
  raise_sound { h with outCanonical := rfl, outCleared := fun _ => ⟨rfl, rfl⟩, outFits := Nat.zero_le _ } hc

theorem complete_inv {r : BodyResult} (h : r.Sound) : (complete r).Inv := by
  obtain ⟨h, hc⟩ := h
  cases he : r.2 with
  | none =>
    rw [complete_of_none r he]
    exact { h with busyClear := nofun }
  | some e =>
    rw [complete_of_some r e he]
    exact { h with
      busyClear := nofun, errorCoded := fun _ => hc e he, infoClear := fun hno => absurd hno (hc e he) }

/-! ## The bodies -/

/-- Storing a dictionary and its count keeps the invariants when the trie of the old one is no longer valid. -/
theorem withDict_inv {s : State} (h : s.Inv) {d : Table Entry} {n : BitVec 9} (bad : Bool)
    (hn : n.toNat = numPresent d) : { s with dict := d, nsym := n, trieValid := false, dictBad := bad }.Inv :=
  { h with nsymCounts := hn, trieCurrent := nofun }

theorem storeCanonical_inv {s : State} (h : s.Inv) : (storeCanonical s).Inv := by
  refine withDict_inv h false ?_
  have := numPresent_le (canonical s.len)
  rw [BitVec.toNat_ofNat]
  omega

theorem countInput_inv {s : State} (h : s.Inv) : (countInput s).Inv := { h with lenCurrent := nofun }

/-- Storing the Huffman lengths of FREQ makes LEN current. -/
theorem withLengths_inv {s : State} (h : s.Inv) (hmax : maxLength (huffmanLengths s.freq) ≤ 32) :
    { s with len := lengthTable (huffmanLengths s.freq), lenValid := true }.Inv :=
  { h with
    lenBounded := fun sym => (lengthTable_toNat hmax sym).trans_le (maxLength_le_iff.1 hmax sym)
    lenCurrent := fun _ sym => lengthTable_toNat hmax sym }

/-- Clearing LEN with LEN_VALID. -/
theorem withoutLengths_inv {s : State} (h : s.Inv) : { s with len := tableFill 0#6, lenValid := false }.Inv :=
  { h with lenBounded := fun sym => by simp, lenCurrent := nofun }

theorem inCap_le {s : State} (h : s.Inv) : s.inCap ≤ 262144 := by
  have := h.inCapLegal
  simp only [WellFormed.capacity, Config.capLimit, Bool.and_eq_true, decide_eq_true_eq] at this
  exact of_decide_eq_true this.2

/-- BUILD_DICT never reports CODE_TOO_LONG on a legal IN_CAP (R136, R250). -/
theorem bodyBuildDict_cases_of_inv {s : State} (h : s.Inv) :
    bodyBuildDict s = raise .badLength s.inLen s ∨
    (maxLength (huffmanLengths (countInput s).freq) ≤ 32 ∧
      bodyBuildDict s = finish (storeCanonical
        { countInput s with len := lengthTable (huffmanLengths (countInput s).freq), lenValid := true })) := by
  rcases bodyBuildDict_cases s with ⟨-, he⟩ | ⟨hin, hdeep, -⟩ | ⟨-, hmax, he⟩
  · exact .inl he
  · have := countInput_shallow (hin.trans (inCap_le h))
    omega
  · exact .inr ⟨hmax, he⟩

/-- Filling an absent entry raises the count of present entries by one. -/
theorem numPresent_set {d : Table Entry} {s : Byte} {e : Entry} (habs : (tableGet d s).valid = false)
    (he : e.valid = true) : numPresent (tableSet d s e) = numPresent d + 1 := by
  have hs : (d[s.toNat]'s.isLt).valid = false := habs
  simp [numPresent, tableSet, Vector.countP_set, hs, he]

theorem bodyDictWrite_sound {s : State} (h : s.Inv) : (bodyDictWrite s).Sound := by
  rcases bodyDictWrite_cases s with ⟨-, he⟩ | ⟨-, -, he⟩ | ⟨-, -, _, -, he⟩ | ⟨-, -, -, -, he⟩ |
    ⟨-, -, -, habs, he⟩ <;> rw [he]
  · exact raise_sound h (by decide)
  · exact raise_sound (withDict_inv h true h.nsymCounts) (by decide)
  · exact raise_sound (withDict_inv h true h.nsymCounts) (by decide)
  · exact raise_sound (withDict_inv h true h.nsymCounts) (by decide)
  · refine finish_sound (withDict_inv h s.dictBad ?_)
    have hset := numPresent_set (e := { valid := true, len := argLength s, val := s.arg1 }) habs rfl
    have hle := numPresent_le s.dict
    rw [hset, BitVec.toNat_add, h.nsymCounts, BitVec.toNat_ofNat]
    omega

theorem bodyBuildTrie_sound {s : State} (h : s.Inv) : (bodyBuildTrie s).Sound := by
  rcases bodyBuildTrie_cases s with ⟨-, he⟩ | ⟨-, _, -, he⟩ | ⟨-, t, ht, he⟩ <;> rw [he]
  · exact raise_sound h (by decide)
  · exact raise_sound { h with trieCurrent := nofun } (by decide)
  · exact finish_sound { h with trieCurrent := fun _ => ht }

theorem length_streamOf (bits : List Bool) : (streamOf bits).length = 4 + packedLength bits.length := by
  simp only [streamOf, headerBytes, packBits, List.length_append, List.length_cons, List.length_nil, List.length_map,
    List.length_range]

/-- Output bytes stored from index 0, with their count in OUT_LEN, keep the invariants when they fit OUT. -/
theorem withOutput_inv {s : State} (h : s.Inv) {out : List Byte} (bits : Word) (hfit : out.length ≤ s.outCap) :
    { s with
      outBuf := s.outBuf.writeList 0 out, outLen := BitVec.ofNat 32 out.length, bitCount := bits
      outValid := true }.Inv :=
  { h with
    outCanonical := wf_writeList out (by simpa using hfit) h.outCanonical
    outCleared := nofun
    outFits := (BitVec.toNat_ofNat ..).trans_le ((Nat.mod_le _ _).trans hfit) }

theorem bodyEncode_sound {s : State} (h : s.Inv) : (bodyEncode s).Sound := by
  rcases bodyEncode_cases s with ⟨c, i, he, hc, -⟩ | ⟨-, -, -, -, hfit, he⟩ <;> rw [he]
  · exact failOutput_sound h hc
  · rw [← length_streamOf] at hfit
    have hstore := withOutput_inv h (BitVec.ofNat 32 (encodeBits s.dict (inputBytes s)).length) hfit
    rw [length_streamOf] at hstore
    exact finish_sound hstore

theorem bodyDecode_sound {s : State} (h : s.Inv) : (bodyDecode s).Sound := by
  rcases bodyDecode_cases s with ⟨c, i, he, hc, -⟩ | ⟨-, -, n, out, -, hfit, he⟩ <;> rw [he]
  · exact failOutput_sound h hc
  · exact finish_sound (withOutput_inv h (BitVec.ofNat 32 n) hfit)

/-- Every command's body keeps the invariants. -/
theorem bodyOf_sound (i : Instr) {s : State} (h : s.Inv) : (bodyOf i s).Sound := by
  cases i with
  | nop => exact finish_sound h
  | softReset =>
    exact finish_sound { h with
      nsymCounts := numPresent_fill_absent.symm, lenBounded := fun sym => by simp, lenCurrent := nofun
      trieCurrent := nofun, outCleared := fun _ => ⟨rfl, rfl⟩, outFits := Nat.zero_le _ }
  | freqCount =>
    rcases bodyFreqCount_cases s with ⟨-, he⟩ | ⟨-, he⟩ <;> rw [bodyOf, he]
    · exact raise_sound h (by decide)
    · exact finish_sound (countInput_inv h)
  | buildTree =>
    rcases bodyBuildTree_cases s with ⟨-, he⟩ | ⟨hmax, he⟩ <;> rw [bodyOf, he]
    · exact raise_sound (withoutLengths_inv h) (by decide)
    · exact finish_sound (withLengths_inv h hmax)
  | assignCodes =>
    rcases bodyAssignCodes_cases s with ⟨-, he⟩ | ⟨-, he⟩ <;> rw [bodyOf, he]
    · exact raise_sound h (by decide)
    · exact finish_sound (storeCanonical_inv h)
  | buildDict =>
    rcases bodyBuildDict_cases_of_inv h with he | ⟨hmax, he⟩ <;> rw [bodyOf, he]
    · exact raise_sound h (by decide)
    · exact finish_sound (storeCanonical_inv (withLengths_inv (countInput_inv h) hmax))
  | dictClear => exact finish_sound (withDict_inv h false numPresent_fill_absent.symm)
  | dictWrite => exact bodyDictWrite_sound h
  | encode => exact bodyEncode_sound h
  | buildTrie => exact bodyBuildTrie_sound h
  | decode => exact bodyDecode_sound h

theorem latchedBody_sound {s : State} (h : s.Inv) : (latchedBody s).Sound := by
  unfold latchedBody
  split
  · exact bodyOf_sound _ h
  · exact raise_sound h (by decide)

/-! ## The host -/

/-- A STATUS write only clears DONE, ERROR and OVERRUN. -/
theorem writeStatus_inv {s : State} (h : s.Inv) (v : Word) : (writeStatus v s).Inv :=
  { h with
    busyClear := fun hb => by
      obtain ⟨hdone, herror, hcode⟩ := h.busyClear hb
      exact ⟨by simp [hdone], by simp [herror], hcode⟩
    errorCoded := fun he => h.errorCoded (Bool.and_eq_true_iff.1 he).1 }

theorem busWrite_inv {s : State} (h : s.Inv) (off : Offset) (v : Word) : (busWrite s off v).Inv := by
  rcases busWrite_cases s off v with ⟨-, -, he⟩ | ⟨-, he⟩ <;> rw [he]
  · exact { h with }
  rcases writeTarget_cases v s (target off) with he | ⟨r, -, he⟩ | ⟨sym, -, he⟩ | ⟨k, -, hk, he⟩ <;> rw [he]
  · exact h
  · rcases writeReg_cases v s r with he | ⟨-, he⟩ | ⟨-, he⟩ | ⟨-, he⟩ | ⟨-, he⟩ | ⟨-, he⟩ | ⟨-, he⟩ <;> rw [he]
    · exact h
    · exact { h with
        busyClear := fun _ => ⟨rfl, rfl, rfl, rfl⟩, errorCoded := nofun, infoClear := fun _ => rfl }
    · exact writeStatus_inv h v
    all_goals exact { h with }
  · exact { h with lenCurrent := nofun }
  · exact { h with inCanonical := wf_write _ hk h.inCanonical }

/-- A host statement keeps the invariants. -/
theorem runStmt_inv {stmt : HostStmt} {s t : State} (h : s.Inv) (hr : runStmt stmt s = .next t) : t.Inv := by
  rcases runStmt_next hr with ⟨-, rfl⟩ | ⟨off, v, -, -, rfl⟩ | ⟨d, p, tr, c, f, rfl⟩
  · exact { hardwareReset_inv h with }
  · exact { busWrite_inv h off v with }
  · exact { h with }

theorem countAccess_inv {s : State} (h : s.Inv) : (countAccess s).Inv := by
  obtain ⟨d, hd⟩ := countAccess_eq s
  rw [hd]
  exact { h with }

/-- Every step keeps the invariants. -/
theorem step_inv {s t : State} (h : s.Inv) (hs : step s = .next t) : t.Inv := by
  rcases step_cases hs with ⟨-, rfl⟩ | ⟨-, -, rfl⟩ | ⟨-, stmt, rest, -, hr⟩
  · exact complete_inv (latchedBody_sound h)
  · exact countAccess_inv h
  · exact runStmt_inv (countAccess_inv h) hr

end Sys2Proof.Machine
end

section
/-! PROOFS. What a step can do to the dictionary (10_state.md R32, R39 (d)), and the invariants that speak of it. -/

namespace Sys2Proof.Machine

/-! ## What a command can do to the dictionary -/

theorem wellFormedCode_iff {len val : Nat} : wellFormedCode len val = true ↔ 1 ≤ len ∧ len ≤ 32 ∧ val < 2 ^ len := by
  simp only [wellFormedCode, Bool.and_eq_true, decide_eq_true_eq, and_assoc]
  rfl

/-- DICT_WRITE leaves each entry as it was, or stores a legal one. -/
theorem bodyDictWrite_dict (s : State) :
    (bodyDictWrite s).1.dict = s.dict ∨
    ∃ sym e, e.legal ∧ (bodyDictWrite s).1.dict = tableSet s.dict sym e := by
  rcases bodyDictWrite_cases s with ⟨-, he⟩ | ⟨-, -, he⟩ | ⟨-, -, _, -, he⟩ | ⟨-, -, -, -, he⟩ |
    ⟨-, hm, -, -, he⟩ <;> rw [he]
  · exact .inl rfl
  · exact .inl rfl
  · exact .inl rfl
  · exact .inl rfl
  · have hcode : wellFormedCode (argLength s).toNat s.arg1.toNat = true := by
      simpa using (Bool.or_eq_false_iff.1 hm).2
    exact .inr ⟨argSymbol s, _, .inr ⟨rfl, wellFormedCode_iff.1 hcode⟩, rfl⟩

/-- The dictionary that ASSIGN_CODES stores from current lengths is a Huffman code. -/
theorem isHuffmanCode_of_lenValid {s : State} (h : s.Inv) (hv : s.lenValid = true) : IsHuffmanCode (canonical s.len) := by
  have hlen := h.lenCurrent hv
  have hmax : maxLength (huffmanLengths s.freq) ≤ 32 :=
    maxLength_le_iff.2 fun sym => (hlen sym).symm.trans_le (h.lenBounded sym)
  have heq : s.len = lengthTable (huffmanLengths s.freq) :=
    table_ext fun sym => BitVec.eq_of_toNat_eq ((hlen sym).trans (lengthTable_toNat hmax sym).symm)
  exact ⟨s.freq, hmax, congrArg canonical heq⟩

/-- The empty dictionary is the code of no weights. -/
theorem isHuffmanCode_empty : IsHuffmanCode (tableFill Entry.absent) :=
  dictIsCanonical_of_empty (s := State.reset) rfl rfl

/-- What a command can do to the dictionary: keep it, where BUILD_TREE alone may still change LEN; store a Huffman
code, which is the code of LEN unless it is DICT_CLEAR's empty one; or DICT_WRITE's write of a legal entry. -/
theorem bodyOf_dictionary (i : Instr) {s : State} (h : s.Inv) :
    ((bodyOf i s).1.dict = s.dict ∧ (bodyOf i s).1.dictBad = s.dictBad ∧
      ((bodyOf i s).1.len = s.len ∨ i = .buildTree)) ∨
    (IsHuffmanCode (bodyOf i s).1.dict ∧ ((bodyOf i s).1.dict = canonical (bodyOf i s).1.len ∨ i = .dictClear)) ∨
    (i = .dictWrite ∧ ((bodyOf i s).1.dict = s.dict ∨
      ∃ sym e, e.legal ∧ (bodyOf i s).1.dict = tableSet s.dict sym e)) := by
  cases i with
  | nop => exact .inl ⟨rfl, rfl, .inl rfl⟩
  | softReset => exact .inr (.inl ⟨isHuffmanCode_empty, .inl canonical_zero.symm⟩)
  | freqCount =>
    rcases bodyFreqCount_cases s with ⟨-, he⟩ | ⟨-, he⟩ <;> rw [bodyOf, he] <;> exact .inl ⟨rfl, rfl, .inl rfl⟩
  | buildTree =>
    rcases bodyBuildTree_cases s with ⟨-, he⟩ | ⟨-, he⟩ <;> rw [bodyOf, he] <;> exact .inl ⟨rfl, rfl, .inr rfl⟩
  | assignCodes =>
    rcases bodyAssignCodes_cases s with ⟨-, he⟩ | ⟨hv, he⟩ <;> rw [bodyOf, he]
    · exact .inl ⟨rfl, rfl, .inl rfl⟩
    · exact .inr (.inl ⟨isHuffmanCode_of_lenValid h hv, .inl rfl⟩)
  | buildDict =>
    rcases bodyBuildDict_cases_of_inv h with he | ⟨hmax, he⟩ <;> rw [bodyOf, he]
    · exact .inl ⟨rfl, rfl, .inl rfl⟩
    · exact .inr (.inl ⟨⟨_, hmax, rfl⟩, .inl rfl⟩)
  | dictClear => exact .inr (.inl ⟨isHuffmanCode_empty, .inr rfl⟩)
  | dictWrite => exact .inr (.inr ⟨rfl, bodyDictWrite_dict s⟩)
  | encode =>
    rcases bodyEncode_cases s with ⟨c, i, he, -⟩ | ⟨-, -, -, -, -, he⟩ <;> rw [bodyOf, he] <;>
      exact .inl ⟨rfl, rfl, .inl rfl⟩
  | buildTrie =>
    rcases bodyBuildTrie_cases s with ⟨-, he⟩ | ⟨-, _, -, he⟩ | ⟨-, t, -, he⟩ <;> rw [bodyOf, he] <;>
      exact .inl ⟨rfl, rfl, .inl rfl⟩
  | decode =>
    rcases bodyDecode_cases s with ⟨c, i, he, -⟩ | ⟨-, -, n, out, -, -, he⟩ <;> rw [bodyOf, he] <;>
      exact .inl ⟨rfl, rfl, .inl rfl⟩

/-! ## What a step can do to the dictionary -/

/-- Completion changes no table. -/
theorem complete_dictionary (r : BodyResult) :
    (complete r).dict = r.1.dict ∧ (complete r).dictBad = r.1.dictBad ∧ (complete r).len = r.1.len := by
  unfold complete
  split <;> exact ⟨rfl, rfl, rfl⟩

/-- A host access keeps LEN, DICT and DICT_BAD. -/
theorem busWrite_dictionary (s : State) (off : Offset) (v : Word) :
    (busWrite s off v).dict = s.dict ∧ (busWrite s off v).dictBad = s.dictBad ∧ (busWrite s off v).len = s.len := by
  rcases busWrite_cases s off v with ⟨-, -, he⟩ | ⟨-, he⟩ <;> rw [he]
  · exact ⟨rfl, rfl, rfl⟩
  rcases writeTarget_cases v s (target off) with he | ⟨r, -, he⟩ | ⟨sym, -, he⟩ | ⟨k, -, -, he⟩ <;> rw [he]
  · exact ⟨rfl, rfl, rfl⟩
  · cases r <;> exact ⟨rfl, rfl, rfl⟩
  · exact ⟨rfl, rfl, rfl⟩
  · exact ⟨rfl, rfl, rfl⟩

/-- A host statement keeps LEN, DICT and DICT_BAD, or it is a reset and empties both tables. -/
theorem runStmt_dictionary {stmt : HostStmt} {s t : State} (hr : runStmt stmt s = .next t) :
    (t.dict = s.dict ∧ t.dictBad = s.dictBad ∧ t.len = s.len) ∨
    (t.dict = tableFill Entry.absent ∧ t.len = tableFill 0#6) := by
  rcases runStmt_next hr with ⟨-, rfl⟩ | ⟨off, v, -, -, rfl⟩ | ⟨d, p, tr, c, f, rfl⟩
  · exact .inr ⟨rfl, rfl⟩
  · exact .inl (busWrite_dictionary s off v)
  · exact .inl ⟨rfl, rfl, rfl⟩

theorem countAccess_dictionary (s : State) :
    (countAccess s).dict = s.dict ∧ (countAccess s).dictBad = s.dictBad ∧ (countAccess s).len = s.len := by
  obtain ⟨d, hd⟩ := countAccess_eq s
  rw [hd]
  exact ⟨rfl, rfl, rfl⟩

/-- The step is the engine's completion of a command. -/
def Completes (s : State) (i : Instr) : Prop := engineMoves s = true ∧ decode s.latch = .ok i

/-- What a step can do to the dictionary, as `bodyOf_dictionary` says for the commands; the host's part is a reset,
which leaves the code of no weights. -/
theorem step_dictionary {s t : State} (h : s.Inv) (hs : step s = .next t) :
    (t.dict = s.dict ∧ t.dictBad = s.dictBad ∧ (t.len = s.len ∨ Completes s .buildTree)) ∨
    (IsHuffmanCode t.dict ∧ (t.dict = canonical t.len ∨ Completes s .dictClear)) ∨
    (Completes s .dictWrite ∧ (t.dict = s.dict ∨ ∃ sym e, e.legal ∧ t.dict = tableSet s.dict sym e)) := by
  rcases step_cases hs with ⟨hm, rfl⟩ | ⟨-, -, rfl⟩ | ⟨-, stmt, rest, -, hr⟩
  · obtain ⟨hdict, hbad, hlen⟩ := complete_dictionary (latchedBody s)
    rw [hdict, hbad, hlen]
    cases hd : decode s.latch with
    | error _ =>
      have hb : latchedBody s = bodyIllegal s := by simp [latchedBody, hd]
      rw [hb]
      exact .inl ⟨rfl, rfl, .inl rfl⟩
    | ok i =>
      have hb : latchedBody s = bodyOf i s := by simp [latchedBody, hd]
      simpa [hb, Completes, hm, hd] using bodyOf_dictionary i h
  · obtain ⟨hdict, hbad, hlen⟩ := countAccess_dictionary s
    exact .inl ⟨hdict, hbad, .inl hlen⟩
  · obtain ⟨hdict, hbad, hlen⟩ := countAccess_dictionary s
    rcases runStmt_dictionary hr with ⟨hdict', hbad', hlen'⟩ | ⟨hdict', hlen'⟩
    · exact .inl ⟨hdict'.trans hdict, hbad'.trans hbad, .inl (hlen'.trans hlen)⟩
    · rw [hdict', hlen']
      exact .inr (.inl ⟨isHuffmanCode_empty, .inl canonical_zero.symm⟩)

/-! ## The statements -/

/-- R39 (d) is kept by every step that is not the completion of a command that parts DICT from LEN. -/
theorem step_keeps_dictIsCode {s t : State} (h : s.Inv) (hs : step s = .next t) (hc : s.dictIsCode)
    (hparts : ∀ i, Completes s i → ¬ partsDictFromLen i) : t.dictIsCode := by
  intro hbad
  rcases step_dictionary h hs with ⟨hdict, hbad', hlen | hi⟩ | ⟨-, hcode | hi⟩ | ⟨hi, -⟩
  · rw [hdict, hlen]
    exact hc (hbad'.symm.trans hbad)
  · exact absurd (by simp [partsDictFromLen]) (hparts _ hi)
  · exact hcode
  · exact absurd (by simp [partsDictFromLen]) (hparts _ hi)
  · exact absurd (by simp [partsDictFromLen]) (hparts _ hi)

/-- That DICT is the canonical code of some weights is kept by every step but a completion of DICT_WRITE. -/
theorem step_keeps_dictIsCanonical {s t : State} (h : s.Inv) (hs : step s = .next t) (hc : s.dictIsCanonical)
    (hwrite : ¬ Completes s .dictWrite) : t.dictIsCanonical := by
  intro hbad
  rcases step_dictionary h hs with ⟨hdict, hbad', -⟩ | ⟨hcode, -⟩ | ⟨hi, -⟩
  · rw [hdict]
    exact hc (hbad'.symm.trans hbad)
  · exact hcode
  · exact absurd hi hwrite

/-- Settles O25, by the cases of what a step can do. -/
theorem stepKeepsTheInvariants : Obligations.StepKeepsTheInvariants := by
  intro s t h hs
  refine ⟨step_inv h hs, fun hc hparts => ?_, fun hc hwrite => ?_⟩
  · exact step_keeps_dictIsCode h hs hc fun i hi => hparts hi.1 i hi.2
  · exact step_keeps_dictIsCanonical h hs hc fun hi => hwrite hi.1 hi.2

/-- Settles O26: a step keeps the entries, stores a Huffman code, or writes one legal entry. -/
theorem stepKeepsDictEntriesLegal : Obligations.StepKeepsDictEntriesLegal := by
  intro s t h hlegal hs
  rcases step_dictionary h hs with ⟨hdict, -⟩ | ⟨hcode, -⟩ | ⟨-, hdict | ⟨sym, e, he, hdict⟩⟩
  · rw [State.dictLegal, hdict]
    exact hlegal
  · exact isHuffmanCode_legal hcode
  · rw [State.dictLegal, hdict]
    exact hlegal
  · intro r
    rw [hdict, tableGet_set]
    split
    · exact he
    · exact hlegal r

end Sys2Proof.Machine
end

section
/-! PROOFS. The registers as the host reads and writes them (10_state.md R21 to R29, R41). -/

namespace Sys2Proof.Machine

/-! ## STATUS -/

theorem getLsbD_append_ofBool {w : Nat} (x : BitVec w) (c : Bool) (b : Nat) :
    BitVec.getLsbD (w := w + 1) (x ++ BitVec.ofBool c) b = if b = 0 then c else x.getLsbD (b - 1) := by
  rw [BitVec.getLsbD_append]
  cases b <;> simp

/-- STATUS bit by bit (R24). -/
theorem statusWord_getLsbD (s : State) (b : Nat) :
    (statusWord s).getLsbD b =
      [s.busy, s.done, s.error, s.overrun, s.lenValid, s.trieValid, s.outValid, s.dictBad].getD b false := by
  unfold statusWord
  iterate 8 rw [getLsbD_append_ofBool]
  match b with
  | 0 | 1 | 2 | 3 | 4 | 5 | 6 | 7 => rfl
  | b + 8 => simp

/-! ## Accesses to the register block -/

/-- A read of a register with no free bit gives its stored value at all times. -/
theorem busRead_of_anyMask {s : State} {off : Offset} (h : anyMask (target off) = 0#32) :
    (busRead s off).1 = storedWord s (target off) := by
  unfold busRead
  split
  · rfl
  · simp only [h, mixAny, BitVec.not_zero, BitVec.and_allOnes, BitVec.and_zero, BitVec.or_zero]

/-- A read while idle gives the stored value. -/
theorem busRead_of_idle {s : State} (hi : s.phase = .idle) (off : Offset) :
    (busRead s off).1 = storedWord s (target off) := by
  simp [busRead, hi]

/-- A write that is not dropped in the busy window acts on its target at all times. -/
theorem busWrite_of_not_dropped {s : State} {off : Offset} (h : droppedWhenBusy s (target off) = false) (v : Word) :
    busWrite s off v = writeTarget v s (target off) := by
  simp [busWrite, h]

/-- A write while idle acts on its target. -/
theorem busWrite_of_idle {s : State} (hi : s.phase = .idle) (off : Offset) (v : Word) :
    busWrite s off v = writeTarget v s (target off) := by
  simp [busWrite, hi]

/-- Settles O11, bit by bit. -/
theorem statusWriteOnlyClears : Obligations.StatusWriteOnlyClears := by
  intro s v
  have hw : busWrite s 0x00000C#24 v = writeStatus v s := busWrite_of_not_dropped rfl v
  rw [hw]
  refine ⟨BitVec.eq_of_getLsbD_eq fun b _ => ?_, rfl⟩
  simp only [BitVec.getLsbD_and, BitVec.getLsbD_not, statusWord_getLsbD]
  match b with
  | 0 | 1 | 2 | 3 | 4 | 5 | 6 | 7 => simp [State.busy]
  | b + 8 => simp

/-- Settles O12: no bit of a constant register is free in the busy window, and its writes reach no state. -/
theorem identificationRegistersAreConstant : Obligations.IdentificationRegistersAreConstant :=
  fun _ v => ⟨busRead_of_anyMask rfl, busRead_of_anyMask rfl, busRead_of_anyMask rfl, busRead_of_anyMask rfl,
    busRead_of_anyMask rfl, busWrite_of_not_dropped rfl v, busWrite_of_not_dropped rfl v,
    busWrite_of_not_dropped rfl v, busWrite_of_not_dropped rfl v, busWrite_of_not_dropped rfl v⟩

/-- IRQ_EN reads back its two bits. -/
theorem setWidth_extractLsb_two (v : Word) : (v.extractLsb' 0 2).setWidth 32 = v &&& 0x00000003#32 := by
  have hmask : v.toNat &&& 3 = v.toNat % 4 := Nat.and_two_pow_sub_one_eq_mod v.toNat 2
  apply BitVec.eq_of_toNat_eq
  rw [BitVec.toNat_and, BitVec.toNat_setWidth, BitVec.extractLsb'_toNat, Nat.shiftRight_zero]
  exact (Nat.mod_eq_of_lt (by omega)).trans hmask.symm

/-- Settles O13: while idle a write stores its word and a read returns the stored one. -/
theorem writableRegistersReadBack : Obligations.WritableRegistersReadBack := by
  refine ⟨fun s v hi => ?_, fun s hi => ?_, by decide⟩
  · have hirq : busWrite s 0x000018#24 v = { s with irqEn := v.extractLsb' 0 2 } := busWrite_of_idle hi _ v
    have hlen : busWrite s 0x00001C#24 v = { s with inLen := v } := busWrite_of_idle hi _ v
    have harg0 : busWrite s 0x00002C#24 v = { s with arg0 := v } := busWrite_of_idle hi _ v
    have harg1 : busWrite s 0x000030#24 v = { s with arg1 := v } := busWrite_of_idle hi _ v
    rw [hirq, hlen, harg0, harg1]
    exact ⟨⟨rfl, (busRead_of_anyMask rfl).trans (setWidth_extractLsb_two v)⟩, ⟨rfl, busRead_of_anyMask rfl⟩,
      ⟨rfl, busRead_of_anyMask rfl⟩, rfl, busRead_of_anyMask rfl⟩
  · have hread := busRead_of_idle hi
    have hstatus : (busRead s 0x00000C#24).1 = statusWord s := hread _
    have hbusy : s.busy = false := by simp [State.busy, hi]
    refine ⟨?_, hread _, hread _, hread _, hread _, hread _, hread _, hread _, hread _, hread _, hread _⟩
    simp only [hstatus, statusWord_getLsbD]
    refine ⟨hbusy, rfl, rfl, rfl, rfl, rfl, rfl, rfl, fun b hb => ?_⟩
    exact List.getD_eq_default _ _ hb

/-- Settles O22: the reset state evaluated, and its tables read symbol by symbol. -/
theorem resetValuesOfTheRegisters : Obligations.ResetValuesOfTheRegisters := by
  refine ⟨rfl, by decide, rfl, ?_, rfl, rfl, rfl, fun sym => ?_, rfl⟩
  · intro r hr
    fin_cases hr <;> rfl
  · exact ⟨tableGet_fill 0#32 sym, tableGet_fill 0#6 sym, tableGet_fill Entry.absent sym⟩

end Sys2Proof.Machine
end

section
/-! PROOFS. The register interface: the map of R51, the windows (20_memory.md R52 to R55), writes and reads in the busy
window (R60, R61) and which writes have side effects (R59). -/

namespace Sys2Proof.Machine

/-! ## The map of R51 -/

@[simp] theorem target_regOffset (r : Reg) : target r.offset = .reg r := by
  cases r <;> rfl

/-- The register at an offset given by its number (R21). -/
theorem target_of_toNat_eq {off : Offset} {r : Reg} (h : off.toNat = r.offset.toNat) : target off = .reg r := by
  rw [BitVec.eq_of_toNat_eq h, target_regOffset]

/-- Each of the sixteen words of the register block is a register, at its own offset (R21). -/
theorem regAt_of_lt {n : Nat} (h : n < 16) : ∃ r : Reg, regAt n = .reg r ∧ r.offset.toNat = 4 * n := by
  interval_cases n <;> exact ⟨_, rfl, rfl⟩

theorem target_freqWindow {off : Offset} (h1 : 0x001000 ≤ off.toNat) (h2 : off.toNat < 0x001400) :
    target off = .freq (BitVec.ofNat 8 ((off.toNat - 0x001000) / 4)) := by
  simp only [target]
  repeat rw [if_neg (by omega)]
  rw [if_pos h2]

theorem target_lenWindow {off : Offset} (h1 : 0x001400 ≤ off.toNat) (h2 : off.toNat < 0x001800) :
    target off = .len (BitVec.ofNat 8 ((off.toNat - 0x001400) / 4)) := by
  simp only [target]
  repeat rw [if_neg (by omega)]
  rw [if_pos h2]

theorem target_inWindow {off : Offset} (h1 : 0x100000 ≤ off.toNat) (h2 : off.toNat < 0x200000) :
    target off = .inByte ((off.toNat - 0x100000) / 4) := by
  simp only [target]
  repeat rw [if_neg (by omega)]
  rw [if_pos h2]

/-- The ranges R51 gives to no register and no window. -/
def reservedOffset (off : Offset) : Prop :=
  (0x40 ≤ off.toNat ∧ off.toNat < 0x1000) ∨ (0x1800 ≤ off.toNat ∧ off.toNat < 0x2000) ∨
    (0x2800 ≤ off.toNat ∧ off.toNat < 0x100000) ∨ 0x300000 ≤ off.toNat

theorem target_reserved {off : Offset} (h : reservedOffset off) : target off = .reserved := by
  simp only [target]
  rcases h with ⟨h1, h2⟩ | ⟨h1, h2⟩ | ⟨h1, h2⟩ | h1
  · rw [if_neg (by omega), if_pos h2]
  · repeat rw [if_neg (by omega)]
    rw [if_pos h2]
  · repeat rw [if_neg (by omega)]
    rw [if_pos h2]
  · repeat rw [if_neg (by omega)]

/-- What stands at an aligned offset (R51): a register at its offset, a window word, or nothing. -/
theorem target_cases {off : Offset} (ha : off.toNat % 4 = 0) :
    (∃ r : Reg, off = r.offset ∧ target off = .reg r) ∨
    ((0x001000 ≤ off.toNat ∧ off.toNat < 0x001400) ∧ ∃ sym, target off = .freq sym) ∨
    ((0x100000 ≤ off.toNat ∧ off.toNat < 0x200000) ∧ target off = .inByte ((off.toNat - 0x100000) / 4)) ∨
    ((0x001400 ≤ off.toNat ∧ off.toNat < 0x001800) ∧ ∃ sym, target off = .len sym) ∨
    ((0x002000 ≤ off.toNat ∧ off.toNat < 0x002800) ∧ ∃ sym, target off = .dictHead sym ∨ target off = .dictVal sym) ∨
    ((0x200000 ≤ off.toNat ∧ off.toNat < 0x300000) ∧ ∃ k, target off = .outByte k) ∨
    (reservedOffset off ∧ target off = .reserved) := by
  have hmap : off.toNat < 0x40 ∨ (0x1000 ≤ off.toNat ∧ off.toNat < 0x1400) ∨
      (0x100000 ≤ off.toNat ∧ off.toNat < 0x200000) ∨ (0x1400 ≤ off.toNat ∧ off.toNat < 0x1800) ∨
      (0x2000 ≤ off.toNat ∧ off.toNat < 0x2800) ∨ (0x200000 ≤ off.toNat ∧ off.toNat < 0x300000) ∨
      reservedOffset off := by
    unfold reservedOffset
    omega
  rcases hmap with h | h | h | h | h | h | h
  · obtain ⟨r, -, hr⟩ := regAt_of_lt (n := off.toNat / 4) (by omega)
    exact .inl ⟨r, BitVec.eq_of_toNat_eq (by omega), target_of_toNat_eq (by omega)⟩
  · exact .inr (.inl ⟨h, _, target_freqWindow h.1 h.2⟩)
  · exact .inr (.inr (.inl ⟨h, target_inWindow h.1 h.2⟩))
  · exact .inr (.inr (.inr (.inl ⟨h, _, target_lenWindow h.1 h.2⟩)))
  · refine .inr (.inr (.inr (.inr (.inl ⟨h, BitVec.ofNat 8 ((off.toNat - 0x002000) / 4 / 2), ?_⟩))))
    rw [target_dictWindow off h.1 h.2, dictWordAt]
    split
    · exact .inl rfl
    · exact .inr rfl
  · exact .inr (.inr (.inr (.inr (.inr (.inl ⟨h, _, target_outWindow off h.1 h.2⟩)))))
  · exact .inr (.inr (.inr (.inr (.inr (.inr ⟨h, target_reserved h⟩)))))

/-! ## The offsets of the window words -/

theorem freqOffset_toNat (s : Byte) : (freqOffset s).toNat = 0x001000 + 4 * s.toNat := by
  have := s.isLt
  simp only [freqOffset, BitVec.toNat_ofNat]
  omega

theorem lenOffset_toNat (s : Byte) : (lenOffset s).toNat = 0x001400 + 4 * s.toNat := by
  have := s.isLt
  simp only [lenOffset, BitVec.toNat_ofNat]
  omega

theorem inOffset_toNat {k : Nat} (h : k < 262144) : (inOffset k).toNat = 0x100000 + 4 * k := by
  simp only [inOffset, BitVec.toNat_ofNat]
  omega

@[simp] theorem target_freqOffset (s : Byte) : target (freqOffset s) = .freq s := by
  have hs := s.isLt
  have ho := freqOffset_toNat s
  have hk : (0x001000 + 4 * s.toNat - 0x001000) / 4 = s.toNat := by omega
  rw [target_freqWindow (by omega) (by omega), ho, hk, BitVec.ofNat_toNat, BitVec.setWidth_eq]

@[simp] theorem target_lenOffset (s : Byte) : target (lenOffset s) = .len s := by
  have hs := s.isLt
  have ho := lenOffset_toNat s
  have hk : (0x001400 + 4 * s.toNat - 0x001400) / 4 = s.toNat := by omega
  rw [target_lenWindow (by omega) (by omega), ho, hk, BitVec.ofNat_toNat, BitVec.setWidth_eq]

theorem target_inOffset {k : Nat} (h : k < 262144) : target (inOffset k) = .inByte k := by
  have ho := inOffset_toNat h
  have hk : (0x100000 + 4 * k - 0x100000) / 4 = k := by omega
  rw [target_inWindow (by omega) (by omega), ho, hk]

/-! ## Accesses by target -/

/-- A bit of a read that is not free is the stored one, at all times (R61). -/
theorem busRead_getLsbD {s : State} {off : Offset} {b : Nat} (h : (anyMask (target off)).getLsbD b = false) :
    (busRead s off).1.getLsbD b = (storedWord s (target off)).getLsbD b := by
  unfold busRead
  split
  · rfl
  · simp only [mixAny, BitVec.getLsbD_or, BitVec.getLsbD_and, BitVec.getLsbD_not, h, Bool.not_false, Bool.and_true,
      Bool.and_false, Bool.or_false]
    rcases Nat.lt_or_ge b 32 with hb | hb
    · simp [hb]
    · simp [BitVec.getLsbD_of_ge _ b hb]

/-- In the busy window a write to a command input sets OVERRUN and does nothing else (R60). -/
theorem busWrite_of_dropped {s : State} {off : Offset} (hb : s.phase = .busy)
    (h : droppedWhenBusy s (target off) = true) (v : Word) : busWrite s off v = { s with overrun := true } := by
  simp [busWrite, hb, h]

/-- A register no command reads takes its write at all times. -/
theorem busWrite_reg_of_not_dropped {s : State} {off : Offset} {r : Reg} (h : off.toNat = r.offset.toNat)
    (hd : droppedWhenBusy s (.reg r) = false) (v : Word) : busWrite s off v = writeReg v s r := by
  have ht := target_of_toNat_eq h
  rw [busWrite_of_not_dropped (by rw [ht, hd]), ht]
  rfl

/-- A register takes its write while idle. -/
theorem busWrite_reg_of_idle {s : State} {off : Offset} {r : Reg} (hi : s.phase = .idle)
    (h : off.toNat = r.offset.toNat) (v : Word) : busWrite s off v = writeReg v s r := by
  rw [busWrite_of_idle hi, target_of_toNat_eq h]
  rfl

/-- A write to a byte of IN while idle stores the low byte of the word there (R53). -/
theorem busWrite_inByte_of_idle {s : State} {off : Offset} {k : Nat} (hi : s.phase = .idle)
    (ht : target off = .inByte k) (hk : k < s.inCap) (v : Word) :
    ∃ B, busWrite s off v = { s with inBuf := B } ∧ B.read k = v.extractLsb' 0 8 ∧
      ∀ j, j ≠ k → B.read j = s.inBuf.read j := by
  refine ⟨s.inBuf.write k (v.extractLsb' 0 8), ?_, by simp, fun j hj => by simp [hj.symm]⟩
  rw [busWrite_of_idle hi, ht]
  exact if_pos hk

/-- The command inputs of R60, by their offsets. -/
def isCommandInput (s : State) (a : Nat) : Prop :=
  a = 0x08 ∨ a = 0x1C ∨ a = 0x2C ∨ a = 0x30 ∨ (0x1000 ≤ a ∧ a < 0x1400) ∨
    (0x100000 ≤ a ∧ a < 0x200000 ∧ (a - 0x100000) / 4 < s.inCap)

/-- The writes the busy window drops are those to the command inputs. -/
theorem droppedWhenBusy_iff (s : State) {off : Offset} (ha : off.toNat % 4 = 0) :
    droppedWhenBusy s (target off) = true ↔ isCommandInput s off.toNat := by
  unfold isCommandInput
  rcases target_cases ha with ⟨r, rfl, ht⟩ | ⟨h, _, ht⟩ | ⟨h, ht⟩ | ⟨h, _, ht⟩ | ⟨h, _, ht | ht⟩ | ⟨h, _, ht⟩ | ⟨h, ht⟩
  · rw [ht]
    cases r <;> simp [droppedWhenBusy, Reg.offset]
  · simp only [ht, droppedWhenBusy, true_iff]
    omega
  · simp only [ht, droppedWhenBusy, decide_eq_true_eq]
    omega
  all_goals
    simp only [ht, droppedWhenBusy, reservedOffset, false_iff, Bool.false_eq_true] at h ⊢
    omega

/-- A write outside the command inputs, STATUS and IRQ_EN reaches nothing (R21, R54, R55). -/
theorem writeTarget_of_not_writable {s : State} {off : Offset} (ha : off.toNat % 4 = 0)
    (hinput : ¬ isCommandInput s off.toNat) (hstatus : off.toNat ≠ 0x0C) (hirq : off.toNat ≠ 0x18) (v : Word) :
    writeTarget v s (target off) = s := by
  have hdropped : ¬ droppedWhenBusy s (target off) = true := mt (droppedWhenBusy_iff s ha).1 hinput
  rcases target_cases ha with ⟨r, rfl, ht⟩ | ⟨-, _, ht⟩ | ⟨-, ht⟩ | ⟨-, _, ht⟩ | ⟨-, _, ht | ht⟩ | ⟨-, _, ht⟩ | ⟨-, ht⟩ <;>
    rw [ht] at hdropped ⊢
  · rcases writeReg_cases v s r with he | ⟨rfl, -⟩ | ⟨rfl, -⟩ | ⟨rfl, -⟩ | ⟨rfl, -⟩ | ⟨rfl, -⟩ | ⟨rfl, -⟩
    · exact he
    · exact absurd rfl hdropped
    · exact absurd rfl hstatus
    · exact absurd rfl hirq
    all_goals exact absurd rfl hdropped
  · exact absurd rfl hdropped
  · exact if_neg (by simpa [droppedWhenBusy] using hdropped)
  all_goals rfl

/-! ## The statements -/

/-- Settles O9: the dropped writes are those of R60's inputs, and past STATUS and IRQ_EN no other write reaches a
field. -/
theorem busyWritesOfInputsAreDropped : Obligations.BusyWritesOfInputsAreDropped := by
  intro s off v hb ha a input
  refine ⟨fun h => busWrite_of_dropped hb ((droppedWhenBusy_iff s ha).2 h) v,
    fun h => busWrite_reg_of_not_dropped (r := .status) h rfl v,
    fun h => busWrite_reg_of_not_dropped (r := .irqEn) h rfl v, fun h hstatus hirq => ?_⟩
  have hdropped : droppedWhenBusy s (target off) = false := by
    simpa using mt (droppedWhenBusy_iff s ha).1 h
  rw [busWrite_of_not_dropped hdropped]
  exact writeTarget_of_not_writable ha h hstatus hirq v

/-- Settles O10: outside the free bits a read is the stored word, and the invariant clears DONE, ERROR, ERR_CODE and
ERR_INFO in the busy window. -/
theorem busyReadsThatAreNotFree : Obligations.BusyReadsThatAreNotFree := by
  intro s h hb
  obtain ⟨hdone, herror, hcode, hinfo⟩ := h.busyClear hb
  have hbusy : s.busy = true := by simp [State.busy, hb]
  have hstatus : ∀ b, (0x000000F0#32).getLsbD b = false →
      (busRead s 0x00000C#24).1.getLsbD b = (statusWord s).getLsbD b := fun b hm => busRead_getLsbD hm
  have hupper : ∀ b, 8 ≤ b → (0x000000F0#32).getLsbD b = false := fun b h8 =>
    Nat.testBit_lt_two_pow ((by decide : 0xF0 < 2 ^ 8).trans_le (Nat.pow_le_pow_right (by decide) h8))
  refine ⟨⟨?_, ?_, ?_, ?_, fun b h8 => ?_⟩, ?_, ?_, busRead_of_anyMask rfl, busRead_of_anyMask rfl,
    busRead_of_anyMask rfl, busRead_of_anyMask rfl, busRead_of_anyMask rfl, fun k hk => ?_⟩
  · rw [hstatus 0 rfl, statusWord_getLsbD, ← hbusy]
    rfl
  · rw [hstatus 1 rfl, statusWord_getLsbD, ← hdone]
    rfl
  · rw [hstatus 2 rfl, statusWord_getLsbD, ← herror]
    rfl
  · rw [hstatus 3 rfl, statusWord_getLsbD]
    rfl
  · rw [hstatus b (hupper b h8), statusWord_getLsbD]
    exact List.getD_eq_default _ _ h8
  · have hread : (busRead s 0x000010#24).1 = s.errCode.number.setWidth 32 := busRead_of_anyMask rfl
    rw [hread, hcode]
    rfl
  · exact (busRead_of_anyMask rfl).trans hinfo
  · have ht : target (inOffset k) = .inByte k := target_inOffset (hk.trans_le (inCap_le h))
    rw [busRead_of_anyMask (by rw [ht]; rfl), ht]
    exact if_pos hk

/-- Settles O14: the word of symbol `sym` is FREQ[sym], which a command reads. -/
theorem freqWindowStoresWeights : Obligations.FreqWindowStoresWeights := by
  intro s sym v
  have ht : target (BitVec.ofNat 24 (0x001000 + 4 * sym.toNat)) = .freq sym := target_freqOffset sym
  refine ⟨fun hi => ⟨?_, tableSet s.freq sym v, ?_, by simp, fun r hr => by simp [hr.symm]⟩, fun hb => ?_⟩
  · simp [busRead, hi, ht, storedWord]
  · rw [busWrite_of_idle hi, ht]
    rfl
  · exact busWrite_of_dropped hb (by rw [ht]; rfl) v

/-- Settles O15: the word of index `k` is byte `k` of IN below IN_CAP, and nothing from there on. -/
theorem inWindowStoresBytes : Obligations.InWindowStoresBytes := by
  intro s k v hk
  have ht : target (BitVec.ofNat 24 (0x100000 + 4 * k)) = .inByte k := target_inOffset hk
  have hread : (busRead s (BitVec.ofNat 24 (0x100000 + 4 * k))).1 = storedWord s (.inByte k) := by
    rw [busRead_of_anyMask (by rw [ht]; rfl), ht]
  refine ⟨fun hc => ?_, fun hc hi => busWrite_inByte_of_idle hi ht hc v, fun hc hb => ?_, fun hc => ⟨?_, ?_⟩⟩
  · exact hread.trans (if_pos hc)
  · exact busWrite_of_dropped hb (by simpa [ht, droppedWhenBusy] using hc) v
  · exact hread.trans (if_neg (by omega))
  · rw [busWrite_of_not_dropped (by simpa [ht, droppedWhenBusy] using hc), ht]
    exact if_neg (by omega)

/-- The head word of a DICT entry, its two fields joined by "or" (R54). -/
theorem entryHead_eq_or (e : Entry) :
    entryHead e = (if e.valid then 0x80000000#32 else 0#32) ||| e.len.setWidth 32 := by
  apply BitVec.eq_of_toNat_eq
  have hlen : e.len.toNat % 2 ^ 32 = e.len.toNat := Nat.mod_eq_of_lt (by omega)
  rw [entryHead, BitVec.toNat_append, BitVec.toNat_append, BitVec.toNat_or, BitVec.toNat_setWidth, hlen]
  cases e.valid <;> rfl

/-- Settles O16: no write acts on a result window, and an idle read gives the stored word. -/
theorem resultWindowsAreReadOnly : Obligations.ResultWindowsAreReadOnly := by
  intro s sym k v hk
  have hlen : target (BitVec.ofNat 24 (0x001400 + 4 * sym.toNat)) = .len sym := target_lenOffset sym
  have hhead : target (BitVec.ofNat 24 (0x002000 + 8 * sym.toNat)) = .dictHead sym := target_dictHeadOffset sym
  have hval : target (BitVec.ofNat 24 (0x002004 + 8 * sym.toNat)) = .dictVal sym := target_dictValOffset sym
  have hout : target (BitVec.ofNat 24 (0x200000 + 4 * k)) = .outByte k := target_outOffset k hk
  refine ⟨fun hi => ?_, ?_, ?_, ?_, ?_⟩
  · rw [busRead_of_idle hi, busRead_of_idle hi, busRead_of_idle hi, busRead_of_idle hi, hlen, hhead, hval, hout]
    exact ⟨rfl, entryHead_eq_or _, rfl, rfl⟩
  · rw [busWrite_of_not_dropped (by rw [hlen]; rfl), hlen]
    rfl
  · rw [busWrite_of_not_dropped (by rw [hhead]; rfl), hhead]
    rfl
  · rw [busWrite_of_not_dropped (by rw [hval]; rfl), hval]
    rfl
  · rw [busWrite_of_not_dropped (by rw [hout]; rfl), hout]
    rfl

/-- Settles O17: a reserved offset is no target. -/
theorem reservedOffsetsReadZero : Obligations.ReservedOffsetsReadZero := by
  intro s off v h
  have ht : target off = .reserved := target_reserved h
  constructor
  · rw [busRead_of_anyMask (by rw [ht]; rfl), ht]
    rfl
  · rw [busWrite_of_not_dropped (by rw [ht]; rfl), ht]
    rfl

/-- Settles O18: the writable registers and IN bytes one by one, `writeTarget_of_not_writable` for the rest, and O9 in
the busy window. -/
theorem onlyThreeWritesHaveSideEffects : Obligations.OnlyThreeWritesHaveSideEffects := by
  intro s off v ha a k inByte
  refine ⟨busRead_state s off, fun hi => ⟨fun h => busWrite_reg_of_idle (r := .irqEn) hi h v,
    fun h => busWrite_reg_of_idle (r := .inLen) hi h v, fun h => busWrite_reg_of_idle (r := .arg0) hi h v,
    fun h => busWrite_reg_of_idle (r := .arg1) hi h v, fun ⟨h1, h2, hk⟩ => ?_,
    fun hcmd hstatus hfreq hirq hlen harg0 harg1 hin => ?_⟩, fun hb hstatus hirq => ?_⟩
  · exact busWrite_inByte_of_idle hi (target_inWindow h1 h2) hk v
  · have hinput : ¬ isCommandInput s off.toNat := by
      rintro (h | h | h | h | h | h)
      exacts [hcmd h, hlen h, harg0 h, harg1 h, hfreq h, hin h]
    rw [busWrite_of_idle hi]
    exact writeTarget_of_not_writable ha hinput hstatus hirq v
  · obtain ⟨hdrop, -, -, hignore⟩ := busyWritesOfInputsAreDropped s off v hb ha
    by_cases hinput : isCommandInput s off.toNat
    · exact .inr (hdrop hinput)
    · exact .inl (hignore hinput hstatus hirq)

end Sys2Proof.Machine
end

section
/-! PROOFS. Which host accesses are refused (20_memory.md R56), and that a program of admitted ones never is (R322). -/

namespace Sys2Proof.Machine

/-! ## The host's program and the block -/

theorem complete_program (r : BodyResult) : (complete r).program = r.1.program := by
  unfold complete
  split <;> rfl

/-- No command touches the host's program. -/
theorem bodyOf_program (i : Instr) (s : State) : (bodyOf i s).1.program = s.program := by
  cases i with
  | nop => rfl
  | softReset => rfl
  | freqCount => rcases bodyFreqCount_cases s with ⟨-, he⟩ | ⟨-, he⟩ <;> rw [bodyOf, he] <;> rfl
  | buildTree => rcases bodyBuildTree_cases s with ⟨-, he⟩ | ⟨-, he⟩ <;> rw [bodyOf, he] <;> rfl
  | assignCodes => rcases bodyAssignCodes_cases s with ⟨-, he⟩ | ⟨-, he⟩ <;> rw [bodyOf, he] <;> rfl
  | buildDict =>
    rcases bodyBuildDict_cases s with ⟨-, he⟩ | ⟨-, -, he⟩ | ⟨-, -, he⟩ <;> rw [bodyOf, he] <;> rfl
  | dictClear => rfl
  | dictWrite =>
    rcases bodyDictWrite_cases s with ⟨-, he⟩ | ⟨-, -, he⟩ | ⟨-, -, _, -, he⟩ | ⟨-, -, -, -, he⟩ |
      ⟨-, -, -, -, he⟩ <;> rw [bodyOf, he] <;> rfl
  | encode => rcases bodyEncode_cases s with ⟨_, _, he, -⟩ | ⟨-, -, -, -, -, he⟩ <;> rw [bodyOf, he] <;> rfl
  | buildTrie =>
    rcases bodyBuildTrie_cases s with ⟨-, he⟩ | ⟨-, _, -, he⟩ | ⟨-, _, -, he⟩ <;> rw [bodyOf, he] <;> rfl
  | decode => rcases bodyDecode_cases s with ⟨_, _, he, -⟩ | ⟨-, -, _, _, -, -, he⟩ <;> rw [bodyOf, he] <;> rfl

theorem latchedBody_program (s : State) : (latchedBody s).1.program = s.program := by
  unfold latchedBody
  split
  · exact bodyOf_program _ s
  · rfl

theorem countAccess_program (s : State) : (countAccess s).program = s.program := by
  obtain ⟨d, hd⟩ := countAccess_eq s
  rw [hd]

theorem busWrite_program (s : State) (off : Offset) (v : Word) : (busWrite s off v).program = s.program := by
  rcases busWrite_cases s off v with ⟨-, -, he⟩ | ⟨-, he⟩ <;> rw [he]
  rcases writeTarget_cases v s (target off) with he | ⟨r, -, he⟩ | ⟨_, -, he⟩ | ⟨_, -, -, he⟩ <;> rw [he]
  cases r <;> rfl

theorem hostRead_program (off : Offset) (s : State) : (hostRead off s).2.program = s.program := by
  obtain ⟨d, tr, he⟩ := hostRead_state off s
  rw [he]

theorem hostCheck_program (off : Offset) (mask v : Word) (s : State) :
    (hostCheck off mask v s).program = s.program := by
  simp only [hostCheck]
  split <;> exact hostRead_program off s

/-! ## Aligned offsets -/

/-- A wide access is admitted at the multiples of 4 (R56). -/
theorem wellFormed_offset_iff {off : Offset} : WellFormed.offset off = true ↔ off.toNat % 4 = 0 := by
  refine ⟨fun h => ?_, offset_wellFormed off⟩
  have h0 : off.extractLsb' 0 2 = 0#2 := by simpa [WellFormed.offset] using h
  simpa using congrArg BitVec.toNat h0

/-- The offsets of R87's OUT words are aligned, also where they wrap. -/
theorem outOffset_wellFormed (k : Nat) : WellFormed.offset (outOffset k) = true := by
  apply offset_wellFormed
  simp only [outOffset, BitVec.toNat_ofNat]
  omega

theorem whenAligned_of_misaligned {off : Offset} (h : off.toNat % 4 ≠ 0) (s : State) :
    whenAligned off s = .refused .misalignedAccess :=
  if_neg (mt wellFormed_offset_iff.1 h)

/-! ## Admitted programs -/

/-- The host's turn runs the head of its program. -/
theorem step_of_host {s : State} {stmt : HostStmt} {rest : List HostStmt} (hm : engineMoves s = false)
    (hp : s.program = stmt :: rest) : step s = runStmt stmt (countAccess s) := by
  simp [step, hm, hostStep, countAccess_program, hp]

/-- The rest of an admitted program is admitted. -/
theorem admitted_of_tail {s t : State} (h : s.admitted) (ht : t.program = s.program.tail) : t.admitted := by
  intro stmt hm
  rw [ht] at hm
  exact h stmt (List.mem_of_mem_tail hm)

theorem admitted_of_program_eq {s t : State} (h : s.admitted) (ht : t.program = s.program) : t.admitted := by
  rw [State.admitted, ht]
  exact h

/-- An admitted access is made, and its statement is finished. -/
theorem access_admitted {s t : State} {off : Offset} (hs : s.admitted) (ha : WellFormed.offset off = true)
    (ht : t.program = s.program) : ∃ u, whenAligned off (popStmt t) = .next u ∧ u.admitted :=
  ⟨popStmt t, if_pos ha, admitted_of_tail hs (congrArg List.tail ht)⟩

theorem hostWait_admitted {s : State} (hs : s.admitted) : (hostWait s).admitted := by
  have hp := hostRead_program (Reg.offset .status) s
  simp only [hostWait]
  split
  · exact admitted_of_program_eq hs hp
  · exact admitted_of_tail hs (congrArg List.tail hp)

theorem hostStopIfError_admitted {s : State} (hs : s.admitted) : (hostStopIfError s).admitted := by
  have hp := hostRead_program (Reg.offset .status) s
  simp only [hostStopIfError]
  split
  · exact nofun
  · exact admitted_of_tail hs (congrArg List.tail hp)

theorem hostReadOut_admitted {s : State} (hs : s.admitted) : (hostReadOut s).admitted := by
  intro stmt hm
  rcases List.mem_append.1 hm with hm | hm
  · obtain ⟨k, -, rfl⟩ := List.mem_map.1 hm
    exact outOffset_wellFormed k
  · rw [hostRead_program] at hm
    exact hs stmt (List.mem_of_mem_tail hm)

/-- An admitted statement of an admitted program is not refused, and the program stays admitted. -/
theorem runStmt_admitted {stmt : HostStmt} {s : State} (hstmt : stmt.admitted = true) (hs : s.admitted) :
    ∃ t, runStmt stmt s = .next t ∧ t.admitted := by
  cases stmt with
  | wr off v => exact access_admitted hs hstmt (busWrite_program s off v)
  | rd off => exact access_admitted hs hstmt (hostRead_program off s)
  | check off v => exact access_admitted hs hstmt (hostCheck_program off _ v s)
  | checkm off mask v => exact access_admitted hs hstmt (hostCheck_program off mask v s)
  | wait => exact ⟨_, rfl, hostWait_admitted hs⟩
  | stopIfError => exact ⟨_, rfl, hostStopIfError_admitted hs⟩
  | readOut => exact ⟨_, rfl, hostReadOut_admitted hs⟩
  | reset => exact ⟨_, rfl, admitted_of_tail hs rfl⟩
  | narrow _ _ => cases hstmt

/-! ## The statements -/

/-- Settles O19: on the host's turn the head of the program runs, and its access is refused. -/
theorem narrowAndMisalignedAccessesAreRefused : Obligations.NarrowAndMisalignedAccessesAreRefused := by
  intro s rest off hm
  refine ⟨fun width hp => step_of_host hm hp, fun ha => ⟨fun hp => ?_, fun v hp => ?_, fun v hp => ?_,
    fun mask v hp => ?_⟩⟩ <;>
    rw [step_of_host hm hp] <;> exact whenAligned_of_misaligned ha _

/-- Settles O20: a completion keeps the program, and the host's turn runs an admitted statement of it. -/
theorem admittedProgramsAreNeverRefused : Obligations.AdmittedProgramsAreNeverRefused := by
  intro s hs
  cases hm : engineMoves s with
  | true =>
    have hstep : step s = .next (complete (latchedBody s)) := by rw [step, if_pos hm, engineStep_eq]
    exact ⟨_, hstep, admitted_of_program_eq hs ((complete_program _).trans (latchedBody_program s))⟩
  | false =>
    have hcount : (countAccess s).admitted := admitted_of_program_eq hs (countAccess_program s)
    cases hp : s.program with
    | nil => exact ⟨countAccess s, by simp [step, hm, hostStep, countAccess_program, hp], hcount⟩
    | cons stmt rest =>
      rw [step_of_host hm hp]
      exact runStmt_admitted (hs stmt (by simp [hp])) hcount

end Sys2Proof.Machine
end

section
/-! PROOFS. Command words (30_encoding.md R80 to R85): `decode` and `encode` by the word's two fields. -/

namespace Sys2Proof

/-! ## The fields of a word -/

/-- RSVD stands above OPCODE, and nothing else is in a word (R80). -/
theorem word_toNat_eq (w : Word) : w.toNat = 256 * (rsvdField w).toNat + (opcodeField w).toNat := by
  simp only [rsvdField, opcodeField, BitVec.extractLsb'_toNat]
  omega

theorem rsvdField_encode (i : Instr) : rsvdField (encode i) = 0#24 := by cases i <;> rfl

theorem opcodeField_encode (i : Instr) : opcodeField (encode i) = i.opcode := by cases i <;> rfl

/-- A word is a command's word when RSVD is zero and OPCODE is the command's (R84). -/
theorem eq_encode_iff {w : Word} {i : Instr} : w = encode i ↔ rsvdField w = 0#24 ∧ opcodeField w = i.opcode := by
  refine ⟨?_, fun ⟨hr, ho⟩ => BitVec.eq_of_toNat_eq ?_⟩
  · rintro rfl
    exact ⟨rsvdField_encode i, opcodeField_encode i⟩
  · rw [word_toNat_eq w, word_toNat_eq (encode i), hr, ho, rsvdField_encode, opcodeField_encode]

/-! ## The opcode map -/

theorem instrOfOpcode_opcode (i : Instr) : instrOfOpcode i.opcode.toNat = some i := by cases i <;> rfl

/-- The two readings of the opcode map agree (R84). -/
theorem instrOfOpcode_eq_some_iff {n : Nat} {i : Instr} : instrOfOpcode n = some i ↔ n = i.opcode.toNat := by
  refine ⟨fun h => ?_, ?_⟩
  · unfold instrOfOpcode at h
    split at h <;> cases h <;> rfl
  · rintro rfl
    exact instrOfOpcode_opcode i

/-- The opcodes past the map are reserved (R85). -/
theorem instrOfOpcode_eq_none_iff {n : Nat} : instrOfOpcode n = none ↔ 0x0B ≤ n := by
  constructor
  · intro h
    by_contra hn
    interval_cases n <;> cases h
  · intro h
    rw [Option.eq_none_iff_forall_ne_some]
    intro i hi
    have hle : i.opcode.toNat ≤ 0x0A := by cases i <;> decide
    rw [instrOfOpcode_eq_some_iff] at hi
    omega

/-! ## Decoding by cases -/

theorem decode_of_rsvd_zero {w : Word} (h : rsvdField w = 0#24) :
    decode w = (instrOfOpcode (opcodeField w).toNat).elim (.error .opcodeReserved) .ok := by
  simp only [decode, h, ne_eq, not_true_eq_false, if_false]
  cases instrOfOpcode (opcodeField w).toNat <;> rfl

theorem decode_of_rsvd_nonzero {w : Word} (h : rsvdField w ≠ 0#24) : decode w = .error .rsvdNonzero := if_pos h

theorem decode_eq_ok_iff {w : Word} {i : Instr} :
    decode w = .ok i ↔ rsvdField w = 0#24 ∧ opcodeField w = i.opcode := by
  have ho : opcodeField w = i.opcode ↔ instrOfOpcode (opcodeField w).toNat = some i :=
    BitVec.toNat_inj.symm.trans instrOfOpcode_eq_some_iff.symm
  by_cases hr : rsvdField w = 0#24
  · rw [decode_of_rsvd_zero hr, ho]
    cases instrOfOpcode (opcodeField w).toNat <;> simp [hr]
  · simp [decode_of_rsvd_nonzero hr, hr]

theorem decode_eq_rsvdNonzero_iff {w : Word} : decode w = .error .rsvdNonzero ↔ rsvdField w ≠ 0#24 := by
  by_cases hr : rsvdField w = 0#24
  · rw [decode_of_rsvd_zero hr]
    cases instrOfOpcode (opcodeField w).toNat <;> simp [hr]
  · simp [decode_of_rsvd_nonzero hr, hr]

theorem decode_eq_opcodeReserved_iff {w : Word} :
    decode w = .error .opcodeReserved ↔ rsvdField w = 0#24 ∧ 0x0B ≤ (opcodeField w).toNat := by
  by_cases hr : rsvdField w = 0#24
  · rw [decode_of_rsvd_zero hr, ← instrOfOpcode_eq_none_iff]
    cases instrOfOpcode (opcodeField w).toNat <;> simp [hr]
  · simp [decode_of_rsvd_nonzero hr, hr]

/-- A word is illegal under one of the two names of R85. -/
theorem decode_error_iff {w : Word} :
    (∃ e, decode w = .error e) ↔ rsvdField w ≠ 0#24 ∨ rsvdField w = 0#24 ∧ 0x0B ≤ (opcodeField w).toNat := by
  rw [← decode_eq_rsvdNonzero_iff, ← decode_eq_opcodeReserved_iff]
  constructor
  · rintro ⟨_ | _, h⟩
    · exact .inl h
    · exact .inr h
  · rintro (h | h) <;> exact ⟨_, h⟩

/-- Decoding a command's word gives the command back. -/
theorem decode_encode (i : Instr) : decode (encode i) = .ok i :=
  decode_eq_ok_iff.2 ⟨rsvdField_encode i, opcodeField_encode i⟩

/-! ## The statements -/

/-- Settles O2: both sides say that RSVD is zero and OPCODE is the command's. -/
theorem decodeInvertsEncodeOnAllWords : Obligations.DecodeInvertsEncodeOnAllWords :=
  fun _ _ => decode_eq_ok_iff.trans eq_encode_iff.symm

/-- Settles O3: with RSVD zero the word's number is its OPCODE, else it is 256 or more. -/
theorem illegalWordsAreExactlyTheReserved : Obligations.IllegalWordsAreExactlyTheReserved := by
  intro w
  refine ⟨decode_eq_rsvdNonzero_iff, decode_eq_opcodeReserved_iff, decode_error_iff.trans ?_⟩
  have hw := word_toNat_eq w
  have hr : rsvdField w = 0#24 ↔ (rsvdField w).toNat = 0 := (BitVec.toNat_inj (y := 0#24)).symm
  rw [ne_eq, hr]
  omega

/-- Settles O1: each word of the table is its command's, and decodes to it. -/
theorem commandWordsOfTheOpcodeMap : Obligations.CommandWordsOfTheOpcodeMap :=
  ⟨decode_encode .nop, rfl, decode_encode .softReset, rfl, decode_encode .freqCount, rfl,
    decode_encode .buildTree, rfl, decode_encode .assignCodes, rfl, decode_encode .buildDict, rfl,
    decode_encode .dictClear, rfl, decode_encode .dictWrite, rfl, decode_encode .encode, rfl,
    decode_encode .buildTrie, rfl, decode_encode .decode, rfl⟩

end Sys2Proof
end

section
/-! PROOFS. Whose turn a step is (00_scope.md R11), and what the engine runs at its turn (40_control.md R102). -/

namespace Sys2Proof.Machine

/-! ## Turns -/

theorem engineMoves_iff {s : State} : engineMoves s = true ↔ s.phase = .busy ∧ (s.delay = 0 ∨ s.program = []) := by
  simp [engineMoves]

theorem step_of_engineMoves {s : State} (h : engineMoves s = true) : step s = engineStep s := if_pos h

theorem step_of_not_engineMoves {s : State} (h : engineMoves s = false) : step s = hostStep (countAccess s) :=
  if_neg (by simp [h])

theorem countAccess_of_busy {s : State} (h : s.phase = .busy) : countAccess s = { s with delay := s.delay - 1 } :=
  if_pos h

theorem countAccess_of_idle {s : State} (h : s.phase = .idle) : countAccess s = s := if_neg (by simp [h])

/-! ## The engine's turn -/

theorem engineStep_of_decode_ok {s : State} {i : Instr} (h : decode s.latch = .ok i) : engineStep s = exec i s := by
  simp only [engineStep, h]

/-- An illegal word completes with ILLEGAL_COMMAND and the latched word (R107). -/
theorem engineStep_of_decode_error {s : State} {e : IllegalWord} (h : decode s.latch = .error e) :
    engineStep s = .next { s with
      phase := .idle, done := true, error := true, errCode := .illegalCommand, errInfo := s.latch } := by
  simp only [engineStep, h]
  rfl

/-! ## A placed command word -/

/-- Only the low bits of a placed word are latched, and a 32-bit word has no others. -/
theorem withFetchWord_toNat (s : State) (w : Word) :
    s.withFetchWord 32 w.toNat = { latchCommand w s with delay := 0 } := by
  rw [State.withFetchWord, Nat.mod_eq_of_lt w.isLt, BitVec.ofNat_toNat, BitVec.setWidth_eq]

theorem decodeTableWord_of_decode_ok {w : Word} {i : Instr} (h : decode w = .ok i) :
    decodeTableWord 32 w.toNat = some i := by
  rw [decodeTableWord, Nat.mod_eq_of_lt w.isLt, BitVec.ofNat_toNat, BitVec.setWidth_eq, h]

/-! ## The statements -/

/-- Settles O4, turn by turn. -/
theorem stepRunsTheLatchedCommand : Obligations.StepRunsTheLatchedCommand := by
  intro s
  refine ⟨fun i hd hb ht => ?_, fun e hd hb ht => ?_, fun hb hdelay hp => ?_, fun hi => ?_⟩
  · exact (step_of_engineMoves (engineMoves_iff.2 ⟨hb, ht⟩)).trans (engineStep_of_decode_ok hd)
  · exact (step_of_engineMoves (engineMoves_iff.2 ⟨hb, ht⟩)).trans (engineStep_of_decode_error hd)
  · rw [step_of_not_engineMoves (by simp [engineMoves, hdelay, hp]), countAccess_of_busy hb]
  · rw [step_of_not_engineMoves (by simp [engineMoves, hi]), countAccess_of_idle hi]

/-- Settles O5: a placed word is the latched one, and the engine is to move. -/
theorem placedCommandRunsNext : Obligations.PlacedCommandRunsNext := by
  intro s i
  refine ⟨decodeTableWord_of_decode_ok (decode_encode i), ?_, ?_⟩ <;> rw [withFetchWord_toNat]
  · exact (step_of_engineMoves (latchCommand_engineMoves _ s)).trans (engineStep_of_decode_ok (decode_encode i))
  · rfl

end Sys2Proof.Machine
end

section
/-! PROOFS. The operand words of `dput` (30_encoding.md R81, R88, 44_dictionary.md R183): a codeword as a number, and
the fields of ARG0. -/

namespace Sys2Proof.Machine

/-! ## Codewords as numbers (R9) -/

theorem valOf_concat (c : List Bool) (b : Bool) : valOf (c ++ [b]) = Nat.bit b (valOf c) := by
  simp [valOf, Nat.bit_val]

/-- The last bit of a codeword is the lowest bit of its number. -/
theorem testBit_valOf (c : List Bool) (k : Nat) : (valOf c).testBit k = c.reverse.getD k false := by
  induction c using List.reverseRecOn generalizing k with
  | nil => simp [valOf]
  | append_singleton c b ih =>
    rw [valOf_concat, List.reverse_append, List.reverse_singleton, List.singleton_append]
    cases k with
    | zero => rw [Nat.testBit_bit_zero, List.getD_cons_zero]
    | succ k => rw [Nat.testBit_bit_succ, List.getD_cons_succ, ih]

theorem valOf_lt (c : List Bool) : valOf c < 2 ^ c.length := by
  apply Nat.lt_pow_two_of_testBit
  intro k hk
  rw [testBit_valOf, List.getD_eq_default]
  simpa using hk

/-- `bitsOf` undoes `valOf` on the codewords a word can hold. -/
theorem bitsOf_valOf {c : List Bool} (h : c.length ≤ 32) : bitsOf c.length (BitVec.ofNat 32 (valOf c)) = c := by
  apply List.ext_getElem (by simp [bitsOf])
  intro k _ hk
  have hlt : c.length - 1 - k < 32 := by omega
  have hidx : c.length - 1 - (c.length - 1 - k) = k := by omega
  have hrev : c.length - 1 - k < c.reverse.length := by simp; omega
  simp [bitsOf, BitVec.getLsbD_ofNat, hlt, testBit_valOf, List.getElem?_eq_getElem hrev, hidx]

/-! ## The fields of ARG0 (R29) -/

/-- The symbol stands below the length: the "or" of R88 is a sum. -/
theorem dputArg0_toNat (sym : Byte) {c : List Bool} (h : c.length ≤ 32) :
    (dputArg0 sym c).toNat = c.length * 2 ^ 8 + sym.toNat := by
  have hsym := sym.isLt
  have hlen : (BitVec.ofNat 32 c.length <<< 8).toNat = c.length <<< 8 := by
    simp only [BitVec.toNat_shiftLeft, BitVec.toNat_ofNat, Nat.shiftLeft_eq]
    omega
  have hbyte : (sym.setWidth 32).toNat = sym.toNat := by
    rw [BitVec.toNat_setWidth]
    omega
  rw [dputArg0, BitVec.toNat_or, hlen, hbyte, ← Nat.shiftLeft_add_eq_or_of_lt hsym, Nat.shiftLeft_eq]

theorem argSymbol_withPairArgs (s : State) (sym : Byte) {c : List Bool} (h : c.length ≤ 32) :
    argSymbol (withPairArgs (sym, c) s) = sym := by
  apply BitVec.eq_of_toNat_eq
  have hsym := sym.isLt
  simp only [argSymbol, withPairArgs, BitVec.extractLsb'_toNat, dputArg0_toNat sym h]
  omega

theorem argLength_withPairArgs (s : State) (sym : Byte) {c : List Bool} (h : c.length ≤ 32) :
    (argLength (withPairArgs (sym, c) s)).toNat = c.length := by
  have hsym := sym.isLt
  simp only [argLength, withPairArgs, BitVec.extractLsb'_toNat, dputArg0_toNat sym h]
  omega

theorem argReserved_withPairArgs (s : State) (sym : Byte) {c : List Bool} (h : c.length ≤ 32) :
    argReserved (withPairArgs (sym, c) s) = 0#18 := by
  apply BitVec.eq_of_toNat_eq
  have hsym := sym.isLt
  simp only [argReserved, withPairArgs, BitVec.extractLsb'_toNat, dputArg0_toNat sym h, BitVec.toNat_ofNat]
  omega

/-- The operands of a codeword of 1 to 32 bits are well-formed (R170). -/
theorem malformedOperand_withPairArgs (s : State) (sym : Byte) {c : List Bool} (h1 : 1 ≤ c.length)
    (h32 : c.length ≤ 32) : malformedOperand (withPairArgs (sym, c) s) = false := by
  have hcode : wellFormedCode c.length (BitVec.ofNat 32 (valOf c)).toNat = true :=
    wellFormedCode_iff.2 ⟨h1, h32, (Nat.mod_le _ _).trans_lt (valOf_lt c)⟩
  rw [malformedOperand, argReserved_withPairArgs s sym h32, argLength_withPairArgs s sym h32]
  simpa [withPairArgs] using hcode

/-- Settles O46, field by field; the codeword is read back from its number. -/
theorem dputOperandsSpellTheCodeword : Obligations.DputOperandsSpellTheCodeword := by
  intro s sym c h1 h32 t
  have hlen : (argLength t).toNat = c.length := argLength_withPairArgs s sym h32
  exact ⟨argSymbol_withPairArgs s sym h32, hlen, argReserved_withPairArgs s sym h32,
    malformedOperand_withPairArgs s sym h1 h32, hlen ▸ bitsOf_valOf h32⟩

end Sys2Proof.Machine
end

section
/-! PROOFS. What each command may write and how it ends, on every path (40_control.md R102, R103). -/

namespace Sys2Proof.Machine

/-! ## What a body leaves -/

/-- `Writes s i u`: command `i` may leave `u` from `s` before its completion. Each command changes the fields its rule
names and no other; which values they get is left open but for SOFT_RESET. -/
inductive Writes (s : State) : Instr → State → Prop
  | nop : Writes s .nop s
  | softReset : Writes s .softReset (bodySoftReset s).1
  | counted (f : Table Word) (v : Bool) : Writes s .freqCount { s with freq := f, lenValid := v }
  | lengths (l : Table (BitVec 6)) (v : Bool) : Writes s .buildTree { s with len := l, lenValid := v }
  | built (f : Table Word) (l : Table (BitVec 6)) (lv : Bool) (d : Table Entry) (n : BitVec 9) (v b : Bool) :
      Writes s .buildDict
        { s with freq := f, len := l, lenValid := lv, dict := d, nsym := n, trieValid := v, dictBad := b }
  | dictionary (i : Instr) (hi : i ∈ [Instr.assignCodes, .dictClear, .dictWrite]) (d : Table Entry) (n : BitVec 9)
      (v b : Bool) : Writes s i { s with dict := d, nsym := n, trieValid := v, dictBad := b }
  | trie (t : Trie) (v : Bool) : Writes s .buildTrie { s with trie := t, trieValid := v }
  | output (i : Instr) (hi : i ∈ [Instr.encode, .decode]) (o : Buffer) (n bits : Word) (v : Bool) (k : Nat) :
      Writes s i { s with outBuf := o, outLen := n, bitCount := bits, outValid := v, draws := k }

/-- No body touches the error record: a success leaves it as it was (R102). -/
theorem Writes.errorRecord {s u : State} {i : Instr} (h : Writes s i u) :
    u.error = s.error ∧ u.errCode = s.errCode ∧ u.errInfo = s.errInfo := by
  cases h <;> exact ⟨rfl, rfl, rfl⟩

/-! ## How a body ends -/

/-- The body ends by `finish`, or by `raise` with a code of its own, in a state of which `P` holds (R103). -/
def BodyResult.Ends (P : State → Prop) (r : BodyResult) : Prop :=
  ∃ u, P u ∧ (r = finish u ∨ ∃ c info, c ≠ .noError ∧ r = raise c info u)

theorem finish_ends {P : State → Prop} {u : State} (h : P u) : (finish u).Ends P := ⟨u, h, .inl rfl⟩

theorem raise_ends {P : State → Prop} {u : State} {c : ErrCode} {info : Word} (h : P u) (hc : c ≠ .noError) :
    (raise c info u).Ends P := ⟨u, h, .inr ⟨c, info, hc, rfl⟩⟩

theorem failOutput_ends {P : State → Prop} {s : State} {c : ErrCode} {info : Word} (h : P (failOutput c info s).1)
    (hc : c ≠ .noError) : (failOutput c info s).Ends P := raise_ends h hc

/-- Completion of a body that ends so: IDLE and DONE, and on an error the record of R271. -/
theorem complete_of_ends {P : State → Prop} {r : BodyResult} (h : r.Ends P) :
    ∃ u, P u ∧ (complete r = { u with phase := .idle, done := true } ∨
      ∃ c info, c ≠ .noError ∧ complete r =
        { u with phase := .idle, done := true, error := true, errCode := c, errInfo := info }) := by
  obtain ⟨u, hu, rfl | ⟨c, info, hc, rfl⟩⟩ := h
  · exact ⟨u, hu, .inl rfl⟩
  · exact ⟨u, hu, .inr ⟨c, info, hc, rfl⟩⟩

/-- Every body ends, having written no more than its command may. -/
theorem bodyOf_ends (i : Instr) (s : State) : (bodyOf i s).Ends (Writes s i) := by
  cases i with
  | nop => exact finish_ends .nop
  | softReset => exact finish_ends .softReset
  | freqCount =>
    rcases bodyFreqCount_cases s with ⟨-, he⟩ | ⟨-, he⟩ <;> rw [bodyOf, he]
    · exact raise_ends (.counted s.freq s.lenValid) (by decide)
    · exact finish_ends (.counted _ _)
  | buildTree =>
    rcases bodyBuildTree_cases s with ⟨-, he⟩ | ⟨-, he⟩ <;> rw [bodyOf, he]
    · exact raise_ends (.lengths _ _) (by decide)
    · exact finish_ends (.lengths _ _)
  | assignCodes =>
    rcases bodyAssignCodes_cases s with ⟨-, he⟩ | ⟨-, he⟩ <;> rw [bodyOf, he]
    · exact raise_ends (.dictionary _ (by decide) s.dict s.nsym s.trieValid s.dictBad) (by decide)
    · exact finish_ends (.dictionary _ (by decide) _ _ _ _)
  | buildDict =>
    rcases bodyBuildDict_cases s with ⟨-, he⟩ | ⟨-, -, he⟩ | ⟨-, -, he⟩ <;> rw [bodyOf, he]
    · exact raise_ends (.built s.freq s.len s.lenValid s.dict s.nsym s.trieValid s.dictBad) (by decide)
    · exact raise_ends (.built _ _ false s.dict s.nsym s.trieValid s.dictBad) (by decide)
    · exact finish_ends (.built _ _ true _ _ _ _)
  | dictClear => exact finish_ends (.dictionary _ (by decide) _ _ _ _)
  | dictWrite =>
    rcases bodyDictWrite_cases s with ⟨-, he⟩ | ⟨-, -, he⟩ | ⟨-, -, _, -, he⟩ | ⟨-, -, -, -, he⟩ |
      ⟨-, -, -, -, he⟩ <;> rw [bodyOf, he]
    · exact raise_ends (.dictionary _ (by decide) s.dict s.nsym s.trieValid s.dictBad) (by decide)
    · exact raise_ends (.dictionary _ (by decide) s.dict s.nsym _ _) (by decide)
    · exact raise_ends (.dictionary _ (by decide) s.dict s.nsym _ _) (by decide)
    · exact raise_ends (.dictionary _ (by decide) s.dict s.nsym _ _) (by decide)
    · exact finish_ends (.dictionary _ (by decide) _ _ _ s.dictBad)
  | encode =>
    rcases bodyEncode_cases s with ⟨_, _, he, hc, -⟩ | ⟨-, -, -, -, -, he⟩ <;> rw [bodyOf, he]
    · exact failOutput_ends (.output _ (by decide) _ _ _ _ _) hc
    · exact finish_ends (.output _ (by decide) _ _ _ _ s.draws)
  | buildTrie =>
    rcases bodyBuildTrie_cases s with ⟨-, he⟩ | ⟨-, _, -, he⟩ | ⟨-, _, -, he⟩ <;> rw [bodyOf, he]
    · exact raise_ends (.trie s.trie s.trieValid) (by decide)
    · exact raise_ends (.trie _ _) (by decide)
    · exact finish_ends (.trie _ _)
  | decode =>
    rcases bodyDecode_cases s with ⟨_, _, he, hc, -⟩ | ⟨-, -, _, _, -, -, he⟩ <;> rw [bodyOf, he]
    · exact failOutput_ends (.output _ (by decide) _ _ _ _ _) hc
    · exact finish_ends (.output _ (by decide) _ _ _ _ s.draws)

/-- A completed command leaves what its body may write, and PHASE, DONE and the error record. -/
theorem exec_writes {i : Instr} {s t : State} (h : exec i s = .next t) :
    ∃ u e c info, Writes s i u ∧
      t = { u with phase := .idle, done := true, error := e, errCode := c, errInfo := info } := by
  rw [exec_eq, Host.Outcome.next.injEq] at h
  obtain ⟨u, hu, he | ⟨c, info, -, he⟩⟩ := complete_of_ends (bodyOf_ends i s)
  · exact ⟨u, _, _, _, hu, h.symm.trans he⟩
  · exact ⟨u, _, c, info, hu, h.symm.trans he⟩

/-! ## The statements -/

/-- Settles O29: no command may write a field the statement keeps of it, command by command. -/
theorem commandsWriteOnlyTheirOwnState : Obligations.CommandsWriteOnlyTheirOwnState := by
  intro i s t h
  obtain ⟨u, e, c, info, hw, rfl⟩ := exec_writes h
  cases hw with
  | dictionary _ hi | output _ hi => fin_cases hi <;> simp
  | softReset => simp [bodySoftReset]
  | _ => simp

/-- Every latched word ends: its command's body, or ILLEGAL_COMMAND, which writes nothing. -/
theorem latchedBody_ends (s : State) :
    (latchedBody s).Ends fun u => u.error = s.error ∧ u.errCode = s.errCode ∧ u.errInfo = s.errInfo := by
  unfold latchedBody
  split
  · obtain ⟨u, hw, he⟩ := bodyOf_ends _ s
    exact ⟨u, hw.errorRecord, he⟩
  · exact raise_ends ⟨rfl, rfl, rfl⟩ (by decide)

/-- Settles O6: the latched word's body ends without touching the error record, and its completion writes one only
with a code. -/
theorem everyCommandCompletes : Obligations.EveryCommandCompletes := by
  intro s hm
  refine ⟨complete (latchedBody s), (step_of_engineMoves hm).trans (engineStep_eq s), ?_⟩
  obtain ⟨u, hrecord, he | ⟨c, info, hc, he⟩⟩ := complete_of_ends (latchedBody_ends s) <;> rw [he]
  · exact ⟨rfl, rfl, .inl hrecord⟩
  · exact ⟨rfl, rfl, .inr ⟨rfl, hc⟩⟩

end Sys2Proof.Machine
end

section
/-! PROOFS. The command's issue, the control commands and illegal words (40_control.md R100, R104 to R107). -/

namespace Sys2Proof.Machine

/-! ## The issue -/

/-- A CMD write while idle is an issue (R100). -/
theorem busWrite_cmd_of_idle {s : State} (hi : s.phase = .idle) (w : Word) : busWrite s 0x000008#24 w = issue w s :=
  busWrite_reg_of_idle (r := .cmd) hi rfl w

/-- Settles O8: while idle CMD takes the write, and in the busy window it is one of the dropped inputs. -/
theorem commandIssueLatchesTheWord : Obligations.CommandIssueLatchesTheWord :=
  fun _ w => ⟨fun hi => ⟨_, _, busWrite_cmd_of_idle hi w⟩, fun hb => busWrite_of_dropped hb rfl w⟩

/-! ## Illegal words -/

/-- STATUS 0: its flags outside the busy window's are clear (R24). -/
theorem flags_of_statusWord_zero {s : State} (h : statusWord s = 0#32) :
    s.overrun = false ∧ s.lenValid = false ∧ s.trieValid = false ∧ s.outValid = false ∧ s.dictBad = false := by
  have hbit (b : Nat) :
      [s.busy, s.done, s.error, s.overrun, s.lenValid, s.trieValid, s.outValid, s.dictBad].getD b false = false := by
    rw [← statusWord_getLsbD, h, BitVec.getLsbD_zero]
  exact ⟨hbit 3, hbit 4, hbit 5, hbit 6, hbit 7⟩

/-- Settles O7: the illegal word's completion on any state, then on the issue of R107's example. -/
theorem illegalCommandOnlyReports : Obligations.IllegalCommandOnlyReports := by
  refine ⟨fun s e hm hd => (step_of_engineMoves hm).trans (engineStep_of_decode_error hd), fun s hi hz => ?_⟩
  obtain ⟨hoverrun, hlen, htrie, hout, hbad⟩ := flags_of_statusWord_zero hz
  have hd : decode (issue 0x0000000B#32 s).latch = .error .opcodeReserved := by
    rw [issue_latch]
    decide
  rw [busWrite_cmd_of_idle hi]
  refine ⟨_, engineStep_of_decode_error hd, ?_, rfl, rfl⟩
  simp only [statusWord, State.busy, issue_overrun, issue_lenValid, issue_trieValid, issue_outValid, issue_dictBad,
    hoverrun, hlen, htrie, hout, hbad]
  rfl

/-! ## The commands -/

/-- Settles O27: the body is `finish` alone. -/
theorem nopOnlyCompletes : Obligations.NopOnlyCompletes := exec_eq .nop

/-- Settles O28: each field of the completed body, the tables read symbol by symbol. -/
theorem softResetKeepsEnablesAndBuffers : Obligations.SoftResetKeepsEnablesAndBuffers := by
  intro s
  refine ⟨_, exec_eq .softReset s, ?_⟩
  simp [bodyOf, bodySoftReset]

/-- Settles O31: the length check comes first in both commands, and its error is raised from the state as it was. -/
theorem badLengthChangesOnlyStatus : Obligations.BadLengthChangesOnlyStatus := by
  intro s i hlen hi
  have hbody : bodyOf i s = raise .badLength s.inLen s := by
    rcases hi with rfl | rfl
    · simp [bodyOf, bodyFreqCount, checkInLen_some hlen]
    · simp [bodyOf, bodyBuildDict, checkInLen_some hlen]
  rw [exec_eq, hbody]
  rfl

end Sys2Proof.Machine
end

section
/-! PROOFS. The counts FREQ_COUNT stores (41_frequency_table.md R120, R121). -/

namespace Sys2Proof.Machine

/-- A symbol's count over the input is the number of input indexes below IN_LEN that hold it (R120). -/
theorem freqCount_inputBytes (s : State) (sym : Byte) :
    freqCount (inputBytes s) sym = ((List.range s.inLen.toNat).filter (fun k => s.inBuf.read k == sym)).length := by
  rw [freqCount, inputBytes, Buffer.bytes, List.count, List.countP_map, List.countP_eq_length_filter]
  rfl

/-- No count needs more than the 32 bits of a FREQ word: IN_LEN is itself a word (R121). -/
theorem freqCount_inputBytes_lt (s : State) (sym : Byte) : freqCount (inputBytes s) sym < 2 ^ 32 :=
  calc freqCount (inputBytes s) sym ≤ (inputBytes s).length := List.count_le_length
    _ = s.inLen.toNat := length_inputBytes s
    _ < 2 ^ 32 := s.inLen.isLt

/-- `zext_32` of R121 keeps the count. -/
theorem countInput_freq_toNat (s : State) (sym : Byte) :
    (tableGet (countInput s).freq sym).toNat = freqCount (inputBytes s) sym := by
  simpa using Nat.mod_eq_of_lt (freqCount_inputBytes_lt s sym)

/-- Settles O30: on an input that fits the body is `finish` after the counts, each read back without truncation. -/
theorem freqCountCountsTheInput : Obligations.FreqCountCountsTheInput := by
  intro s hlen
  have hbody : bodyOf .freqCount s = finish (countInput s) := by
    simp [bodyOf, bodyFreqCount, checkInLen_none hlen]
  refine ⟨(countInput s).freq, ?_, fun sym => ?_⟩
  · rw [exec_eq, hbody]
    rfl
  · rw [countInput_freq_toNat, freqCount_inputBytes]

end Sys2Proof.Machine
end

section
/-! PROOFS. The code lengths of BUILD_TREE (42_tree_builder.md R130 to R136, 43_canonical_assigner.md R153): the leaves
of the tree that the loop of R131 comes down to are the present symbols, each once, so every present symbol is stored
with the depth of its leaf. -/

namespace Sys2Proof.Machine

/-! ## The leaves of a tree -/

/-- The symbols of the leaves of a weighted tree, `child0` first. -/
def HuffTree.symbols : HuffTree → List Byte
  | .leaf s => [s]
  | .node a b => a.symbols ++ b.symbols

/-- `depths` lists each leaf once. -/
theorem depths_map_fst (t : HuffTree) (d : Nat) : (t.depths d).map Prod.fst = t.symbols := by
  induction t generalizing d with
  | leaf s => rfl
  | node a b iha ihb => simp [HuffTree.depths, HuffTree.symbols, iha, ihb]

theorem le_of_mem_depths {t : HuffTree} {d : Nat} {p : Byte × Nat} (h : p ∈ t.depths d) : d ≤ p.2 := by
  induction t generalizing d with
  | leaf s => simp_all [HuffTree.depths]
  | node a b iha ihb =>
    rcases List.mem_append.1 h with h | h
    · exact Nat.le_of_succ_le (iha h)
    · exact Nat.le_of_succ_le (ihb h)

/-- The depths that `depths` lists are those of the leaves (R131). -/
theorem leafAtDepth_of_mem_depths {t : HuffTree} {d k : Nat} {s : Byte} (h : (s, d + k) ∈ t.depths d) :
    LeafAtDepth s k t := by
  induction t generalizing d k with
  | leaf r =>
    obtain ⟨rfl, rfl⟩ : s = r ∧ k = 0 := by simpa [HuffTree.depths] using h
    exact .leaf
  | node a b iha ihb =>
    obtain ⟨j, rfl⟩ : ∃ j, k = j + 1 := by
      have hle : d + 1 ≤ d + k := (List.mem_append.1 h).elim le_of_mem_depths le_of_mem_depths
      exact ⟨k - 1, by omega⟩
    rw [← Nat.add_assoc, Nat.add_right_comm] at h
    rcases List.mem_append.1 h with h | h
    · exact .child0 (iha h)
    · exact .child1 (ihb h)

/-- A path to a leaf passes fewer nodes than the tree has leaves. -/
theorem height_lt_length_symbols (t : HuffTree) : t.height < t.symbols.length := by
  induction t with
  | leaf s => simp [HuffTree.height, HuffTree.symbols]
  | node a b iha ihb =>
    simp only [HuffTree.height, HuffTree.symbols, List.length_append]
    omega

/-- The loop of R131 keeps the leaves of its collection. -/
theorem mergesTo_symbols {q : List QNode} {root : QNode} (h : MergesTo q root) :
    root.tree.symbols.Perm (q.flatMap (fun a => a.tree.symbols)) := by
  induction h with
  | done a => simp
  | merge split _ _ _ ih =>
    refine ih.trans (.trans ?_ (split.flatMap_right _).symm)
    simp [HuffTree.symbols]

/-- The tree made of the present symbols' leaves has those leaves. -/
theorem mergesTo_leafNode_symbols {f : Table Word} {root : QNode}
    (h : MergesTo ((presentSymbols f).map (leafNode f)) root) : root.tree.symbols.Perm (presentSymbols f) := by
  simpa [List.flatMap_map, leafNode, HuffTree.symbols] using mergesTo_symbols h

/-! ## The present symbols -/

@[simp] theorem mem_presentSymbols {f : Table Word} {s : Byte} : s ∈ presentSymbols f ↔ tableGet f s ≠ 0#32 := by
  simp [presentSymbols]

theorem presentSymbols_nodup (f : Table Word) : (presentSymbols f).Nodup := allBytes_nodup.filter _

theorem length_presentSymbols_le (f : Table Word) : (presentSymbols f).length ≤ 256 :=
  (List.length_filter_le _ _).trans length_allBytes.le

/-! ## The code lengths, by the number of present symbols -/

theorem symbolLengths_of_none {f : Table Word} (h : presentSymbols f = []) : symbolLengths f = [] := by
  simp [symbolLengths, h]

theorem symbolLengths_of_one {f : Table Word} {p : Byte} (h : presentSymbols f = [p]) :
    symbolLengths f = [(p, 1)] := by
  simp [symbolLengths, h]

/-- Two nodes are the children of the root, the one of the least key first. -/
theorem mergeNodes_pair (fuel : Nat) (a b : QNode) :
    mergeNodes (fuel + 1) [a, b] = some (if keyLt b a then joinNodes b a else joinNodes a b) := by
  by_cases hlt : keyLt b a = true
  · simp [mergeNodes, extractLeast, hlt]
  · simp [mergeNodes, extractLeast, hlt]

theorem symbolLengths_of_two {f : Table Word} {p q : Byte} (h : presentSymbols f = [p, q]) :
    (symbolLengths f).Perm [(p, 1), (q, 1)] := by
  simp only [symbolLengths, h, List.map_cons, List.map_nil, List.length_cons, mergeNodes_pair]
  split
  · exact .swap ..
  · exact .refl _

/-- With two or more present symbols the code lengths are the depths in a tree of R131's loop. -/
theorem symbolLengths_of_two_le {f : Table Word} (h : 2 ≤ (presentSymbols f).length) :
    ∃ root, MergesTo ((presentSymbols f).map (leafNode f)) root ∧ symbolLengths f = root.tree.depths 0 := by
  match hp : presentSymbols f with
  | [] | [_] => simp [hp] at h
  | p :: q :: rest =>
    obtain ⟨root, heq, hgo⟩ := mergeNodes_mergesTo (fuel := (p :: q :: rest).length)
      (q := (p :: q :: rest).map (leafNode f)) (by simp) (by simp)
    refine ⟨root, hgo, ?_⟩
    simp only [symbolLengths, hp, heq]

/-- The code lengths name each present symbol once, and no other. -/
theorem symbolLengths_symbols (f : Table Word) : ((symbolLengths f).map Prod.fst).Perm (presentSymbols f) := by
  match hp : presentSymbols f with
  | [] => simp [symbolLengths_of_none hp]
  | [p] => simp [symbolLengths_of_one hp]
  | p :: q :: rest =>
    obtain ⟨root, hgo, he⟩ := symbolLengths_of_two_le (f := f) (by simp [hp])
    rw [he, depths_map_fst, ← hp]
    exact mergesTo_leafNode_symbols hgo

/-- No code length is 0: a root over two or more symbols is no leaf. -/
theorem symbolLengths_pos {f : Table Word} {p : Byte × Nat} (h : p ∈ symbolLengths f) : 1 ≤ p.2 := by
  match hp : presentSymbols f with
  | [] => simp [symbolLengths_of_none hp] at h
  | [_] => simp_all [symbolLengths_of_one hp]
  | _ :: _ :: _ =>
    obtain ⟨root, hgo, he⟩ := symbolLengths_of_two_le (f := f) (by simp [hp])
    have hlen := (mergesTo_leafNode_symbols hgo).length_eq
    rw [he] at h
    cases hroot : root.tree with
    | leaf s => simp [hroot, HuffTree.symbols, hp] at hlen
    | node a b =>
      rw [hroot] at h
      exact (List.mem_append.1 h).elim le_of_mem_depths le_of_mem_depths

/-! ## The table of lengths -/

/-- In a list of pairs with distinct keys each key's lookup is its pair's value. -/
theorem lookup_eq_some_of_mem {α : Type} {l : List (Byte × α)} (hkeys : (l.map Prod.fst).Nodup) {k : Byte} {v : α}
    (h : (k, v) ∈ l) : l.lookup k = some v := by
  obtain ⟨l₁, l₂, rfl⟩ := List.append_of_mem h
  refine List.lookup_eq_some_iff.2 ⟨l₁, l₂, rfl, fun p hp => ?_⟩
  rw [List.map_append, List.map_cons] at hkeys
  exact bne_iff_ne.2 fun he => List.disjoint_of_nodup_append hkeys (List.mem_map_of_mem hp) (by simp [he])

/-- The table holds every symbol's code length. -/
theorem huffmanLengths_of_mem {f : Table Word} {p : Byte × Nat} (h : p ∈ symbolLengths f) :
    tableGet (huffmanLengths f) p.1 = p.2 := by
  have hkeys := (symbolLengths_symbols f).nodup_iff.2 (presentSymbols_nodup f)
  rw [huffmanLengths, tableGet_ofPairs, lookup_eq_some_of_mem hkeys h, Option.getD_some]

theorem mem_symbolLengths_of_present {f : Table Word} {s : Byte} (h : tableGet f s ≠ 0#32) :
    (s, tableGet (huffmanLengths f) s) ∈ symbolLengths f := by
  obtain ⟨p, hp, rfl⟩ := List.mem_map.1 ((symbolLengths_symbols f).mem_iff.2 (mem_presentSymbols.2 h))
  rwa [huffmanLengths_of_mem hp]

/-- A symbol with a stored length is present, and a present one's length is not 0 (R131, R133). -/
theorem huffmanLengths_eq_zero_iff {f : Table Word} {s : Byte} :
    tableGet (huffmanLengths f) s = 0 ↔ tableGet f s = 0#32 := by
  constructor
  · intro hlen
    by_contra hpresent
    have hpos := symbolLengths_pos (mem_symbolLengths_of_present hpresent)
    omega
  · intro habsent
    by_contra hlen
    have hmem := (symbolLengths_symbols f).mem_iff.1 (List.mem_map_of_mem (huffmanLengths_mem hlen))
    exact mem_presentSymbols.1 hmem habsent

theorem huffmanLengths_of_not_mem {f : Table Word} {s : Byte} (h : s ∉ presentSymbols f) :
    tableGet (huffmanLengths f) s = 0 :=
  huffmanLengths_eq_zero_iff.2 (not_not.1 fun hs => h (mem_presentSymbols.2 hs))

/-! ## The Kraft equality (43_canonical_assigner.md R153) -/

/-- The Kraft sum of the table is the Kraft sum of the code lengths. -/
theorem kraftScaled_huffmanLengths (m : Nat) (f : Table Word) :
    kraftScaled m (huffmanLengths f) = ((symbolLengths f).map (fun p => 2 ^ (m - p.2))).sum := by
  have hfilter : allBytes.filter (fun s => tableGet (huffmanLengths f) s != 0) = presentSymbols f :=
    List.filter_congr fun s _ => by simp [bne, huffmanLengths_eq_zero_iff]
  calc kraftScaled m (huffmanLengths f)
      = ((presentSymbols f).map (fun s => 2 ^ (m - tableGet (huffmanLengths f) s))).sum := by
        rw [kraftScaled, hfilter]
    _ = (((symbolLengths f).map Prod.fst).map (fun s => 2 ^ (m - tableGet (huffmanLengths f) s))).sum :=
        ((symbolLengths_symbols f).map _).sum_eq.symm
    _ = ((symbolLengths f).map (fun p => 2 ^ (m - p.2))).sum := by
        rw [List.map_map]
        exact congrArg List.sum (List.map_congr_left fun p hp => by simp [huffmanLengths_of_mem hp])

/-- The tree of R131 is at most 255 high: it has at most 256 leaves. -/
theorem height_le_of_mergesTo {f : Table Word} {root : QNode}
    (h : MergesTo ((presentSymbols f).map (leafNode f)) root) : root.tree.height ≤ 255 := by
  have hheight := height_lt_length_symbols root.tree
  rw [(mergesTo_leafNode_symbols h).length_eq] at hheight
  have hcount := length_presentSymbols_le f
  omega

/-! ## The statements -/

/-- BUILD_TREE stores lengths that all fit (R135). -/
theorem exec_buildTree_of_le {s : State} (h : maxLength (huffmanLengths s.freq) ≤ 32) :
    exec .buildTree s = .next { s with
      len := lengthTable (huffmanLengths s.freq), lenValid := true, phase := .idle, done := true } := by
  rcases bodyBuildTree_cases s with ⟨hdeep, -⟩ | ⟨-, he⟩
  · omega
  · rw [exec_eq, bodyOf, he]
    rfl

/-- BUILD_TREE refuses a tree deeper than 32 and reports its depth (R135). -/
theorem exec_buildTree_of_lt {s : State} (h : 32 < maxLength (huffmanLengths s.freq)) :
    exec .buildTree s = .next { s with
      len := tableFill 0#6, lenValid := false, phase := .idle, done := true, error := true, errCode := .codeTooLong
      errInfo := BitVec.ofNat 32 (maxLength (huffmanLengths s.freq)) } := by
  rcases bodyBuildTree_cases s with ⟨-, he⟩ | ⟨hmax, -⟩
  · rw [exec_eq, bodyOf, he]
    rfl
  · omega

/-- Settles O32: the two ends of the body, then the tree of the loop, whose leaves' depths are the stored lengths. -/
theorem buildTreeStoresLengths : Obligations.BuildTreeStoresLengths := by
  intro s
  refine ⟨fun hmax => ⟨_, exec_buildTree_of_le hmax, lengthTable_toNat hmax⟩,
    fun hdeep => ⟨_, exec_buildTree_of_lt hdeep, tableGet_fill 0#6⟩, fun htwo => ?_⟩
  obtain ⟨root, hgo, he⟩ := symbolLengths_of_two_le htwo
  refine ⟨root, hgo, fun p hp => leafAtDepth_of_mem_depths (d := 0) ?_⟩
  rw [Nat.zero_add, ← he]
  exact mem_symbolLengths_of_present hp

/-- Settles O33: a present symbol's pair is among the code lengths of its case, and an absent symbol has length 0. -/
theorem smallAlphabetsGetFixedLengths : Obligations.SmallAlphabetsGetFixedLengths := by
  intro f
  refine ⟨fun hnone s => huffmanLengths_of_not_mem (by simp [hnone]), fun p hone s => ?_, fun p q htwo s => ?_⟩
  · split
    next hs => exact huffmanLengths_of_mem (p := (s, 1)) (by simp [symbolLengths_of_one hone, hs])
    next hs => exact huffmanLengths_of_not_mem (by simp [hone, hs])
  · split
    next hs => exact huffmanLengths_of_mem (p := (s, 1)) ((symbolLengths_of_two htwo).mem_iff.2 (by simpa using hs))
    next hs => exact huffmanLengths_of_not_mem (by simpa [htwo] using hs)

/-- Settles O34: the present symbols are the leaves, and no leaf is the root. -/
theorem exactlyPresentSymbolsHaveLengths : Obligations.ExactlyPresentSymbolsHaveLengths :=
  fun _ _ => huffmanLengths_eq_zero_iff

/-- Settles O35: the Kraft equality of the tree, and of the sole codeword of one bit. -/
theorem huffmanLengthsMeetKraft : Obligations.HuffmanLengthsMeetKraft := by
  refine fun f => ⟨fun htwo => ?_, fun hone => ?_⟩
  · obtain ⟨root, hgo, he⟩ := symbolLengths_of_two_le htwo
    have hheight := height_le_of_mergesTo hgo
    rw [kraftScaled_huffmanLengths, he]
    exact depths_kraft root.tree (by omega)
  · obtain ⟨p, hp⟩ := List.length_eq_one_iff.1 hone
    simp [kraftScaled_huffmanLengths, symbolLengths_of_one hp]

/-- Settles O36, by the Fibonacci bound on the tree's height. -/
theorem countedWeightsGiveShallowTrees : Obligations.CountedWeightsGiveShallowTrees := fun _ => countInput_shallow

/-- The legal capacities (00_scope.md R5). -/
theorem capacity_iff {cap : Nat} : WellFormed.capacity cap = true ↔ 1 ≤ cap ∧ cap ≤ 262144 := by
  rw [WellFormed.capacity, Bool.and_eq_true, decide_eq_true_iff, decide_eq_true_iff, Config.capLimit]

/-- NSYM holds the count of any dictionary (10_state.md R27). -/
theorem storeCanonical_nsym_toNat (s : State) : (storeCanonical s).nsym.toNat = numPresent (canonical s.len) := by
  have hle := numPresent_le (canonical s.len)
  rw [storeCanonical_nsym, BitVec.toNat_ofNat]
  exact Nat.mod_eq_of_lt (by omega)

/-- BUILD_DICT on an input that fits, when no length passes 32, ends in the assigner (R250). -/
theorem exec_buildDict_of_le {s : State} (hlen : s.inLen.toNat ≤ s.inCap)
    (hmax : maxLength (huffmanLengths (countInput s).freq) ≤ 32) :
    exec .buildDict s = .next (complete (finish (storeCanonical
      { countInput s with len := lengthTable (huffmanLengths (countInput s).freq), lenValid := true }))) := by
  rcases bodyBuildDict_cases s with ⟨hlong, -⟩ | ⟨-, hdeep, -⟩ | ⟨-, -, he⟩
  · omega
  · omega
  · rw [exec_eq, bodyOf, he]

/-- Settles O42: counted weights on a legal IN_CAP give no tree deeper than 32, so the body ends in the assigner. -/
theorem buildDictAlwaysSucceedsOnInputThatFits : Obligations.BuildDictAlwaysSucceedsOnInputThatFits := by
  intro s hcap hlen
  have hshallow := countInput_shallow (hlen.trans (capacity_iff.1 hcap).2)
  have hmax : maxLength (huffmanLengths (countInput s).freq) ≤ 32 := by omega
  exact ⟨_, _, _, _, exec_buildDict_of_le hlen hmax, countInput_freq_toNat s, lengthTable_toNat hmax, rfl,
    storeCanonical_nsym_toNat _⟩

end Sys2Proof.Machine
end

section
/-! PROOFS. The entries of the canonical code: which symbols have a codeword, and of which length
(43_canonical_assigner.md R151, R152). -/

namespace Sys2Proof.Machine

/-! ## The entries of `canonical(L)` -/

/-- The code lists the pairs of `E` in their order, each with its code. -/
theorem codesAfter_pairs (code prev : Nat) (e : List (Byte × Nat)) :
    (codesAfter code prev e).map (fun c => (c.1, c.2.1)) = e := by
  induction e generalizing code prev with
  | nil => rfl
  | cons p e ih => simp [codesAfter, ih]

theorem canonicalCodes_pairs (e : List (Byte × Nat)) : (canonicalCodes e).map (fun c => (c.1, c.2.1)) = e := by
  cases e with
  | nil => rfl
  | cons p e => simp [canonicalCodes, codesAfter_pairs]

theorem mem_sortedLengths_of_ne {l : Table (BitVec 6)} {s : Byte} (h : tableGet l s ≠ 0#6) :
    (s, (tableGet l s).toNat) ∈ sortedLengths l :=
  mem_sortedLengths.2 ⟨rfl, BitVec.toNat_ne.1 h⟩

theorem sortedLengths_symbols_nodup (l : Table (BitVec 6)) : ((sortedLengths l).map Prod.fst).Nodup := by
  refine (sortedLengths_nodup l).map_on fun p hp q hq he => Prod.ext he ?_
  rw [(mem_sortedLengths.1 hp).1, (mem_sortedLengths.1 hq).1, he]

/-- The symbols that `canonical(L)` stores are those of `E`. -/
theorem canonicalEntries_symbols (e : List (Byte × Nat)) :
    ((canonicalCodes e).map (fun c => (c.1, presentEntry c.2.1 c.2.2))).map Prod.fst = e.map Prod.fst := by
  conv_rhs => rw [← canonicalCodes_pairs e]
  simp [List.map_map, Function.comp_def]

/-- Each code is stored at its symbol. -/
theorem canonical_of_mem {l : Table (BitVec 6)} {c : Byte × Nat × Nat} (h : c ∈ canonicalCodes (sortedLengths l)) :
    tableGet (canonical l) c.1 = presentEntry c.2.1 c.2.2 := by
  have hkeys := canonicalEntries_symbols (sortedLengths l) ▸ sortedLengths_symbols_nodup l
  rw [canonical, tableGet_ofPairs, lookup_eq_some_of_mem hkeys (List.mem_map_of_mem h), Option.getD_some]

theorem canonical_of_zero {l : Table (BitVec 6)} {s : Byte} (h : tableGet l s = 0#6) :
    tableGet (canonical l) s = Entry.absent := by
  have hs : s ∉ (sortedLengths l).map Prod.fst := fun hs => by
    obtain ⟨p, hp, rfl⟩ := List.mem_map.1 hs
    obtain ⟨hlen, hne⟩ := mem_sortedLengths.1 hp
    simp [hlen, h] at hne
  rw [canonical, tableGet_ofPairs, List.lookup_eq_none_iff.2, Option.getD_none]
  rw [← canonicalEntries_symbols] at hs
  exact fun p hp => bne_iff_ne.2 fun he => hs (List.mem_map.2 ⟨p, hp, he.symm⟩)

/-- A symbol with a length gets a codeword of that length. -/
theorem canonical_of_ne {l : Table (BitVec 6)} {s : Byte} (h : tableGet l s ≠ 0#6) :
    ∃ code, tableGet (canonical l) s = presentEntry (tableGet l s).toNat code := by
  have hmem := canonicalCodes_pairs (sortedLengths l) ▸ mem_sortedLengths_of_ne h
  obtain ⟨c, hc, he⟩ := List.mem_map.1 hmem
  obtain ⟨hsym, hlen⟩ := Prod.mk.inj he
  exact ⟨c.2.2, by rw [← hsym, canonical_of_mem hc, hlen, hsym]⟩

/-- R151: exactly the symbols with a length have a codeword. -/
theorem canonical_valid_iff {l : Table (BitVec 6)} {s : Byte} :
    (tableGet (canonical l) s).valid = true ↔ tableGet l s ≠ 0#6 := by
  by_cases h : tableGet l s = 0#6
  · simp [canonical_of_zero h, h, Entry.absent]
  · obtain ⟨code, he⟩ := canonical_of_ne h
    simp [he, h, presentEntry]

/-- R151: the codeword of a symbol has the symbol's length. -/
@[simp] theorem canonical_len (l : Table (BitVec 6)) (s : Byte) : (tableGet (canonical l) s).len = tableGet l s := by
  by_cases h : tableGet l s = 0#6
  · simp [canonical_of_zero h, h, Entry.absent]
  · obtain ⟨code, he⟩ := canonical_of_ne h
    simp [he, presentEntry]

/-! ## ASSIGN_CODES -/

/-- Settles O37: the two ends of the body, and the entries that `canonical` stores. -/
theorem assignCodesFillsTheDictionary : Obligations.AssignCodesFillsTheDictionary := by
  intro s
  rcases bodyAssignCodes_cases s with ⟨hv, he⟩ | ⟨hv, he⟩ <;> rw [exec_eq, bodyOf, he]
  · exact ⟨fun h => absurd (hv.symm.trans h) (by decide), fun _ => rfl⟩
  · exact ⟨fun _ => ⟨_, _, rfl, rfl, storeCanonical_nsym_toNat s, fun sym => ⟨canonical_valid_iff, canonical_len _ _⟩⟩,
      fun h => absurd (hv.symm.trans h) (by decide)⟩

end Sys2Proof.Machine
end

section
/-! PROOFS. The canonical codes in their order (43_canonical_assigner.md R150, R151, R154). A codeword stands for the
interval of the 32-bit numbers that begin with it. In the order of R150 each interval begins where the one before it
ends, at the Kraft sum of the lengths before it. -/

namespace Sys2Proof.Machine

/-! ## The order of R150 -/

/-- `s` stands before `t` in the order of R150. -/
def Precedes (l : Table (BitVec 6)) (s t : Byte) : Prop :=
  tableGet l s ≠ 0#6 ∧ tableGet l t ≠ 0#6 ∧
    ((tableGet l s).toNat < (tableGet l t).toNat ∨ (tableGet l s = tableGet l t ∧ s.toNat < t.toNat))

theorem Precedes.length_le {l : Table (BitVec 6)} {s t : Byte} (h : Precedes l s t) :
    (tableGet l s).toNat ≤ (tableGet l t).toNat := by
  obtain ⟨-, -, hlt | ⟨heq, -⟩⟩ := h
  · exact hlt.le
  · rw [heq]

theorem Precedes.asymm {l : Table (BitVec 6)} {s t : Byte} (h : Precedes l s t) : ¬ Precedes l t s := by
  simp only [Precedes, ← BitVec.toNat_inj] at *
  omega

theorem precedes_total {l : Table (BitVec 6)} {s t : Byte} (hs : tableGet l s ≠ 0#6) (ht : tableGet l t ≠ 0#6)
    (hne : s ≠ t) : Precedes l s t ∨ Precedes l t s := by
  simp only [Precedes, ne_eq, ← BitVec.toNat_inj] at *
  omega

/-- `E` lists its symbols in the order of R150. -/
theorem sortedLengths_precedes (l : Table (BitVec 6)) :
    (sortedLengths l).Pairwise (fun p q => Precedes l p.1 q.1) := by
  have : Std.Total lengthOrder := ⟨fun a b => by simp only [lengthOrder]; omega⟩
  have : IsTrans (Byte × Nat) lengthOrder := ⟨fun a b c hab hbc => by simp only [lengthOrder] at *; omega⟩
  refine ((List.pairwise_insertionSort lengthOrder _).and
    (List.pairwise_map.1 (sortedLengths_symbols_nodup l))).imp_of_mem fun {p q} hp hq h => ?_
  obtain ⟨hplen, hp0⟩ := mem_sortedLengths.1 hp
  obtain ⟨hqlen, hq0⟩ := mem_sortedLengths.1 hq
  obtain ⟨horder, hne⟩ := h
  simp only [Precedes, lengthOrder, ne_eq, ← BitVec.toNat_inj, BitVec.toNat_ofNat] at *
  omega

/-- What stands left and right of a symbol in `E`. -/
theorem precedes_of_split {l : Table (BitVec 6)} {e₁ e₂ : List (Byte × Nat)} {p : Byte × Nat}
    (h : sortedLengths l = e₁ ++ p :: e₂) :
    (∀ q ∈ e₁, Precedes l q.1 p.1) ∧ ∀ q ∈ e₂, Precedes l p.1 q.1 := by
  have hpair := h ▸ sortedLengths_precedes l
  obtain ⟨-, hright, hleft⟩ := List.pairwise_append.1 hpair
  exact ⟨fun q hq => hleft q hq p List.mem_cons_self, (List.pairwise_cons.1 hright).1⟩

/-- A symbol and a later one in `E`. -/
theorem Precedes.split {l : Table (BitVec 6)} {s t : Byte} (h : Precedes l s t) :
    ∃ e₁ e₂ e₃, sortedLengths l = e₁ ++ (s, (tableGet l s).toNat) :: (e₂ ++ (t, (tableGet l t).toNat) :: e₃) ∧
      sortedLengths l = (e₁ ++ (s, (tableGet l s).toNat) :: e₂) ++ (t, (tableGet l t).toNat) :: e₃ := by
  have ⟨hs, ht, _⟩ := h
  obtain ⟨e₁, e, he⟩ := List.append_of_mem (mem_sortedLengths_of_ne hs)
  have hmem := he ▸ mem_sortedLengths_of_ne ht
  rcases List.mem_append.1 hmem with hleft | hright
  · exact absurd ((precedes_of_split he).1 _ hleft) h.asymm
  · rcases List.mem_cons.1 hright with hsame | hlater
    · obtain rfl : t = s := congrArg Prod.fst hsame
      exact absurd h h.asymm
    · obtain ⟨e₂, e₃, rfl⟩ := List.append_of_mem hlater
      exact ⟨e₁, e₂, e₃, he, by simpa using he⟩

/-! ## The interval of a codeword -/

/-- The least 32-bit number that begins with the codeword of a legal entry. -/
def Entry.low (e : Entry) : Nat := e.val.toNat * 2 ^ (32 - e.len.toNat)

/-- How many 32-bit numbers begin with the codeword of a legal entry. -/
def Entry.width (e : Entry) : Nat := 2 ^ (32 - e.len.toNat)

theorem Entry.width_pos (e : Entry) : 0 < e.width := Nat.two_pow_pos _

/-! ## Codes as Kraft sums -/

/-- The Kraft sum of a part of `E`, scaled by `2 ^ 32`. -/
def kraftSum (e : List (Byte × Nat)) : Nat := (e.map (fun p => 2 ^ (32 - p.2))).sum

@[simp] theorem kraftSum_nil : kraftSum [] = 0 := rfl

@[simp] theorem kraftSum_cons (p : Byte × Nat) (e : List (Byte × Nat)) :
    kraftSum (p :: e) = 2 ^ (32 - p.2) + kraftSum e := by simp [kraftSum]

@[simp] theorem kraftSum_append (e₁ e₂ : List (Byte × Nat)) : kraftSum (e₁ ++ e₂) = kraftSum e₁ + kraftSum e₂ := by
  simp [kraftSum]

/-- A shift by the growth of the length keeps the scaled code. -/
theorem shiftLeft_scaled (code : Nat) {prev len : Nat} (h : prev ≤ len) (h32 : len ≤ 32) :
    code <<< (len - prev) * 2 ^ (32 - len) = code * 2 ^ (32 - prev) := by
  rw [Nat.shiftLeft_eq, mul_assoc, ← pow_add]
  congr 2
  omega

/-- Each code after one of length `prev`, scaled, is where that one ends and the Kraft sum of the lengths between. -/
theorem codesAfter_scaled {code prev : Nat} {e₁ e₂ : List (Byte × Nat)} {p : Byte × Nat}
    (hsorted : (e₁ ++ p :: e₂).Pairwise (fun a b => a.2 ≤ b.2)) (hprev : ∀ q ∈ e₁ ++ p :: e₂, prev ≤ q.2)
    (h32 : ∀ q ∈ e₁ ++ p :: e₂, q.2 ≤ 32) :
    ∃ c, (p.1, p.2, c) ∈ codesAfter code prev (e₁ ++ p :: e₂) ∧
      c * 2 ^ (32 - p.2) = (code + 1) * 2 ^ (32 - prev) + kraftSum e₁ := by
  induction e₁ generalizing code prev with
  | nil => exact ⟨_, List.mem_cons_self, shiftLeft_scaled _ (hprev p (by simp)) (h32 p (by simp))⟩
  | cons q e₁ ih =>
    obtain ⟨hfirst, hsorted⟩ := List.pairwise_cons.1 hsorted
    obtain ⟨c, hc, he⟩ := ih (code := (code + 1) <<< (q.2 - prev)) hsorted hfirst
      fun r hr => h32 r (List.mem_cons_of_mem _ hr)
    refine ⟨c, List.mem_cons_of_mem _ hc, ?_⟩
    rw [he, add_mul, shiftLeft_scaled _ (hprev q (by simp)) (h32 q (by simp)), kraftSum_cons]
    omega

/-- Each code, scaled, is the Kraft sum of the lengths before its own. -/
theorem canonicalCodes_scaled {e₁ e₂ : List (Byte × Nat)} {p : Byte × Nat}
    (hsorted : (e₁ ++ p :: e₂).Pairwise (fun a b => a.2 ≤ b.2)) (h32 : ∀ q ∈ e₁ ++ p :: e₂, q.2 ≤ 32) :
    ∃ c, (p.1, p.2, c) ∈ canonicalCodes (e₁ ++ p :: e₂) ∧ c * 2 ^ (32 - p.2) = kraftSum e₁ := by
  cases e₁ with
  | nil => exact ⟨0, List.mem_cons_self, by simp⟩
  | cons q e₁ =>
    obtain ⟨hfirst, hsorted⟩ := List.pairwise_cons.1 hsorted
    obtain ⟨c, hc, he⟩ := codesAfter_scaled (code := 0) hsorted hfirst fun r hr => h32 r (List.mem_cons_of_mem _ hr)
    exact ⟨c, List.mem_cons_of_mem _ hc, by simpa using he⟩

/-- Lengths of at most 32 that meet the Kraft inequality, as those BUILD_TREE stores do (`kraftLengths_huffman`). -/
structure KraftLengths (l : Table (BitVec 6)) : Prop where
  le_32 : ∀ s, (tableGet l s).toNat ≤ 32
  kraft : kraftSum (sortedLengths l) ≤ 2 ^ 32

/-- The interval of a symbol's codeword begins at the Kraft sum of the lengths before the symbol's. -/
theorem canonical_low {l : Table (BitVec 6)} (hl : KraftLengths l) {e₁ e₂ : List (Byte × Nat)} {s : Byte}
    (h : sortedLengths l = e₁ ++ (s, (tableGet l s).toNat) :: e₂) : (tableGet (canonical l) s).low = kraftSum e₁ := by
  have h32 : ∀ q ∈ sortedLengths l, q.2 ≤ 32 := fun q hq => (mem_sortedLengths.1 hq).1 ▸ hl.le_32 q.1
  have hsorted := sortedLengths_pairwise l
  obtain ⟨c, hc, hscaled⟩ := canonicalCodes_scaled (h ▸ hsorted) (h ▸ h32)
  rw [← h] at hc
  obtain ⟨hmem, hfit⟩ := canonicalCodes_fit hsorted h32 hl.kraft _ hc
  have hword : c < 2 ^ 32 := hfit.trans_le (Nat.pow_le_pow_right Nat.two_pos (h32 _ hmem))
  have hval : (tableGet (canonical l) s).val.toNat = c := by
    rw [canonical_of_mem hc, presentEntry, BitVec.toNat_ofNat, Nat.mod_eq_of_lt hword]
  rw [Entry.low, canonical_len, hval, hscaled]

/-- A symbol's interval ends at or before those of the later symbols. -/
theorem canonical_low_add_width_le {l : Table (BitVec 6)} (hl : KraftLengths l) {s t : Byte} (hst : Precedes l s t) :
    (tableGet (canonical l) s).low + (tableGet (canonical l) s).width ≤ (tableGet (canonical l) t).low := by
  obtain ⟨e₁, e₂, e₃, he, het⟩ := hst.split
  rw [canonical_low hl he, canonical_low hl het, Entry.width, canonical_len, kraftSum_append, kraftSum_cons,
    ← Nat.add_assoc]
  exact Nat.le_add_right _ _

/-- The next symbol's interval begins where the previous one's ends. -/
theorem canonical_low_next {l : Table (BitVec 6)} (hl : KraftLengths l) {s t : Byte} (hst : Precedes l s t)
    (hnext : ∀ u, ¬ (Precedes l s u ∧ Precedes l u t)) :
    (tableGet (canonical l) t).low = (tableGet (canonical l) s).low + (tableGet (canonical l) s).width := by
  obtain ⟨e₁, e₂, e₃, he, het⟩ := hst.split
  have hnil : e₂ = [] := List.eq_nil_iff_forall_not_mem.2 fun q hq => hnext q.1
    ⟨(precedes_of_split he).2 q (List.mem_append_left _ hq), (precedes_of_split het).1 q (by simp [hq])⟩
  rw [canonical_low hl he, canonical_low hl het, Entry.width, canonical_len, hnil]
  simp

/-! ## The codes in their order (R151, R154) -/

theorem canonical_val_first {l : Table (BitVec 6)} (hl : KraftLengths l) {t : Byte} (ht : tableGet l t ≠ 0#6)
    (hfirst : ∀ s, ¬ Precedes l s t) : (tableGet (canonical l) t).val = 0#32 := by
  obtain ⟨e₁, e₂, he⟩ := List.append_of_mem (mem_sortedLengths_of_ne ht)
  have hnil : e₁ = [] := List.eq_nil_iff_forall_not_mem.2 fun q hq => hfirst _ ((precedes_of_split he).1 q hq)
  have hlow := canonical_low hl he
  rw [hnil, kraftSum_nil, Entry.low] at hlow
  exact BitVec.eq_of_toNat_eq ((Nat.mul_eq_zero.1 hlow).resolve_right (by positivity))

theorem canonical_val_next {l : Table (BitVec 6)} (hl : KraftLengths l) {s t : Byte} (hst : Precedes l s t)
    (hnext : ∀ u, ¬ (Precedes l s u ∧ Precedes l u t)) :
    (tableGet (canonical l) t).val.toNat =
      ((tableGet (canonical l) s).val.toNat + 1) * 2 ^ ((tableGet l t).toNat - (tableGet l s).toNat) := by
  have hlow := canonical_low_next hl hst hnext
  simp only [Entry.low, Entry.width, canonical_len, ← Nat.succ_mul] at hlow
  apply Nat.eq_of_mul_eq_mul_right (Nat.two_pow_pos (32 - (tableGet l t).toNat))
  rw [hlow, ← shiftLeft_scaled _ hst.length_le (hl.le_32 t), Nat.shiftLeft_eq]

theorem canonical_val_lt {l : Table (BitVec 6)} (hl : KraftLengths l) {s t : Byte} (hst : Precedes l s t) :
    (tableGet (canonical l) s).val.toNat < (tableGet (canonical l) t).val.toNat := by
  have hgap := canonical_low_add_width_le hl hst
  simp only [Entry.low, Entry.width, canonical_len, ← Nat.succ_mul] at hgap
  have hpow : 2 ^ (32 - (tableGet l t).toNat) ≤ 2 ^ (32 - (tableGet l s).toNat) :=
    Nat.pow_le_pow_right Nat.two_pos (Nat.sub_le_sub_left hst.length_le 32)
  exact Nat.le_of_mul_le_mul_right (hgap.trans (Nat.mul_le_mul_left _ hpow)) (by positivity)

/-! ## The Kraft sum of Huffman lengths -/

theorem kraftScaled_add {m : Nat} {l : Table Nat} (h : ∀ s, tableGet l s ≤ m) (k : Nat) :
    kraftScaled (m + k) l = 2 ^ k * kraftScaled m l := by
  have hpow : ∀ s, 2 ^ (m + k - tableGet l s) = 2 ^ k * 2 ^ (m - tableGet l s) := fun s => by
    rw [Nat.add_comm, Nat.add_sub_assoc (h s), pow_add]
  simp only [kraftScaled, hpow, List.sum_map_mul_left]

/-- R153: with two or more present symbols the Kraft equality holds, at scale `2 ^ 32` too. -/
theorem kraftScaled_32_of_two_le {f : Table Word} (hmax : maxLength (huffmanLengths f) ≤ 32)
    (htwo : 2 ≤ (presentSymbols f).length) : kraftScaled 32 (huffmanLengths f) = 2 ^ 32 := by
  have h256 := (huffmanLengthsMeetKraft f).1 htwo
  rw [kraftScaled_add (m := 32) (maxLength_le_iff.1 hmax) 224, pow_add 2 224 32] at h256
  exact Nat.eq_of_mul_eq_mul_left (Nat.two_pow_pos 224) h256

theorem kraftScaled_32_le {f : Table Word} (hmax : maxLength (huffmanLengths f) ≤ 32) :
    kraftScaled 32 (huffmanLengths f) ≤ 2 ^ 32 := by
  match hp : presentSymbols f with
  | [] => simp [kraftScaled_huffmanLengths, symbolLengths_of_none hp]
  | [p] => simp [kraftScaled_huffmanLengths, symbolLengths_of_one hp]
  | _ :: _ :: _ => exact (kraftScaled_32_of_two_le hmax (by simp [hp])).le

/-- The Kraft sum of `E` is the Kraft sum of the lengths it lists. -/
theorem kraftSum_sortedLengths {l : Table Nat} (h : maxLength l ≤ 32) :
    kraftSum (sortedLengths (lengthTable l)) = kraftScaled 32 l := by
  rw [kraftSum, ((sortedLengths_perm _).map _).sum_eq, List.filter_map, List.map_map, kraftScaled]
  simp only [Function.comp_def, lengthTable_toNat h]

theorem kraftLengths_huffman {f : Table Word} (hmax : maxLength (huffmanLengths f) ≤ 32) :
    KraftLengths (lengthTable (huffmanLengths f)) where
  le_32 s := (lengthTable_toNat hmax s).trans_le (maxLength_le_iff.1 hmax s)
  kraft := (kraftSum_sortedLengths hmax).trans_le (kraftScaled_32_le hmax)

/-- Settles O38: each interval begins at the Kraft sum of the lengths before its symbol's. -/
theorem canonicalCodesFollowTheOrder : Obligations.CanonicalCodesFollowTheOrder := by
  intro f hmax L D before
  have hl := kraftLengths_huffman hmax
  exact ⟨fun t ht hfirst => canonical_val_first hl ht hfirst, fun s t hst hnext => canonical_val_next hl hst hnext,
    fun s t hst => canonical_val_lt hl hst⟩

end Sys2Proof.Machine
end

section
/-! PROOFS. The canonical code is prefix-free and, with two or more symbols, complete (43_canonical_assigner.md R153):
the intervals of its codewords are apart, and they fill the 32-bit numbers. -/

namespace Sys2Proof.Machine

/-! ## Bit strings as intervals -/

theorem valOf_append (a b : List Bool) : valOf (a ++ b) = valOf a * 2 ^ b.length + valOf b := by
  induction b using List.reverseRecOn with
  | nil => simp [valOf]
  | append_singleton b x ih =>
    rw [← List.append_assoc, valOf_concat, valOf_concat, ih, Nat.bit_val, Nat.bit_val, List.length_append,
      List.length_singleton, pow_succ]
    ring

/-- `valOf` undoes `bitsOf` on a value that fits. -/
theorem valOf_bitsOf {len : Nat} {val : Word} (h : val.toNat < 2 ^ len) : valOf (bitsOf len val) = val.toNat := by
  apply Nat.eq_of_testBit_eq
  intro k
  rw [testBit_valOf]
  rcases Nat.lt_or_ge k len with hk | hk
  · have hidx : len - 1 - (len - 1 - k) = k := by omega
    simp [bitsOf, hk, hidx, BitVec.getLsbD]
  · rw [Nat.testBit_lt_two_pow (h.trans_le (Nat.pow_le_pow_right Nat.two_pos hk)), List.getD_eq_default]
    simpa [bitsOf] using hk

/-- Bit strings of one length, at most 32, are told apart by their numbers. -/
theorem eq_of_valOf_eq {a b : List Bool} (hlen : a.length = b.length) (h32 : b.length ≤ 32) (h : valOf a = valOf b) :
    a = b := by
  rw [← bitsOf_valOf h32, ← h, ← hlen, bitsOf_valOf (hlen ▸ h32)]

/-- The 32-bit numbers that begin with a bit string are among those that begin with a prefix of it. -/
theorem valOf_scaled_of_prefix {a b : List Bool} (h : a <+: b) (h32 : b.length ≤ 32) :
    valOf a * 2 ^ (32 - a.length) ≤ valOf b * 2 ^ (32 - b.length) ∧
      valOf b * 2 ^ (32 - b.length) < valOf a * 2 ^ (32 - a.length) + 2 ^ (32 - a.length) := by
  obtain ⟨r, rfl⟩ := h
  rw [List.length_append] at *
  have hpow : 2 ^ (32 - a.length) = 2 ^ r.length * 2 ^ (32 - (a.length + r.length)) := by
    rw [← pow_add]
    congr 1
    omega
  have hr := valOf_lt r
  rw [hpow, ← mul_assoc, ← add_mul, valOf_append]
  exact ⟨Nat.mul_le_mul_right _ (Nat.le_add_right _ _), Nat.mul_lt_mul_of_pos_right (by omega) (by positivity)⟩

@[simp] theorem Entry.length_bits (e : Entry) : e.bits.length = e.len.toNat := by simp [Entry.bits, bitsOf]

theorem Entry.len_le_of_legal {e : Entry} (h : e.legal) : e.len.toNat ≤ 32 := by
  rcases h with rfl | ⟨-, -, h, -⟩
  · decide
  · exact h

theorem Entry.valOf_bits {e : Entry} (h : e.legal) : valOf e.bits = e.val.toNat := by
  apply valOf_bitsOf
  rcases h with rfl | ⟨-, -, -, h⟩
  · decide
  · exact h

/-- The interval of a codeword begins inside that of each of its prefixes. -/
theorem low_mem_of_prefix {a b : Entry} (ha : a.legal) (hb : b.legal) (h : a.bits <+: b.bits) :
    a.low ≤ b.low ∧ b.low < a.low + a.width := by
  simpa [Entry.valOf_bits, ha, hb, Entry.low, Entry.width] using
    valOf_scaled_of_prefix h (b.length_bits.trans_le (Entry.len_le_of_legal hb))

/-- A codeword begins the 32 bits whose number lies in its interval. -/
theorem bits_prefix_of_mem {e : Entry} (he : e.legal) {b : List Bool} (hb : b.length = 32) (hlow : e.low ≤ valOf b)
    (hhigh : valOf b < e.low + e.width) : e.bits <+: b := by
  have hlen : (b.take e.len.toNat).length = e.len.toNat := by simpa [hb] using Entry.len_le_of_legal he
  obtain ⟨htlow, hthigh⟩ := valOf_scaled_of_prefix (List.take_prefix e.len.toNat b) hb.le
  rw [hlen, hb, Nat.sub_self, pow_zero, mul_one] at htlow hthigh
  have hval : e.val.toNat = valOf (b.take e.len.toNat) :=
    (Nat.div_eq_of_lt_le hlow (Nat.succ_mul .. ▸ hhigh)).symm.trans
      (Nat.div_eq_of_lt_le htlow (Nat.succ_mul .. ▸ hthigh))
  have hbits : e.bits = b.take e.len.toNat :=
    eq_of_valOf_eq (e.length_bits.trans hlen.symm) (hlen.trans_le (Entry.len_le_of_legal he))
      ((Entry.valOf_bits he).trans hval)
  exact hbits ▸ List.take_prefix _ b

/-! ## Prefix-freedom and completeness (R153) -/

/-- The codewords of two symbols have intervals apart, so neither begins with the other. -/
theorem not_codesConflict_of_precedes {l : Table (BitVec 6)} (hl : KraftLengths l)
    (hlegal : ∀ s, (tableGet (canonical l) s).legal) {s t : Byte} (hst : Precedes l s t) :
    ¬ codesConflict (tableGet (canonical l) s) (tableGet (canonical l) t) := by
  have hgap := canonical_low_add_width_le hl hst
  rintro (h | h)
  · obtain ⟨-, hlt⟩ := low_mem_of_prefix (hlegal s) (hlegal t) h
    omega
  · obtain ⟨hle, -⟩ := low_mem_of_prefix (hlegal t) (hlegal s) h
    have hpos := (tableGet (canonical l) s).width_pos
    omega

/-- Settles O39: of two symbols one precedes the other in the order of R150, so their intervals are apart. -/
theorem canonicalDictionariesArePrefixFree : Obligations.CanonicalDictionariesArePrefixFree := by
  intro f hmax
  have hl := kraftLengths_huffman hmax
  have hlegal := isHuffmanCode_legal ⟨f, hmax, rfl⟩
  refine ⟨hlegal, fun s t hne hs ht => ?_⟩
  rcases precedes_total (canonical_valid_iff.1 hs) (canonical_valid_iff.1 ht) hne with hst | hts
  · exact not_codesConflict_of_precedes hl hlegal hst
  · exact fun hc => not_codesConflict_of_precedes hl hlegal hts hc.symm

/-- The intervals of `E`, laid end to end, reach every number below the Kraft sum. -/
theorem exists_split_of_lt_kraftSum {e : List (Byte × Nat)} {v : Nat} (h : v < kraftSum e) :
    ∃ e₁ p e₂, e = e₁ ++ p :: e₂ ∧ kraftSum e₁ ≤ v ∧ v < kraftSum e₁ + 2 ^ (32 - p.2) := by
  induction e generalizing v with
  | nil => simp at h
  | cons q e ih =>
    rw [kraftSum_cons] at h
    rcases Nat.lt_or_ge v (2 ^ (32 - q.2)) with hq | hq
    · exact ⟨[], q, e, rfl, by simp, by simpa using hq⟩
    · obtain ⟨e₁, p, e₂, rfl, hlow, hhigh⟩ := ih (v := v - 2 ^ (32 - q.2)) (by omega)
      exact ⟨q :: e₁, p, e₂, rfl, by rw [kraftSum_cons]; omega, by rw [kraftSum_cons]; omega⟩

/-- Settles O40: the first 32 bits are a number below the Kraft sum, so some codeword's interval holds it. -/
theorem canonicalDictionariesAreComplete : Obligations.CanonicalDictionariesAreComplete := by
  intro f bits hmax htwo hbits
  have hl := kraftLengths_huffman hmax
  have hlen : (bits.take 32).length = 32 := by simpa using hbits
  have hv : valOf (bits.take 32) < kraftSum (sortedLengths (lengthTable (huffmanLengths f))) := by
    rw [kraftSum_sortedLengths hmax, kraftScaled_32_of_two_le hmax htwo]
    exact (valOf_lt _).trans_eq (by rw [hlen])
  obtain ⟨e₁, ⟨s, n⟩, e₂, he, hlow, hhigh⟩ := exists_split_of_lt_kraftSum hv
  have hmem : (s, n) ∈ sortedLengths (lengthTable (huffmanLengths f)) := he ▸ by simp
  obtain ⟨(rfl : n = (tableGet (lengthTable (huffmanLengths f)) s).toNat), hne⟩ := mem_sortedLengths.1 hmem
  refine ⟨s, canonical_valid_iff.2 (BitVec.toNat_ne.2 hne), ?_⟩
  refine (bits_prefix_of_mem (isHuffmanCode_legal ⟨f, hmax, rfl⟩ s) hlen ?_ ?_).trans (List.take_prefix _ _)
  · rwa [canonical_low hl he]
  · rwa [canonical_low hl he, Entry.width, canonical_len]

end Sys2Proof.Machine
end

section
/-! PROOFS. DICT_CLEAR and DICT_WRITE (44_dictionary.md R170 to R176): an equation of DICT_WRITE's body for each of its
five outcomes, in the terms of the dictionary's entries. -/

namespace Sys2Proof.Machine

/-! ## What DICT_WRITE checks -/

/-- The entry that DICT_WRITE's operands spell (R172). -/
def argEntry (s : State) : Entry := { valid := true, len := argLength s, val := s.arg1 }

/-- A malformed operand, by the four ways of R173. -/
theorem malformedOperand_iff (s : State) : malformedOperand s = true ↔
    argReserved s ≠ 0#18 ∨ argLength s = 0#6 ∨ 32 < (argLength s).toNat ∨ 2 ^ (argLength s).toNat ≤ s.arg1.toNat := by
  have hzero : argLength s = 0#6 ↔ (argLength s).toNat = 0 := by rw [← BitVec.toNat_inj]; rfl
  have hcode : wellFormedCode (argLength s).toNat s.arg1.toNat = false ↔
      argLength s = 0#6 ∨ 32 < (argLength s).toNat ∨ 2 ^ (argLength s).toNat ≤ s.arg1.toNat := by
    rw [← Bool.not_eq_true, wellFormedCode_iff, hzero]
    omega
  simp [malformedOperand, hcode]

theorem codewordHolder_eq_none_iff {s : State} :
    codewordHolder s.dict (argLength s) s.arg1 = none ↔ ∀ t, tableGet s.dict t ≠ argEntry s := by
  simp [codewordHolder, argEntry]

/-- The only symbol that holds the codeword is the one reported (R174). -/
theorem codewordHolder_of_unique {s : State} {t : Byte} (ht : tableGet s.dict t = argEntry s)
    (huniq : ∀ u, tableGet s.dict u = argEntry s → u = t) :
    codewordHolder s.dict (argLength s) s.arg1 = some t := by
  cases hh : codewordHolder s.dict (argLength s) s.arg1 with
  | none => exact absurd ht (codewordHolder_eq_none_iff.1 hh t)
  | some u => exact congrArg some (huniq u (by simpa [argEntry] using List.find?_some hh))

/-! ## The outcomes of DICT_WRITE -/

theorem bodyDictWrite_of_dictBad {s : State} (hb : s.dictBad = true) : bodyDictWrite s = raise .notReady 0x07#32 s := by
  simp [bodyDictWrite, hb]

theorem bodyDictWrite_of_malformed {s : State} (hb : s.dictBad = false) (hm : malformedOperand s = true) :
    bodyDictWrite s = raise .formatMalformed s.arg0 { s with trieValid := false, dictBad := true } := by
  rcases bodyDictWrite_cases s with ⟨h, -⟩ | ⟨-, -, he⟩ | ⟨-, h, -⟩ | ⟨-, h, -⟩ | ⟨-, h, -⟩
  · simp [hb] at h
  · exact he
  all_goals simp [hm] at h

theorem bodyDictWrite_of_holder {s : State} {t : Byte} (hb : s.dictBad = false) (hm : malformedOperand s = false)
    (ht : codewordHolder s.dict (argLength s) s.arg1 = some t) :
    bodyDictWrite s =
      raise .formatDuplicateCodeword (t.setWidth 32) { s with trieValid := false, dictBad := true } := by
  rcases bodyDictWrite_cases s with ⟨h, -⟩ | ⟨-, h, -⟩ | ⟨-, -, u, hu, he⟩ | ⟨-, -, h, -⟩ | ⟨-, -, h, -⟩
  · simp [hb] at h
  · simp [hm] at h
  · obtain rfl : t = u := Option.some.inj (ht.symm.trans hu)
    exact he
  all_goals simp [ht] at h

theorem bodyDictWrite_of_present {s : State} (hb : s.dictBad = false) (hm : malformedOperand s = false)
    (hnew : ∀ t, tableGet s.dict t ≠ argEntry s) (hv : (tableGet s.dict (argSymbol s)).valid = true) :
    bodyDictWrite s =
      raise .formatDuplicateSymbol ((argSymbol s).setWidth 32) { s with trieValid := false, dictBad := true } := by
  have hnone := codewordHolder_eq_none_iff.2 hnew
  rcases bodyDictWrite_cases s with ⟨h, -⟩ | ⟨-, h, -⟩ | ⟨-, -, _, h, -⟩ | ⟨-, -, -, -, he⟩ | ⟨-, -, -, h, -⟩
  · simp [hb] at h
  · simp [hm] at h
  · simp [hnone] at h
  · exact he
  · simp [hv] at h

theorem bodyDictWrite_of_new {s : State} (hb : s.dictBad = false) (hm : malformedOperand s = false)
    (hnew : ∀ t, tableGet s.dict t ≠ argEntry s) (hv : (tableGet s.dict (argSymbol s)).valid = false) :
    bodyDictWrite s = finish { s with
      trieValid := false
      dict := tableSet s.dict (argSymbol s) (argEntry s)
      nsym := s.nsym + 1#9 } := by
  have hnone := codewordHolder_eq_none_iff.2 hnew
  rcases bodyDictWrite_cases s with ⟨h, -⟩ | ⟨-, h, -⟩ | ⟨-, -, _, h, -⟩ | ⟨-, -, -, h, -⟩ | ⟨-, -, -, -, he⟩
  · simp [hb] at h
  · simp [hm] at h
  · simp [hnone] at h
  · simp [hv] at h
  · exact he

/-! ## The statements -/

/-- Settles O43: the body stores the empty table. -/
theorem dictClearEmptiesTheDictionary : Obligations.DictClearEmptiesTheDictionary := fun s =>
  ⟨tableFill Entry.absent, exec_eq .dictClear s, tableGet_fill Entry.absent⟩

/-- Settles O44: none of the three checks finds an error, so the operands' entry is stored at the symbol. -/
theorem dictWriteStoresANewPair : Obligations.DictWriteStoresANewPair := by
  intro s hb hres h1 h32 hval hnew habs
  have hm : malformedOperand s = false := by
    rw [← Bool.not_eq_true, malformedOperand_iff]
    rintro (h | h | h | h)
    · exact h hres
    · exact absurd (congrArg BitVec.toNat h) (Nat.ne_of_gt h1)
    · exact absurd h32 (Nat.not_le.2 h)
    · exact absurd hval (Nat.not_lt.2 h)
  refine ⟨tableSet s.dict (argSymbol s) (argEntry s), ?_, ?_, fun r hr => ?_⟩
  · rw [exec_eq, bodyOf, bodyDictWrite_of_new hb hm hnew habs]
    rfl
  · exact (tableGet_set ..).trans (if_pos rfl)
  · exact (tableGet_set ..).trans (if_neg hr.symm)

/-- Settles O45: each clause is one outcome of the body. -/
theorem dictWriteErrorsInPriorityOrder : Obligations.DictWriteErrorsInPriorityOrder := by
  intro s len sym bad
  have hgood : ¬ bad → malformedOperand s = false := fun h => by simpa using (malformedOperand_iff s).not.2 h
  refine ⟨fun hb => ?_, fun hb hbad => ?_, fun t hb hbad ht huniq => ?_, fun hb hbad hnew hv => ?_⟩
  · rw [exec_eq, bodyOf, bodyDictWrite_of_dictBad hb]
    rfl
  · rw [exec_eq, bodyOf, bodyDictWrite_of_malformed hb ((malformedOperand_iff s).2 hbad)]
    rfl
  · rw [exec_eq, bodyOf, bodyDictWrite_of_holder hb (hgood hbad) (codewordHolder_of_unique ht huniq)]
    rfl
  · rw [exec_eq, bodyOf, bodyDictWrite_of_present hb (hgood hbad) hnew hv]
    rfl

end Sys2Proof.Machine
end

section
/-! PROOFS. The dictionary text artifact (44_dictionary.md R180 to R188): the host parses the bytes it serialises back
to the pairs, and their DICT_WRITEs fill the dictionary again. -/

namespace Sys2Proof.Machine

/-! ## Tokens (R180) -/

/-- A run of other bytes up to a whitespace byte continues the token begun. -/
theorem tokensFrom_append {current w : List Byte} (hw : ∀ b ∈ w, isSpace b = false) {sp : Byte}
    (hsp : isSpace sp = true) (rest : List Byte) :
    tokensFrom current (w ++ sp :: rest) = closeToken (w.reverse ++ current) (tokens rest) := by
  induction w generalizing current with
  | nil => simp [tokensFrom, tokens, hsp]
  | cons b w ih =>
    obtain ⟨hb, hw⟩ := List.forall_mem_cons.1 hw
    simp [tokensFrom, hb, ih hw]

theorem tokens_append {w : List Byte} (hne : w ≠ []) (hw : ∀ b ∈ w, isSpace b = false) {sp : Byte}
    (hsp : isSpace sp = true) (rest : List Byte) : tokens (w ++ sp :: rest) = w :: tokens rest := by
  rw [tokens, tokensFrom_append hw hsp, List.append_nil, closeToken]
  simp [hne]

/-! ## Symbol tokens (R182, R187) -/

theorem isSpace_of_isDigit {b : Byte} (h : isDigit b = true) : isSpace b = false := by
  rw [← Bool.not_eq_true]
  simp only [isDigit, isSpace, Bool.or_eq_true, Bool.and_eq_true, beq_iff_eq, decide_eq_true_eq] at h ⊢
  rintro (rfl | hb)
  · exact absurd h (by decide)
  · omega

theorem digitByte_toNat {n : Nat} (h : n < 10) : (digitByte n).toNat = 0x30 + n := by
  rw [digitByte, BitVec.toNat_ofNat]
  omega

theorem isDigit_digitByte {n : Nat} (h : n < 10) : isDigit (digitByte n) = true := by
  rw [isDigit, digitByte_toNat h, Bool.and_eq_true, decide_eq_true_eq, decide_eq_true_eq]
  omega

/-- The text of a symbol is the bytes of its decimal digits, first digit first. -/
theorem symbolText_digits (s : Byte) : ∃ ds : List Nat, ds ≠ [] ∧ (∀ n ∈ ds, n < 10) ∧
    symbolText s = ds.map digitByte ∧ ds.foldl (fun acc n => 10 * acc + n) 0 = s.toNat := by
  have hs := s.isLt
  rcases Nat.lt_or_ge s.toNat 10 with h10 | h10
  · exact ⟨[s.toNat], by simp, by simpa using h10, by simp [symbolText, h10], by simp⟩
  rcases Nat.lt_or_ge s.toNat 100 with h100 | h100
  · refine ⟨[s.toNat / 10, s.toNat % 10], by simp, ?_, by simp [symbolText, h100, Nat.not_lt.2 h10], ?_⟩
    · simp only [List.forall_mem_cons, List.not_mem_nil, false_implies, implies_true, and_true]
      omega
    · simp only [List.foldl_cons, List.foldl_nil]
      omega
  · refine ⟨[s.toNat / 100, s.toNat / 10 % 10, s.toNat % 10], by simp, ?_,
      by simp [symbolText, Nat.not_lt.2 h100, Nat.not_lt.2 h10], ?_⟩
    · simp only [List.forall_mem_cons, List.not_mem_nil, false_implies, implies_true, and_true]
      omega
    · simp only [List.foldl_cons, List.foldl_nil]
      omega

theorem symbolText_ne_nil (s : Byte) : symbolText s ≠ [] := by
  obtain ⟨ds, hne, -, htext, -⟩ := symbolText_digits s
  simpa [htext] using hne

theorem isDigit_of_mem_symbolText {s b : Byte} (h : b ∈ symbolText s) : isDigit b = true := by
  obtain ⟨ds, -, hlt, htext, -⟩ := symbolText_digits s
  obtain ⟨n, hn, rfl⟩ := List.mem_map.1 (htext ▸ h)
  exact isDigit_digitByte (hlt n hn)

theorem decimalValue_map_digitByte {ds : List Nat} (h : ∀ n ∈ ds, n < 10) :
    decimalValue (ds.map digitByte) = ds.foldl (fun acc n => 10 * acc + n) 0 := by
  rw [decimalValue, List.foldl_map]
  refine List.foldl_ext _ _ _ fun acc n hn => ?_
  rw [digitByte_toNat (h n hn), Nat.add_sub_cancel_left]

theorem symbolOfToken_symbolText (s : Byte) : symbolOfToken (symbolText s) = .ok s := by
  have hval : decimalValue (symbolText s) = s.toNat := by
    obtain ⟨ds, -, hlt, htext, hds⟩ := symbolText_digits s
    rw [htext, decimalValue_map_digitByte hlt, hds]
  have hall : (symbolText s).all isDigit = true := List.all_eq_true.2 fun _ => isDigit_of_mem_symbolText
  have hbyte : s.toNat ≤ 255 := Nat.le_of_lt_succ s.isLt
  rw [symbolOfToken, hval, hall, if_pos (by simp [symbolText_ne_nil, hbyte]), BitVec.ofNat_toNat, BitVec.setWidth_eq]

/-! ## Codeword tokens (R183, R187) -/

theorem mem_codewordText {c : List Bool} {b : Byte} (h : b ∈ codewordText c) : b = 0x30#8 ∨ b = 0x31#8 := by
  obtain ⟨x, -, rfl⟩ := List.mem_map.1 h
  cases x <;> simp

@[simp] theorem length_codewordText (c : List Bool) : (codewordText c).length = c.length := List.length_map ..

theorem codewordText_ne_nil {c : List Bool} (h : 1 ≤ c.length) : codewordText c ≠ [] :=
  List.ne_nil_of_length_pos (h.trans_eq (length_codewordText c).symm)

theorem codewordOfToken_codewordText {c : List Bool} (h1 : 1 ≤ c.length) (h32 : c.length ≤ 32) :
    codewordOfToken (codewordText c) = .ok c := by
  have hbits : (codewordText c).all (fun b => b == 0x30#8 || b == 0x31#8) = true :=
    List.all_eq_true.2 fun b hb => by simpa using mem_codewordText hb
  have hback : (codewordText c).map (fun b => b == 0x31#8) = c := by
    rw [codewordText, List.map_map]
    exact (List.map_congr_left (by simp)).trans c.map_id
  rw [codewordOfToken, hbits, hback, if_pos]
  simp [codewordText_ne_nil h1, Config.maxCodeLen, h32]

/-! ## Parsing what was serialised (R181, R186, R187) -/

/-- The pair of each symbol of a list: the symbol and its codeword in `d`. -/
def dictPairs (d : Table Entry) (syms : List Byte) : List (Byte × List Bool) :=
  syms.map (fun s => (s, (tableGet d s).bits))

/-- The text of a pair is its two tokens, each ended by a whitespace byte. -/
theorem tokens_pairText (s : Byte) {e : Entry} (he : 1 ≤ e.len.toNat) (rest : List Byte) :
    tokens (pairText s e ++ rest) = symbolText s :: codewordText e.bits :: tokens rest := by
  have htext : pairText s e ++ rest = symbolText s ++ 0x20#8 :: (codewordText e.bits ++ 0x0A#8 :: rest) := by
    simp [pairText]
  have hcode : codewordText e.bits ≠ [] := codewordText_ne_nil (he.trans_eq e.length_bits.symm)
  have hbits : ∀ b ∈ codewordText e.bits, isSpace b = false := fun b hb => by
    rcases mem_codewordText hb with rfl | rfl <;> decide
  rw [htext, tokens_append (symbolText_ne_nil s) (fun _ hb => isSpace_of_isDigit (isDigit_of_mem_symbolText hb))
    (by decide), tokens_append hcode hbits (by decide)]

theorem parseDictionary_pairTexts {d : Table Entry} {syms : List Byte}
    (h : ∀ s ∈ syms, 1 ≤ (tableGet d s).len.toNat ∧ (tableGet d s).len.toNat ≤ 32) :
    parseDictionary (syms.flatMap (fun s => pairText s (tableGet d s))) = .ok (dictPairs d syms) := by
  induction syms with
  | nil => rfl
  | cons s syms ih =>
    obtain ⟨⟨h1, h32⟩, hrest⟩ := List.forall_mem_cons.1 h
    have hcode : codewordOfToken (codewordText (tableGet d s).bits) = .ok (tableGet d s).bits :=
      codewordOfToken_codewordText (by simpa using h1) (by simpa using h32)
    have hps := ih hrest
    rw [parseDictionary] at hps
    rw [List.flatMap_cons, parseDictionary, tokens_pairText s h1, pairsOfTokens, symbolOfToken_symbolText, hcode, hps]
    rfl

/-- The symbols in the order they are serialised. -/
def serialSymbols (d : Table Entry) : List Byte := (serialOrder d).map Prod.fst

theorem serialiseDictionary_eq (d : Table Entry) :
    serialiseDictionary d = (serialSymbols d).flatMap (fun s => pairText s (tableGet d s)) := by
  rw [serialiseDictionary, serialSymbols, List.flatMap_map]

theorem serialSymbols_perm (d : Table Entry) :
    (serialSymbols d).Perm (allBytes.filter (fun s => (tableGet d s).valid)) := by
  have h := (List.perm_insertionSort lengthOrder
    ((allBytes.filter (fun s => (tableGet d s).valid)).map (fun s => (s, (tableGet d s).len.toNat)))).map Prod.fst
  simpa [serialSymbols, serialOrder, Function.comp_def] using h

theorem mem_serialSymbols {d : Table Entry} {s : Byte} : s ∈ serialSymbols d ↔ (tableGet d s).valid = true := by
  simp [(serialSymbols_perm d).mem_iff]

theorem serialSymbols_nodup (d : Table Entry) : (serialSymbols d).Nodup :=
  (serialSymbols_perm d).nodup_iff.2 (allBytes_nodup.filter _)

/-! ## Loading (R184) -/

theorem Entry.len_bounds_of_legal {e : Entry} (h : e.legal) (hv : e.valid = true) :
    1 ≤ e.len.toNat ∧ e.len.toNat ≤ 32 := by
  rcases h with rfl | ⟨-, h1, h32, -⟩
  · exact absurd hv Bool.false_ne_true
  · exact ⟨h1, h32⟩

/-- The operands of a pair `dput` writes spell the entry it came from. -/
theorem argEntry_withPairArgs (u : State) (s : Byte) {e : Entry} (h : e.legal) (hv : e.valid = true) :
    argEntry (withPairArgs (s, e.bits) u) = e := by
  have hlen : argLength (withPairArgs (s, e.bits) u) = e.len := BitVec.eq_of_toNat_eq <|
    (argLength_withPairArgs u s (by simpa using Entry.len_le_of_legal h)).trans e.length_bits
  have hval : (withPairArgs (s, e.bits) u).arg1 = e.val := by simp [withPairArgs, Entry.valOf_bits h]
  rw [argEntry, hlen, hval, ← hv]

/-- The load of `d` at work: the block holds what `d` holds, but for the symbols of `syms`, still to be written. -/
structure State.AwaitsEntries (d : Table Entry) (syms : List Byte) (u : State) : Prop where
  dictBad : u.dictBad = false
  entries : ∀ s, tableGet u.dict s = if s ∈ syms then Entry.absent else tableGet d s
  nsymCounts : u.nsym.toNat = numPresent u.dict

theorem bodyDictClear_awaitsEntries {d : Table Entry} (hd : ∀ s, (tableGet d s).legal) (u : State) :
    State.AwaitsEntries d (serialSymbols d) (bodyDictClear u).1 where
  dictBad := rfl
  entries s := by
    refine (tableGet_fill ..).trans ?_
    split
    next => rfl
    next hs =>
      rcases hd s with h | ⟨hv, -⟩
      · exact h.symm
      · exact absurd (mem_serialSymbols.2 hv) hs
  nsymCounts := numPresent_fill_absent.symm

/-- NSYM goes on counting the present entries when an absent one is filled. -/
theorem nsym_counts_set {d : Table Entry} {n : BitVec 9} {s : Byte} {e : Entry} (hn : n.toNat = numPresent d)
    (habs : (tableGet d s).valid = false) (he : e.valid = true) :
    (n + 1#9).toNat = numPresent (tableSet d s e) := by
  have hle := numPresent_le d
  rw [numPresent_set habs he, BitVec.toNat_add, hn, BitVec.toNat_ofNat]
  omega

section
variable {d : Table Entry} (hd : ∀ s, (tableGet d s).legal)
  (hdistinct : ∀ a b, a ≠ b → (tableGet d a).valid = true → (tableGet d b).valid = true → tableGet d a ≠ tableGet d b)
include hd hdistinct

/-- The DICT_WRITE of the next pair ends without an error and leaves the others awaited. -/
theorem bodyDictWrite_awaitsEntries {s : Byte} {syms : List Byte} {u : State} (hu : u.AwaitsEntries d (s :: syms))
    (hs : s ∉ syms) (hv : (tableGet d s).valid = true) :
    ∃ t, bodyDictWrite (withPairArgs (s, (tableGet d s).bits) u) = finish t ∧ t.AwaitsEntries d syms := by
  obtain ⟨h1, h32⟩ := Entry.len_bounds_of_legal (hd s) hv
  have hbits : 1 ≤ (tableGet d s).bits.length ∧ (tableGet d s).bits.length ≤ 32 := by simpa using ⟨h1, h32⟩
  have hsym := argSymbol_withPairArgs u s hbits.2
  have hentry := argEntry_withPairArgs u s (hd s) hv
  have habs : tableGet u.dict s = Entry.absent := by simpa using hu.entries s
  have hnew : ∀ t, tableGet u.dict t ≠ tableGet d s := by
    intro t he
    by_cases ht : t ∈ s :: syms
    · rw [← he, hu.entries t, if_pos ht] at hv
      exact Bool.false_ne_true hv
    · rw [hu.entries t, if_neg ht] at he
      exact hdistinct t s (fun h => ht (h ▸ List.mem_cons_self)) (he ▸ hv) hv he
  refine ⟨_, bodyDictWrite_of_new hu.dictBad (malformedOperand_withPairArgs u s hbits.1 hbits.2) ?_ ?_, ?_⟩
  · rwa [hentry]
  · rw [hsym]
    exact congrArg Entry.valid habs
  · rw [hsym, hentry]
    refine ⟨hu.dictBad, fun t => ?_, ?_⟩
    · refine (tableGet_set ..).trans ?_
      by_cases hst : s = t
      · subst hst
        rw [if_pos rfl, if_neg hs]
      · rw [if_neg hst]
        exact (hu.entries t).trans (by simp [Ne.symm hst])
    · exact nsym_counts_set hu.nsymCounts (congrArg Entry.valid habs) hv

theorem writePairs_dictPairs {syms : List Byte} {u : State} (hu : u.AwaitsEntries d syms) (hnodup : syms.Nodup)
    (hv : ∀ s ∈ syms, (tableGet d s).valid = true) :
    ∃ t, writePairs (dictPairs d syms) u = .ok t ∧ t.AwaitsEntries d [] := by
  induction syms generalizing u with
  | nil => exact ⟨u, rfl, hu⟩
  | cons s syms ih =>
    obtain ⟨hs, hnodup⟩ := List.nodup_cons.1 hnodup
    obtain ⟨hvs, hv⟩ := List.forall_mem_cons.1 hv
    obtain ⟨u', he, hu'⟩ := bodyDictWrite_awaitsEntries hd hdistinct hu hs hvs
    obtain ⟨t, ht, hdone⟩ := ih hu' hnodup hv
    refine ⟨t, ?_, hdone⟩
    rw [dictPairs, List.map_cons, writePairs, he]
    exact ht

end

/-- Settles O59: the text parses to the pairs of the present entries, and after their DICT_WRITEs none is awaited. -/
theorem serialisedDictionariesLoadBack : Obligations.SerialisedDictionariesLoadBack := by
  intro d hd hdistinct
  have hlen : ∀ s ∈ serialSymbols d, 1 ≤ (tableGet d s).len.toNat ∧ (tableGet d s).len.toNat ≤ 32 :=
    fun s hs => Entry.len_bounds_of_legal (hd s) (mem_serialSymbols.1 hs)
  refine ⟨dictPairs d (serialSymbols d), serialiseDictionary_eq d ▸ parseDictionary_pairTexts hlen, fun u => ?_⟩
  obtain ⟨t, ht, hdone⟩ := writePairs_dictPairs hd hdistinct (bodyDictClear_awaitsEntries hd u) (serialSymbols_nodup d)
    (fun _ => mem_serialSymbols.1)
  have hdict : t.dict = d := table_ext (by simpa using hdone.entries)
  exact ⟨t, ht, hdict, hdict ▸ hdone.nsymCounts⟩

end Sys2Proof.Machine
end

section
/-! PROOFS. ENCODE (45_bitstream_encoder.md R200 to R206): the least input index without a codeword, an equation of
ENCODE's body for each of its six outcomes, and the stream's header count and bits as they read back. -/

namespace Sys2Proof.Machine

/-! ## The least index without a codeword (R205) -/

theorem firstMissing_eq (d : Table Entry) (k : Nat) (bytes : List Byte) :
    firstMissing d k bytes = (bytes.findIdx? fun b => !(tableGet d b).valid).map (· + k) := by
  induction bytes generalizing k with
  | nil => rfl
  | cons b bytes ih =>
    cases h : (tableGet d b).valid
    · simp [firstMissing, List.findIdx?_cons, h]
    · simp [firstMissing, List.findIdx?_cons, h, ih, Function.comp_def, Nat.add_assoc, Nat.add_comm 1]

theorem firstMissing_inputBytes_eq_none {s : State}
    (h : ∀ k, k < s.inLen.toNat → (tableGet s.dict (s.inBuf.read k)).valid = true) :
    firstMissing s.dict 0 (inputBytes s) = none := by
  simpa [firstMissing_eq, inputBytes, Buffer.bytes] using h

theorem firstMissing_inputBytes_eq_some {s : State} {k : Nat} (hk : k < s.inLen.toNat)
    (hmiss : (tableGet s.dict (s.inBuf.read k)).valid = false)
    (hbefore : ∀ j, j < k → (tableGet s.dict (s.inBuf.read j)).valid = true) :
    firstMissing s.dict 0 (inputBytes s) = some k := by
  have hfind : (inputBytes s).findIdx? (fun b => !(tableGet s.dict b).valid) = some k := by
    rw [List.findIdx?_eq_some_iff_getElem]
    exact ⟨by simpa using hk, by simpa [inputBytes, Buffer.bytes] using hmiss,
      by simpa [inputBytes, Buffer.bytes] using hbefore⟩
  simp [firstMissing_eq, hfind]

/-! ## The outcomes of ENCODE -/

theorem bodyEncode_of_tooLong {s : State} (h : s.inCap < s.inLen.toNat) :
    bodyEncode s = failOutput .badLength s.inLen s := by
  simp [bodyEncode, checkInLen_some h]

section
variable {s : State} (hlen : s.inLen.toNat ≤ s.inCap)
include hlen

theorem bodyEncode_of_dictBad (hb : s.dictBad = true) : bodyEncode s = failOutput .notReady 0x08#32 s := by
  simp [bodyEncode, checkInLen_none hlen, hb]

variable (hb : s.dictBad = false)
include hb

/-- Past its length and dictionary checks. -/
theorem bodyEncode_of_ready : bodyEncode s = encodeInput s := by
  simp [bodyEncode, checkInLen_none hlen, hb]

theorem bodyEncode_of_missing {k : Nat} (hm : firstMissing s.dict 0 (inputBytes s) = some k) :
    bodyEncode s = failOutput .encodeSymbolMissing (BitVec.ofNat 32 k) s := by
  rw [bodyEncode_of_ready hlen hb, encodeInput, hm]

variable (hm : firstMissing s.dict 0 (inputBytes s) = none)
include hm

theorem bodyEncode_of_bitCountOverflow (hn : 2 ^ 32 ≤ (encodeBits s.dict (inputBytes s)).length) :
    bodyEncode s = failOutput .bitCountOverflow 0xFFFFFFFF#32 s := by
  rw [bodyEncode_of_ready hlen hb, encodeInput, hm]
  exact if_pos (by omega)

variable (hn : (encodeBits s.dict (inputBytes s)).length < 2 ^ 32)
include hn

theorem bodyEncode_of_outputOverflow
    (hcap : s.outCap < 4 + packedLength (encodeBits s.dict (inputBytes s)).length) :
    bodyEncode s = failOutput .outputOverflow
      (BitVec.ofNat 32 (4 + packedLength (encodeBits s.dict (inputBytes s)).length)) s := by
  rw [bodyEncode_of_ready hlen hb, encodeInput, hm]
  exact (if_neg (by omega)).trans (if_pos hcap)

theorem bodyEncode_of_fits (hcap : 4 + packedLength (encodeBits s.dict (inputBytes s)).length ≤ s.outCap) :
    bodyEncode s = finish (storeStream (encodeBits s.dict (inputBytes s)) s) := by
  rw [bodyEncode_of_ready hlen hb, encodeInput, hm]
  exact (if_neg (by omega)).trans (if_neg (Nat.not_lt.2 hcap))

end

/-! ## The stream read back -/

/-- R201: the header's four bytes are the count. -/
theorem headerCount_headerBytes_append (n : Word) (rest : List Byte) :
    headerCount (headerBytes n ++ rest) = n.toNat := by
  simp [headerCount, headerBytes, BitVec.extractLsb'_toNat, Nat.shiftRight_eq_div_pow]
  omega

theorem headerCount_streamOf {bits : List Bool} (h : bits.length < 2 ^ 32) :
    headerCount (streamOf bits) = bits.length := by
  rw [streamOf, headerCount_headerBytes_append, BitVec.toNat_ofNat, Nat.mod_eq_of_lt h]

/-- R202: the bits of a packed byte, most significant first. -/
theorem packByte_getLsbD (bit : Nat → Bool) {i : Nat} (h : i < 8) : (packByte bit).getLsbD (7 - i) = bit i := by
  unfold packByte
  iterate 7 rw [getLsbD_append_ofBool]
  interval_cases i <;> simp

theorem streamOf_getD_packed {bits : List Bool} {i : Nat} (h : i < packedLength bits.length) :
    (streamOf bits).getD (Config.hdrBytes + i) 0#8 = packByte fun j => bits.getD (8 * i + j) false := by
  rw [streamOf, List.getD_append_right _ _ _ _ (Nat.le_add_right Config.hdrBytes i)]
  simp [headerBytes, packBits, Config.hdrBytes, h]

/-- R202, R203: the bits of the packed bytes are those of the stream, then zero padding. -/
theorem streamBit_streamOf {bits : List Bool} {j : Nat} (h : j < 8 * packedLength bits.length) :
    streamBit (streamOf bits) j = bits.getD j false := by
  rw [streamBit, streamOf_getD_packed (by omega), packByte_getLsbD _ (Nat.mod_lt _ (by omega)), Nat.div_add_mod]

/-- A byte written from index 0 on reads back. -/
theorem read_writeList_zero {vs : List Byte} {k : Nat} (h : k < vs.length) (b : Buffer) :
    (b.writeList 0 vs).read k = vs.getD k 0#8 := by
  rw [read_writeList, if_pos ⟨k.zero_le, by rwa [Nat.zero_add]⟩, Nat.sub_zero]

/-- The codewords of the input bytes, index by index (R204). -/
theorem encodeBits_inputBytes (s : State) : encodeBits s.dict (inputBytes s) =
    ((List.range s.inLen.toNat).map fun k => (tableGet s.dict (s.inBuf.read k)).bits).flatten := by
  rw [encodeBits, inputBytes, Buffer.bytes, List.flatMap_map]
  rfl

/-! ## The statements -/

/-- A failed ENCODE, completed (R102, R205, R271). -/
theorem exec_encode_of_failOutput {s : State} {c : ErrCode} {i : Word} (h : bodyEncode s = failOutput c i s) :
    exec .encode s = .next { s with
      outBuf := Buffer.any s.draws, draws := s.draws + 1, outLen := 0#32, bitCount := 0#32, outValid := false
      phase := .idle, done := true, error := true, errCode := c, errInfo := i } := by
  rw [exec_eq, bodyOf, h]
  rfl

/-- Settles O47: none of the five checks fails, so OUT holds the stream of the codewords' bits, read by its laws. -/
theorem encodeWritesTheStream : Obligations.EncodeWritesTheStream := by
  intro s hlen hb hv
  rw [← encodeBits_inputBytes]
  intro bits total hn hcap
  have hlength : (streamOf bits).length = total := length_streamOf bits
  have hread (k : Nat) (hk : k < total) :
      (s.outBuf.writeList 0 (streamOf bits)).read k = (streamOf bits).getD k 0#8 :=
    read_writeList_zero (hlength.symm ▸ hk) s.outBuf
  refine ⟨s.outBuf.writeList 0 (streamOf bits), ?_, ?_, fun j hj => ?_, fun k hk => ?_⟩
  · rw [exec_eq, bodyOf, bodyEncode_of_fits hlen hb (firstMissing_inputBytes_eq_none hv) hn hcap]
    rfl
  · rw [hread 0 (by omega), hread 1 (by omega), hread 2 (by omega), hread 3 (by omega)]
    exact headerCount_streamOf hn
  · rw [hread _ (by omega)]
    exact streamBit_streamOf hj
  · rw [read_writeList, if_neg (by omega)]

/-- Settles O48: each clause is one failing outcome of the body. -/
theorem encodeErrorsInPriorityOrder : Obligations.EncodeErrorsInPriorityOrder := by
  intro s failsWith bits
  have hfail {c i} (h : bodyEncode s = failOutput c i s) : failsWith c i := ⟨_, _, exec_encode_of_failOutput h⟩
  refine ⟨fun h => hfail (bodyEncode_of_tooLong h), fun hlen hb => hfail (bodyEncode_of_dictBad hlen hb),
    fun hlen hb k hk hmiss hbefore =>
      hfail (bodyEncode_of_missing hlen hb (firstMissing_inputBytes_eq_some hk hmiss hbefore)),
    fun hlen hb hv => ?_⟩
  have hm := firstMissing_inputBytes_eq_none hv
  exact ⟨fun hn => hfail (bodyEncode_of_bitCountOverflow hlen hb hm hn),
    fun hn hcap => hfail (bodyEncode_of_outputOverflow hlen hb hm hn hcap)⟩

end Sys2Proof.Machine
end

section
/-! PROOFS. Reconstruction of the decode trie and BUILD_TRIE (46_trie_decoder.md R220 to R225): when an insertion fails
and what it adds, the trie of the symbols inserted so far, and the first symbol in conflict with a smaller one. -/

namespace Sys2Proof.Machine

/-! ## What paths reach -/

/-- An internal node (R35). -/
def Child.IsInternal (c : Child) : Prop := ∃ c0 c1, c = .internal c0 c1

@[simp] theorem Child.isInternal_internal (c0 c1 : Child) : (Child.internal c0 c1).IsInternal := ⟨c0, c1, rfl⟩

@[simp] theorem Child.not_isInternal_absent : ¬ Child.absent.IsInternal := nofun

@[simp] theorem Child.not_isInternal_leaf (r : Byte) : ¬ (Child.leaf r).IsInternal := nofun

@[simp] theorem Child.reach_nil (c : Child) : c.reach [] = c := by simp [Child.reach]

@[simp] theorem Child.reach_absent (path : List Bool) : Child.absent.reach path = .absent := by
  cases path <;> rfl

theorem Child.reach_append (p q : List Bool) (c : Child) : c.reach (p ++ q) = (c.reach p).reach q := by
  induction p generalizing c with
  | nil => simp
  | cons b p ih => cases c <;> cases b <;> simp [Child.reach, ih]

/-- A path goes on from the child its first bit selects. -/
theorem Child.reach_cons (b : Bool) (path : List Bool) (c : Child) : c.reach (b :: path) = (c.reach [b]).reach path :=
  Child.reach_append [b] path c

/-- Only an internal node has anything below it. -/
theorem Child.isInternal_of_reach {b : Bool} {path : List Bool} {c : Child} (h : c.reach (b :: path) ≠ .absent) :
    c.IsInternal := by
  cases c with
  | absent => exact absurd rfl h
  | leaf r => exact absurd rfl h
  | internal c0 c1 => simp

/-! ## Insertion below a child pointer (R220) -/

/-- A leaf stands in the way of a path; else the insertion goes on below the bit's child. -/
theorem Child.insert_cons_eq_none_iff {s : Byte} {b : Bool} {path : List Bool} {c : Child} :
    Child.insert s (b :: path) c = none ↔ (∃ r, c = .leaf r) ∨ Child.insert s path (c.reach [b]) = none := by
  cases c <;> cases b <;> simp [Child.insert, Child.reach]

/-- An insertion makes the child pointer an internal node, with the bit's child replaced and the other kept. -/
theorem Child.insert_cons_eq_some {s : Byte} {b : Bool} {path : List Bool} {c c' : Child}
    (h : Child.insert s (b :: path) c = some c') :
    (∀ r, c ≠ .leaf r) ∧ c'.IsInternal ∧ Child.insert s path (c.reach [b]) = some (c'.reach [b]) ∧
      c'.reach [!b] = c.reach [!b] := by
  cases c with
  | leaf r => simp [Child.insert] at h
  | absent =>
    cases b <;> obtain ⟨x, hx, rfl⟩ := Option.map_eq_some_iff.1 h <;> simp [Child.reach, hx]
  | internal c0 c1 =>
    cases b <;> obtain ⟨x, hx, rfl⟩ := Option.map_eq_some_iff.1 h <;> simp [Child.reach, hx]

/-- R220, CORRUPT: a leaf on the path, its end included, or an internal node at its end. -/
theorem Child.insert_eq_none_iff {s : Byte} {path : List Bool} {c : Child} :
    Child.insert s path c = none ↔
      (∃ q, q <+: path ∧ ∃ r, c.reach q = .leaf r) ∨ (c.reach path).IsInternal := by
  induction path generalizing c with
  | nil => cases c <;> simp [Child.insert]
  | cons b path ih =>
    rw [Child.insert_cons_eq_none_iff, ih, c.reach_cons b path, ← or_assoc]
    refine or_congr_left ⟨?_, ?_⟩
    · rintro (⟨r, rfl⟩ | ⟨q, hq, r, hr⟩)
      · exact ⟨[], List.nil_prefix, r, rfl⟩
      · exact ⟨b :: q, List.cons_prefix_cons.2 ⟨rfl, hq⟩, r, c.reach_cons b q ▸ hr⟩
    · rintro ⟨q, hq, r, hr⟩
      obtain rfl | ⟨q, rfl, hq'⟩ := List.prefix_cons_iff.1 hq
      · exact .inl ⟨r, by simpa using hr⟩
      · exact .inr ⟨q, hq', r, c.reach_cons b q ▸ hr⟩

/-- An insertion adds its leaf, an internal node at every proper prefix of its path, and nothing else. -/
theorem Child.reach_insert {s : Byte} {path : List Bool} {c c' : Child} (h : Child.insert s path c = some c')
    (q : List Bool) :
    (∀ r, c'.reach q = .leaf r ↔ (q = path ∧ r = s) ∨ c.reach q = .leaf r) ∧
      ((c'.reach q).IsInternal ↔ (q <+: path ∧ q ≠ path) ∨ (c.reach q).IsInternal) := by
  induction path generalizing c c' q with
  | nil =>
    cases c <;> cases h
    cases q <;> simp [Child.reach, eq_comm]
  | cons b path ih =>
    obtain ⟨hleaf, hint, hsub, hother⟩ := Child.insert_cons_eq_some h
    cases q with
    | nil =>
      obtain ⟨c0, c1, rfl⟩ := hint
      simp [hleaf]
    | cons x q =>
      rw [c'.reach_cons, c.reach_cons]
      obtain rfl | rfl := Bool.eq_or_eq_not x b
      · simp [ih hsub]
      · simp [hother]

/-! ## Insertion from the root -/

/-- The root as a node of the trie (R35). -/
def Trie.root (t : Trie) : Child := .internal t.child0 t.child1

theorem Trie.reach_eq (t : Trie) (path : List Bool) : t.reach path = t.root.reach path := rfl

/-- From the root an insertion is the one below a child pointer that holds the root. -/
theorem Trie.root_insert (s : Byte) (path : List Bool) (t : Trie) :
    Child.insert s path t.root = (t.insert s path).map Trie.root := by
  cases path with
  | nil => rfl
  | cons b path => cases b <;> simp [Child.insert, Trie.insert, Trie.root, Option.map_map, Function.comp_def]

@[simp] theorem Trie.reach_nil (t : Trie) : t.reach [] = t.root := Child.reach_nil _

@[simp] theorem Trie.reach_empty_cons (b : Bool) (path : List Bool) : Trie.empty.reach (b :: path) = .absent := by
  cases b <;> exact Child.reach_absent path

/-- The path of R220 is the codeword, on a codeword of at least one bit. -/
theorem insertPath_eq_bits {e : Entry} (h : 1 ≤ e.len.toNat) : insertPath e.len.toNat e.val = e.bits := by
  obtain ⟨n, hn⟩ := Nat.exists_eq_add_of_le' h
  simp [insertPath, Entry.bits, bitsOf, hn, List.range_succ]

/-! ## The trie of the symbols inserted so far -/

/-- The trie holds the codewords of `d` at the present symbols of a list: their leaves, the internal nodes above them,
and nothing else but the root (R35). -/
structure Trie.Holds (d : Table Entry) (syms : List Byte) (t : Trie) : Prop where
  leaf : ∀ path r,
    t.reach path = .leaf r ↔ r ∈ syms ∧ (tableGet d r).valid = true ∧ path = (tableGet d r).bits
  internal : ∀ path, path ≠ [] → ((t.reach path).IsInternal ↔
    ∃ r ∈ syms, (tableGet d r).valid = true ∧ path <+: (tableGet d r).bits ∧ path ≠ (tableGet d r).bits)

theorem Trie.empty_holds (d : Table Entry) : Trie.empty.Holds d [] where
  leaf path r := by cases path <;> simp [Trie.root]
  internal path hne := by
    cases path with
    | nil => exact absurd rfl hne
    | cons b path => simp

section
variable {d : Table Entry} {syms : List Byte} {t : Trie} (ht : t.Holds d syms) {s : Byte}
include ht

/-- An absent symbol adds nothing. -/
theorem Trie.Holds.concat_of_absent (hs : (tableGet d s).valid = false) : t.Holds d (syms ++ [s]) where
  leaf path r := by
    rw [ht.leaf path r]
    grind
  internal path hne := by
    rw [ht.internal path hne]
    simp [or_and_right, exists_or, hs]

/-- R222: the insertion of a codeword fails when it conflicts with one the trie holds. -/
theorem Trie.Holds.insert_eq_none_iff (hne : (tableGet d s).bits ≠ []) : t.insert s (tableGet d s).bits = none ↔
    ∃ r ∈ syms, (tableGet d r).valid = true ∧ codesConflict (tableGet d r) (tableGet d s) := by
  rw [← Option.map_eq_none_iff (f := Trie.root), ← Trie.root_insert, Child.insert_eq_none_iff]
  simp only [← Trie.reach_eq, ht.leaf, ht.internal _ hne]
  constructor
  · rintro (⟨q, hq, r, hr, hv, rfl⟩ | ⟨r, hr, hv, hq, -⟩)
    · exact ⟨r, hr, hv, .inl hq⟩
    · exact ⟨r, hr, hv, .inr hq⟩
  · rintro ⟨r, hr, hv, hc⟩
    by_cases he : (tableGet d s).bits = (tableGet d r).bits
    · exact .inl ⟨_, he ▸ List.prefix_rfl, r, hr, hv, rfl⟩
    obtain hq | hq := hc
    · exact .inl ⟨_, hq, r, hr, hv, rfl⟩
    · exact .inr ⟨r, hr, hv, hq, he⟩

/-- After the insertion of its codeword the trie holds the symbol too. -/
theorem Trie.Holds.insert (hs : (tableGet d s).valid = true) {t' : Trie}
    (h : t.insert s (tableGet d s).bits = some t') : t'.Holds d (syms ++ [s]) := by
  have hroot : Child.insert s (tableGet d s).bits t.root = some t'.root := by rw [Trie.root_insert, h]; rfl
  refine ⟨fun path r => ?_, fun path hp => ?_⟩
  · rw [Trie.reach_eq, (Child.reach_insert hroot path).1, ← Trie.reach_eq, ht.leaf]
    grind
  · rw [Trie.reach_eq, (Child.reach_insert hroot path).2, ← Trie.reach_eq, ht.internal path hp]
    grind

end

/-! ## Reconstruction (R221 to R223) -/

/-- The present symbol's codeword conflicts with that of a smaller present symbol. -/
def ConflictsBelow (d : Table Entry) (s : Byte) : Prop :=
  (tableGet d s).valid = true ∧
    ∃ r, r.toNat < s.toNat ∧ (tableGet d r).valid = true ∧ codesConflict (tableGet d r) (tableGet d s)

/-- The symbols before `s` in ascending order are the smaller ones. -/
theorem mem_before_iff {done rest : List Byte} {s : Byte} (h : done ++ s :: rest = allBytes) (r : Byte) :
    r ∈ done ↔ r.toNat < s.toNat := by
  obtain ⟨-, hrest, hdone⟩ := List.pairwise_append.1 (h ▸ allBytes_pairwise_lt)
  refine ⟨fun hr => hdone r hr s (by simp), fun hlt => ?_⟩
  obtain hr | hr := List.mem_append.1 (h ▸ mem_allBytes r)
  · exact hr
  · obtain rfl | hr := List.mem_cons.1 hr
    · exact absurd hlt (lt_irrefl _)
    · exact absurd hlt (List.rel_of_pairwise_cons hrest hr).not_gt

/-- Of two symbols one is the smaller. -/
theorem prefixFree_iff {d : Table Entry} : prefixFree d ↔ ∀ s, ¬ ConflictsBelow d s := by
  constructor
  · rintro h s ⟨hs, r, hlt, hr, hc⟩
    exact h r s (fun e => by simp [e] at hlt) hr hs hc
  · intro h s t hne hs ht hc
    rcases Nat.lt_or_gt_of_ne (BitVec.toNat_ne.1 hne) with hlt | hlt
    · exact h t ⟨ht, s, hlt, hs, hc⟩
    · exact h s ⟨hs, t, hlt, ht, hc.symm⟩

theorem Entry.bits_ne_nil {e : Entry} (h : e.legal) (hv : e.valid = true) : e.bits ≠ [] :=
  List.ne_nil_of_length_pos (e.length_bits ▸ (Entry.len_bounds_of_legal h hv).1)

section
variable {d : Table Entry} (hd : ∀ s, (tableGet d s).legal)
include hd

/-- Reconstruction from a trie that holds the symbols before `rest` ends with the trie of all symbols, or at the first
symbol in conflict with a smaller one. -/
theorem insertAll_cases {done rest : List Byte} {t : Trie} (ht : t.Holds d done) (hsplit : done ++ rest = allBytes)
    (hdone : ∀ u ∈ done, ¬ ConflictsBelow d u) :
    (∃ t', insertAll d rest t = .ok t' ∧ t'.Holds d allBytes ∧ ∀ u, ¬ ConflictsBelow d u) ∨
    (∃ s, insertAll d rest t = .error s ∧ ConflictsBelow d s ∧
      ∀ u, u.toNat < s.toNat → ¬ ConflictsBelow d u) := by
  induction rest generalizing done t with
  | nil =>
    rw [List.append_nil] at hsplit
    exact .inl ⟨t, rfl, hsplit ▸ ht, fun u => hdone u (hsplit ▸ mem_allBytes u)⟩
  | cons s rest ih =>
    have hbefore := mem_before_iff hsplit
    have hnext : (done ++ [s]) ++ rest = allBytes := by simpa using hsplit
    have hdone' (hc : ¬ ConflictsBelow d s) : ∀ u ∈ done ++ [s], ¬ ConflictsBelow d u := by
      simpa [or_imp, forall_and, hc] using hdone
    rw [insertAll]
    cases hv : (tableGet d s).valid with
    | false => exact ih (ht.concat_of_absent hv) hnext (hdone' fun hc => by simp [hc.1] at hv)
    | true =>
      have hne := Entry.bits_ne_nil (hd s) hv
      have hnone := ht.insert_eq_none_iff hne
      rw [insertPath_eq_bits (Entry.len_bounds_of_legal (hd s) hv).1]
      cases hi : t.insert s (tableGet d s).bits with
      | none =>
        obtain ⟨r, hr, hc⟩ := hnone.1 hi
        exact .inr ⟨s, rfl, ⟨hv, r, (hbefore r).1 hr, hc⟩, fun u hu => hdone u ((hbefore u).2 hu)⟩
      | some t' =>
        refine ih (ht.insert hv hi) hnext (hdone' ?_)
        rintro ⟨-, r, hr, hc⟩
        exact Option.some_ne_none t' (hi.symm.trans (hnone.2 ⟨r, (hbefore r).2 hr, hc⟩))

theorem buildTrie_cases :
    (∃ t, buildTrie d = .ok t ∧ t.Holds d allBytes ∧ ∀ u, ¬ ConflictsBelow d u) ∨
    (∃ s, buildTrie d = .error s ∧ ConflictsBelow d s ∧ ∀ u, u.toNat < s.toNat → ¬ ConflictsBelow d u) :=
  insertAll_cases hd (Trie.empty_holds d) rfl nofun

end

/-! ## The outcomes of BUILD_TRIE -/

theorem bodyBuildTrie_of_dictBad {s : State} (hb : s.dictBad = true) :
    bodyBuildTrie s = raise .notReady 0x09#32 s := by
  simp [bodyBuildTrie, hb]

theorem bodyBuildTrie_of_error {s : State} (hb : s.dictBad = false) {sym : Byte} (h : buildTrie s.dict = .error sym) :
    bodyBuildTrie s =
      raise .decodeTreeCorrupt (sym.setWidth 32) { s with trie := Trie.empty, trieValid := false } := by
  simp [bodyBuildTrie, hb, h]

theorem bodyBuildTrie_of_ok {s : State} (hb : s.dictBad = false) {t : Trie} (h : buildTrie s.dict = .ok t) :
    bodyBuildTrie s = finish { s with trie := t, trieValid := true } := by
  simp [bodyBuildTrie, hb, h]

/-! ## The statements -/

/-- Settles O50: reconstruction fails exactly at the first symbol in conflict with a smaller one. -/
theorem trieFailsExactlyOnPrefixViolations : Obligations.TrieFailsExactlyOnPrefixViolations := by
  intro d hd
  have herror (s : Byte) : buildTrie d = .error s ↔
      ConflictsBelow d s ∧ ∀ u, u.toNat < s.toNat → ¬ ConflictsBelow d u := by
    rcases buildTrie_cases hd with ⟨t, ht, -, hfree⟩ | ⟨s', hs', hc, hfirst⟩
    · simp [ht, hfree s]
    · rw [hs', Except.error.injEq]
      refine ⟨fun e => e ▸ ⟨hc, hfirst⟩, fun ⟨hcs, hfirsts⟩ => BitVec.eq_of_toNat_eq ?_⟩
      exact Nat.le_antisymm (not_lt.1 fun hlt => hfirst s hlt hcs) (not_lt.1 fun hlt => hfirsts s' hlt hc)
  constructor
  · rw [prefixFree_iff]
    rcases buildTrie_cases hd with ⟨t, ht, -, hfree⟩ | ⟨s, hs, hc, -⟩
    · exact iff_of_true ⟨t, ht⟩ hfree
    · exact iff_of_false (by simp [hs]) fun h => h s hc
  · intro s
    simpa [ConflictsBelow, and_assoc] using herror s

/-- Settles O49: the three outcomes of the body, and over a prefix-free dictionary the trie holds every symbol. -/
theorem buildTrieStoresTheTrie : Obligations.BuildTrieStoresTheTrie := by
  refine fun s => ⟨fun hb => ?_, fun hb hd hfree => ?_, fun hb sym hsym => ?_⟩
  · rw [exec_eq, bodyOf, bodyBuildTrie_of_dictBad hb]
    rfl
  · rcases buildTrie_cases hd with ⟨T, hT, hholds, -⟩ | ⟨sym, -, hc, -⟩
    · refine ⟨T, hT, ?_, fun path r => by simp [hholds.leaf], fun path hne => ?_⟩
      · rw [exec_eq, bodyOf, bodyBuildTrie_of_ok hb hT]
        rfl
      · exact (hholds.internal path hne).trans (by simp)
    · exact absurd hc (prefixFree_iff.1 hfree sym)
  · rw [exec_eq, bodyOf, bodyBuildTrie_of_error hb hsym]
    rfl

end Sys2Proof.Machine
end

section
/-! PROOFS. DECODE (46_trie_decoder.md R230 to R235): the walk along a path and along the symbols the bits spell, the
stream as IN holds it, and an equation of DECODE's body for each of its outcomes. -/

namespace Sys2Proof.Machine

/-! ## Bits and paths -/

/-- From position `j` on, `bit` reads the bits of a list. -/
def Spells (bit : Nat → Bool) : Nat → List Bool → Prop
  | _, [] => True
  | j, b :: bits => bit j = b ∧ Spells bit (j + 1) bits

theorem spells_iff {bit : Nat → Bool} {j : Nat} {bits : List Bool} :
    Spells bit j bits ↔ ∀ i, i < bits.length → bit (j + i) = bits.getD i false := by
  induction bits generalizing j with
  | nil => simp [Spells]
  | cons b bits ih =>
    rw [Spells, ih, List.length_cons, Nat.forall_lt_succ_left]
    simp [Nat.add_assoc, Nat.add_comm 1]

theorem spells_append {bit : Nat → Bool} {j : Nat} {as bs : List Bool} :
    Spells bit j (as ++ bs) ↔ Spells bit j as ∧ Spells bit (j + as.length) bs := by
  induction as generalizing j with
  | nil => simp [Spells]
  | cons a as ih => simp [Spells, ih, and_assoc, Nat.add_assoc, Nat.add_comm 1]

theorem Trie.reach_cons (t : Trie) (b : Bool) (path : List Bool) : t.reach (b :: path) = (t.child b).reach path := by
  cases b <;> rfl

theorem Trie.reach_append (t : Trie) (p q : List Bool) : t.reach (p ++ q) = (t.reach p).reach q :=
  Child.reach_append p q t.root

/-- Above a leaf stands an internal node, the root at least. -/
theorem Trie.exists_concat_of_reach_leaf {t : Trie} {path : List Bool} {r : Byte} (h : t.reach path = .leaf r) :
    ∃ p b c0 c1, path = p ++ [b] ∧ t.reach p = .internal c0 c1 := by
  rcases path.eq_nil_or_concat' with rfl | ⟨p, b, rfl⟩
  · simp [Trie.root] at h
  · rw [Trie.reach_append] at h
    obtain ⟨c0, c1, hc⟩ : (t.reach p).IsInternal :=
      Child.isInternal_of_reach (b := b) (path := []) (by simp [h])
    exact ⟨p, b, c0, c1, rfl, hc⟩

/-! ## The walk (R230, R232) -/

section
variable {root node : Trie} {bit : Nat → Bool} {cap j depth : Nat} {out : List Byte} {path : List Bool}
  {c0 c1 : Child}

/-- Along a path to an internal node the cursor moves there. -/
theorem walk_internal (hbits : Spells bit j path) (h : node.reach path = .internal c0 c1) (n : Nat) :
    walk root bit cap (path.length + n) j node depth out =
      walk root bit cap n (j + path.length) ⟨c0, c1⟩ (depth + path.length) out := by
  induction path generalizing j node depth with
  | nil =>
    obtain ⟨rfl, rfl⟩ : node.child0 = c0 ∧ node.child1 = c1 := by simpa [Trie.root] using h
    simp
  | cons b path ih =>
    obtain ⟨rfl, hbits⟩ := hbits
    rw [Trie.reach_cons] at h
    obtain ⟨d0, d1, hd⟩ : (node.child (bit j)).IsInternal := by
      cases hc : node.child (bit j) with
      | absent => simp [hc] at h
      | leaf r => cases path <;> simp [hc, Child.reach] at h
      | internal d0 d1 => simp
    rw [hd] at h
    rw [List.length_cons, Nat.add_right_comm, walk, hd]
    refine (ih (node := ⟨d0, d1⟩) hbits h).trans ?_
    rw [Nat.add_assoc, Nat.add_assoc, Nat.add_comm 1]

section
variable {b : Bool} (hbits : Spells bit j (path ++ [b])) (h : node.reach path = .internal c0 c1)
include hbits h

/-- The walk along a path comes to its last bit at the node above its end. -/
theorem walk_concat (n : Nat) :
    walk root bit cap ((path ++ [b]).length + n) j node depth out =
      walk root bit cap (n + 1) (j + path.length) ⟨c0, c1⟩ (depth + path.length) out := by
  rw [← walk_internal (spells_append.1 hbits).1 h, List.length_append, List.length_singleton, Nat.add_assoc,
    Nat.add_comm 1]

/-- The last bit selects the end of the path. -/
theorem child_of_concat : Trie.child ⟨c0, c1⟩ (bit (j + path.length)) = node.reach (path ++ [b]) := by
  obtain ⟨-, rfl, -⟩ := spells_append.1 hbits
  rw [Trie.reach_append, h]
  exact (Child.reach_nil _).symm.trans (Trie.reach_cons ⟨c0, c1⟩ _ []).symm

/-- R234: a bit that selects an absent child ends the walk. -/
theorem walk_absent (habs : node.reach (path ++ [b]) = .absent) (n : Nat) :
    walk root bit cap ((path ++ [b]).length + n) j node depth out =
      .error { code := .invalidCode, info := BitVec.ofNat 32 (j + path.length) } := by
  rw [walk_concat hbits h, walk, child_of_concat hbits h, habs]

end

variable {r : Byte} (hbits : Spells bit j path) (h : node.reach path = .leaf r)
include hbits h

/-- A leaf's symbol is emitted and the walk goes on from the root. -/
theorem walk_leaf (hroom : out.length ≠ cap) (n : Nat) :
    walk root bit cap (path.length + n) j node depth out =
      walk root bit cap n (j + path.length) root 0 (out ++ [r]) := by
  obtain ⟨p, b, c0, c1, rfl, hp⟩ := Trie.exists_concat_of_reach_leaf h
  rw [walk_concat hbits hp, walk, child_of_concat hbits hp, h]
  simp [hroom, Nat.add_assoc]

/-- A leaf met with the output full ends the walk. -/
theorem walk_leaf_full (hfull : out.length = cap) (n : Nat) :
    walk root bit cap (path.length + n) j node depth out =
      .error { code := .outputOverflow, info := BitVec.ofNat 32 (j + path.length - 1) } := by
  obtain ⟨p, b, c0, c1, rfl, hp⟩ := Trie.exists_concat_of_reach_leaf h
  rw [walk_concat hbits hp, walk, child_of_concat hbits hp, h]
  simp [hfull, ← Nat.add_assoc]

end

/-- The bits of symbols' paths emit the symbols. -/
theorem walk_symbols {root : Trie} {bit : Nat → Bool} {cap j : Nat} {out : List Byte}
    {syms : List (Byte × List Bool)} (hleaf : ∀ p ∈ syms, root.reach p.2 = .leaf p.1)
    (hbits : Spells bit j (syms.flatMap (·.2))) (hroom : out.length + syms.length ≤ cap) (n : Nat) :
    walk root bit cap ((syms.flatMap (·.2)).length + n) j root 0 out =
      walk root bit cap n (j + (syms.flatMap (·.2)).length) root 0 (out ++ syms.map (·.1)) := by
  induction syms generalizing j out with
  | nil => simp
  | cons p syms ih =>
    rw [List.flatMap_cons, spells_append] at hbits
    rw [List.length_cons] at hroom
    rw [List.forall_mem_cons] at hleaf
    obtain ⟨hp, hsyms⟩ := hbits
    rw [List.flatMap_cons, List.length_append, Nat.add_assoc, walk_leaf hp hleaf.1 (by omega),
      ih hleaf.2 hsyms (by rw [List.length_append, List.length_singleton]; omega)]
    simp [Nat.add_assoc]

/-! ## The checks of a stream and its end (R230, R235) -/

/-- What a walk of `n` bits that starts at the root comes to: a stop below the root is an error too (R235). -/
def walkEnd (n : Nat) : Except ErrorRecord (Nat × List Byte) → Except ErrorRecord (Nat × List Byte)
  | .error e => .error e
  | .ok (depth, out) =>
    if depth ≠ 0 then .error { code := .streamTruncatedMidcode, info := BitVec.ofNat 32 n } else .ok (n, out)

section
variable {t : Trie} {cap : Nat} {bytes : List Byte}

theorem decodeStream_of_noHeader (h : bytes.length < 4) : decodeStream t cap bytes =
    .error { code := .streamTruncatedData, info := BitVec.ofNat 32 bytes.length } := if_pos h

theorem decodeStream_of_truncated (h4 : 4 ≤ bytes.length) (h : bytes.length - 4 < (headerCount bytes + 7) / 8) :
    decodeStream t cap bytes = .error { code := .streamTruncatedData, info := BitVec.ofNat 32 bytes.length } :=
  (if_neg (Nat.not_lt.2 h4)).trans (if_pos h)

/-- A stream that holds all its packed bytes is walked. -/
theorem decodeStream_of_whole {n : Nat} (hn : headerCount bytes = n) (hwhole : 4 + (n + 7) / 8 ≤ bytes.length) :
    decodeStream t cap bytes = walkEnd n (walk t (streamBit bytes) cap n 0 t 0 []) := by
  have hheader : ¬ bytes.length < 4 := by omega
  have hpacked : ¬ bytes.length - 4 < (n + 7) / 8 := by omega
  rw [decodeStream, hn]
  refine (if_neg hheader).trans ((if_neg hpacked).trans ?_)
  cases walk t (streamBit bytes) cap n 0 t 0 [] <;> rfl

end

/-! ## The stream as IN holds it (R231, R232) -/

theorem getD_inputBytes {s : State} {k : Nat} (h : k < s.inLen.toNat) :
    (inputBytes s).getD k 0#8 = s.inBuf.read k := by
  simp [inputBytes, Buffer.bytes, h]

theorem headerCount_inputBytes {s : State} (h : 4 ≤ s.inLen.toNat) : headerCount (inputBytes s) =
    (s.inBuf.read 0).toNat * 2 ^ 24 + (s.inBuf.read 1).toNat * 2 ^ 16 + (s.inBuf.read 2).toNat * 2 ^ 8
      + (s.inBuf.read 3).toNat := by
  unfold headerCount
  iterate 4 rw [getD_inputBytes (by omega)]

theorem spells_inputBytes {s : State} {bits : List Bool} (hfit : 4 + (bits.length + 7) / 8 ≤ s.inLen.toNat)
    (hbits : ∀ j, j < bits.length → (s.inBuf.read (4 + j / 8)).getLsbD (7 - j % 8) = bits.getD j false) :
    Spells (streamBit (inputBytes s)) 0 bits := by
  refine spells_iff.2 fun j hj => ?_
  rw [Nat.zero_add, ← hbits j hj, streamBit, Config.hdrBytes, getD_inputBytes (by omega)]

/-! ## The outcomes of DECODE -/

theorem bodyDecode_of_tooLong {s : State} (h : s.inCap < s.inLen.toNat) :
    bodyDecode s = failOutput .badLength s.inLen s := by
  simp [bodyDecode, checkInLen_some h]

section
variable {s : State} (hlen : s.inLen.toNat ≤ s.inCap)
include hlen

theorem bodyDecode_of_noTrie (hv : s.trieValid = false) : bodyDecode s = failOutput .notReady 0x0A#32 s := by
  simp [bodyDecode, checkInLen_none hlen, hv]

variable (hv : s.trieValid = true)
include hv

theorem bodyDecode_of_error {e : ErrorRecord} (h : decodeStream s.trie s.outCap (inputBytes s) = .error e) :
    bodyDecode s = failOutput e.code e.info s := by
  simp [bodyDecode, checkInLen_none hlen, hv, h]

theorem bodyDecode_of_ok {n : Nat} {out : List Byte}
    (h : decodeStream s.trie s.outCap (inputBytes s) = .ok (n, out)) :
    bodyDecode s = finish (storeDecoded n out s) := by
  simp [bodyDecode, checkInLen_none hlen, hv, h]

end

/-! ## The statements -/

/-- A failed DECODE, completed (R102, R230, R271). -/
theorem exec_decode_of_failOutput {s : State} {c : ErrCode} {i : Word} (h : bodyDecode s = failOutput c i s) :
    exec .decode s = .next { s with
      outBuf := Buffer.any s.draws, draws := s.draws + 1, outLen := 0#32, bitCount := 0#32, outValid := false
      phase := .idle, done := true, error := true, errCode := c, errInfo := i } := by
  rw [exec_eq, bodyOf, h]
  rfl

/-- Settles O52: the walk emits the symbols and ends at the root, and OUT is read by its laws. -/
theorem decodeEmitsTheSymbolsOfThePaths : Obligations.DecodeEmitsTheSymbolsOfThePaths := by
  intro s syms hlen hv hleaf bits hwhole hcount hbits hroom
  have hstream : decodeStream s.trie s.outCap (inputBytes s) = .ok (bits.length, syms.map (·.1)) :=
    (decodeStream_of_whole ((headerCount_inputBytes (by omega)).trans hcount) (by simpa using hwhole)).trans
      (congrArg (walkEnd bits.length)
        (walk_symbols hleaf (spells_inputBytes hwhole hbits) (out := []) (by simpa using hroom) 0))
  refine ⟨s.outBuf.writeList 0 (syms.map (·.1)), ?_, fun k hk => ?_, fun k hk => ?_⟩
  · rw [exec_eq, bodyOf, bodyDecode_of_ok hlen hv hstream, ← List.length_map (as := syms) (f := (·.1))]
    rfl
  · rw [read_writeList_zero (by simpa using hk)]
    exact List.getD_map (d := (0#8, [])) ..
  · rw [read_writeList, if_neg (by rw [List.length_map]; omega)]

/-- Settles O53: each clause is one failing outcome of the body. -/
theorem decodeErrorsBeforeTheWalk : Obligations.DecodeErrorsBeforeTheWalk := by
  intro s failsWith count
  have hfail {c i} (h : bodyDecode s = failOutput c i s) : failsWith c i := ⟨_, _, exec_decode_of_failOutput h⟩
  refine ⟨fun h => hfail (bodyDecode_of_tooLong h), fun hlen hv => hfail (bodyDecode_of_noTrie hlen hv),
    fun hlen hv h => ?_, fun hlen hv h4 h => ?_⟩
  · have hshort : (inputBytes s).length < 4 := by simpa using h
    simpa using hfail (bodyDecode_of_error hlen hv (decodeStream_of_noHeader hshort))
  · have hheader : 4 ≤ (inputBytes s).length := by simpa using h4
    have hshort : (inputBytes s).length - 4 < (headerCount (inputBytes s) + 7) / 8 := by
      rwa [headerCount_inputBytes h4, length_inputBytes]
    simpa using hfail (bodyDecode_of_error hlen hv (decodeStream_of_truncated hheader hshort))

/-- Settles O54: past the symbols the walk is at the root, and `tail` leads it to its error. -/
theorem decodeErrorsOfTheWalk : Obligations.DecodeErrorsOfTheWalk := by
  intro s syms tail n hlen hv hleaf hroom bits failsWith hcount hwhole hfit hbits hne
  obtain ⟨m, rfl⟩ := Nat.exists_eq_add_of_le hfit
  have hn : headerCount (inputBytes s) = bits.length + m := (headerCount_inputBytes (by omega)).trans hcount
  have hbytes : 4 + (bits.length + m + 7) / 8 ≤ (inputBytes s).length := by simpa using hwhole
  obtain ⟨hsyms, htail⟩ := spells_append.1 (spells_inputBytes (bits := bits) (by omega) hbits)
  have hwalk := walk_symbols hleaf hsyms (out := []) (cap := s.outCap) (by simpa using hroom) (tail.length + m)
  rw [← Nat.add_assoc, ← List.length_append] at hwalk
  have hfail {r c i} (hr : walk s.trie (streamBit (inputBytes s)) s.outCap (tail.length + m)
      (0 + (syms.flatMap fun p => p.2).length) s.trie 0 ([] ++ syms.map fun p => p.1) = r)
      (hend : walkEnd (bits.length + m) r = .error { code := c, info := i }) : failsWith c i :=
    ⟨_, _, exec_decode_of_failOutput (bodyDecode_of_error hlen hv
      ((decodeStream_of_whole hn hbytes).trans ((congrArg _ (hwalk.trans hr)).trans hend)))⟩
  refine ⟨fun c0 c1 hint habs => ?_, fun sym hsym hfull => ?_, fun c0 c1 hint hend => ?_⟩
  · obtain ⟨p, b, rfl⟩ := tail.eq_nil_or_concat'.resolve_left hne
    rw [List.dropLast_concat] at hint
    simpa [bits, ← Nat.add_assoc] using hfail (walk_absent htail hint habs m) rfl
  · simpa [bits] using hfail (walk_leaf_full htail hsym (by simpa using hfull) m) rfl
  · obtain rfl : m = 0 := by omega
    exact hfail (walk_internal htail hint 0) (if_pos (by simpa using hne))

end Sys2Proof.Machine
end

section
/-! PROOFS. The pipeline (47_pipeline.md R250 to R261): BUILD_DICT as three commands, the states of the round trip, and
DECODE on a copy of ENCODE's stream. -/

namespace Sys2Proof.Machine

/-! ## BUILD_DICT (R250) -/

/-- Settles O41: each command's state is the next one's start, and BUILD_DICT ends where ASSIGN_CODES does. -/
theorem buildDictIsTheThreeCommands : Obligations.BuildDictIsTheThreeCommands := by
  intro s hlen hmax
  have hcount : bodyOf .freqCount s = finish (countInput s) := by simp [bodyOf, bodyFreqCount, checkInLen_none hlen]
  have hcodes {t : State} (h : t.lenValid = true) : bodyOf .assignCodes t = finish (storeCanonical t) := by
    simp [bodyOf, bodyAssignCodes, h]
  refine ⟨complete (finish (countInput s)), _, _, ?_, exec_buildTree_of_le hmax, ?_, exec_buildDict_of_le hlen hmax,
    rfl, rfl⟩
  · rw [exec_eq, hcount]
  · rw [exec_eq, hcodes rfl]
    rfl

/-! ## A truncated stream (R261) -/

/-- What the host copies from the front of OUT after ENCODE is the stream's front. -/
theorem inputBytes_of_copied_front {u : State} {b : Buffer} {stream : List Byte} (hfit : u.inLen.toNat ≤ stream.length)
    (hcopy : ∀ k, k < u.inLen.toNat → u.inBuf.read k = (b.writeList 0 stream).read k) :
    inputBytes u = stream.take u.inLen.toNat := by
  refine List.ext_getElem (by simpa using hfit) fun k hk _ => ?_
  have hlt : k < u.inLen.toNat := by simpa using hk
  rw [List.getElem_take, List.getElem_eq_getD 0#8, List.getElem_eq_getD 0#8, getD_inputBytes hlt, hcopy k hlt,
    read_writeList_zero (hlt.trans_le hfit)]

/-- ENCODE without an error has stored a stream whose count fits its header (R205). -/
theorem exec_encode_of_noError {s t : State} (h : exec .encode s = .next t) (ht : t.error = false) :
    ∃ bits : List Bool, bits.length ≤ 2 ^ 32 - 1 ∧ t = complete (finish (storeStream bits s)) := by
  rcases bodyEncode_cases s with ⟨c, i, hfail, -⟩ | ⟨-, -, -, hn, -, hok⟩
  · rw [exec_encode_of_failOutput hfail] at h
    cases h
    cases ht
  · rw [exec_eq, bodyOf, hok] at h
    cases h
    exact ⟨_, hn, rfl⟩

/-- The header outlives any cut behind it (R201). -/
theorem headerCount_take_streamOf {bits : List Bool} (h : bits.length < 2 ^ 32) {m : Nat} (hm : 4 ≤ m) :
    headerCount ((streamOf bits).take m) = bits.length := by
  obtain ⟨m, rfl⟩ := Nat.exists_eq_add_of_le hm
  have hhead : (headerBytes (BitVec.ofNat 32 bits.length)).length = 4 := rfl
  rw [streamOf, ← hhead, List.take_length_add_append, headerCount_headerBytes_append, BitVec.toNat_ofNat,
    Nat.mod_eq_of_lt h]

/-- Settles O55: the header still gives the count, and the packed bytes are one short of it. -/
theorem truncatedStreamsAreDetected : Obligations.TruncatedStreamsAreDetected := by
  intro s t u _ hexec ht hcount hv hcut hcap hcopy
  obtain ⟨bits, hn, rfl⟩ := exec_encode_of_noError hexec ht
  have hpos : 0 < bits.length := Nat.pos_of_ne_zero fun h0 => hcount (by simp [h0])
  have hlen : u.inLen.toNat + 1 = 4 + packedLength bits.length := by
    simp only [hcut, complete_finish_outLen, storeStream_outLen, Config.hdrBytes, packedLength, BitVec.toNat_sub,
      BitVec.toNat_ofNat]
    omega
  have hpacked : 1 ≤ packedLength bits.length := by unfold packedLength; omega
  have hbytes : inputBytes u = (streamOf bits).take u.inLen.toNat :=
    inputBytes_of_copied_front (by rw [length_streamOf]; omega) hcopy
  have hheader : headerCount (inputBytes u) = bits.length := by
    rw [hbytes, headerCount_take_streamOf (by omega) (by omega)]
  have hshort : (inputBytes u).length - 4 < (headerCount (inputBytes u) + 7) / 8 := by
    rw [hheader, length_inputBytes, ← packedLength]
    omega
  have herror := decodeStream_of_truncated (t := u.trie) (cap := u.outCap) (by rw [length_inputBytes]; omega) hshort
  exact ⟨_, exec_decode_of_failOutput (bodyDecode_of_error hcap hv herror), rfl, rfl, by simp, rfl, rfl⟩

/-! ## The states of the round trip (R255) -/

/-- The code of the input's counted weights (R250). -/
def inputCode (s : State) : Table Entry := canonical (lengthTable (huffmanLengths (countInput s).freq))

/-- The input's codewords one after another, in that code (R255). -/
def inputBits (s : State) : List Bool := encodeBits (inputCode s) (inputBytes s)

/-- The state after BUILD_DICT. -/
def builtState (s : State) : State :=
  complete (finish (storeCanonical
    { countInput s with len := lengthTable (huffmanLengths (countInput s).freq), lenValid := true }))

/-- The state after BUILD_DICT and ENCODE. -/
def encodedState (s : State) : State := complete (finish (storeStream (inputBits s) (builtState s)))

/-- The state after BUILD_DICT, ENCODE and a BUILD_TRIE that stores `t`. -/
def trieState (s : State) (t : Trie) : State :=
  complete (finish { encodedState s with trie := t, trieValid := true })

@[simp] theorem builtState_dict (s : State) : (builtState s).dict = inputCode s := rfl

@[simp] theorem builtState_nsym (s : State) : (builtState s).nsym = BitVec.ofNat 9 (numPresent (inputCode s)) := rfl

@[simp] theorem encodedState_bitCount (s : State) :
    (encodedState s).bitCount = BitVec.ofNat 32 (inputBits s).length := rfl

/-- Every input byte has a codeword, since it is counted. -/
theorem inputCode_valid {s : State} (hmax : maxLength (huffmanLengths (countInput s).freq) ≤ 32) {b : Byte}
    (hb : b ∈ inputBytes s) : (tableGet (inputCode s) b).valid = true := by
  have hcount : tableGet (countInput s).freq b ≠ 0#32 := by
    rw [BitVec.toNat_ne, countInput_freq_toNat]
    exact (List.count_pos_iff.2 hb).ne'
  rw [inputCode, canonical_valid_iff, BitVec.toNat_ne, lengthTable_toNat hmax]
  exact huffmanLengths_eq_zero_iff.not.2 hcount

theorem encodedState_outLen {s : State} (hn : (inputBits s).length < 2 ^ 32) :
    (encodedState s).outLen.toNat = 4 + packedLength (inputBits s).length := by
  simp only [encodedState, complete_finish_outLen, storeStream_outLen, BitVec.toNat_ofNat, Config.hdrBytes,
    packedLength]
  omega

theorem outputBytes_encodedState {s : State} (hn : (inputBits s).length < 2 ^ 32) :
    outputBytes (encodedState s) = streamOf (inputBits s) := by
  rw [outputBytes, encodedState_outLen hn, ← length_streamOf]
  exact bytes_writeList _ _

/-- What the host copies of OUT is its output. -/
theorem inputBytes_of_copied_output {u b : State} (hlen : u.inLen = b.outLen)
    (hcopy : ∀ k, k < b.outLen.toNat → u.inBuf.read k = b.outBuf.read k) : inputBytes u = outputBytes b := by
  rw [inputBytes, hlen]
  exact List.map_congr_left fun k hk => hcopy k (List.mem_range.1 hk)

/-! ## BUILD_TRIE and DECODE of the stream -/

/-- BUILD_TRIE over a code of BUILD_DICT succeeds, with each codeword's leaf at its end (R225). -/
theorem exec_buildTrie_of_code {s : State} (hb : s.dictBad = false) (hcode : IsHuffmanCode s.dict) :
    ∃ t, buildTrie s.dict = .ok t ∧
      exec .buildTrie s = .next (complete (finish { s with trie := t, trieValid := true })) ∧
      ∀ b, (tableGet s.dict b).valid = true → t.reach (tableGet s.dict b).bits = .leaf b := by
  obtain ⟨f, hmax, hf⟩ := hcode
  obtain ⟨hlegal, hfree⟩ := canonicalDictionariesArePrefixFree f hmax
  rw [← hf] at hlegal hfree
  obtain ⟨-, hok, -⟩ := buildTrieStoresTheTrie s
  obtain ⟨t, ht, hexec, hleaf, -⟩ := hok hb hlegal hfree
  exact ⟨t, ht, hexec, fun b hv => (hleaf _ b).2 ⟨hv, rfl⟩⟩

/-- The walk over a stream of codewords finds each at its leaf (R255). -/
theorem decodeStream_streamOf {t : Trie} {cap : Nat} {d : Table Entry} {bytes : List Byte}
    (hleaf : ∀ b ∈ bytes, t.reach (tableGet d b).bits = .leaf b) (hn : (encodeBits d bytes).length < 2 ^ 32)
    (hroom : bytes.length ≤ cap) :
    decodeStream t cap (streamOf (encodeBits d bytes)) = .ok ((encodeBits d bytes).length, bytes) := by
  have hsyms : (bytes.map fun b => (b, (tableGet d b).bits)).flatMap (·.2) = encodeBits d bytes := by
    rw [List.flatMap_map, encodeBits]
  have hspells : Spells (streamBit (streamOf (encodeBits d bytes))) 0 (encodeBits d bytes) := by
    refine spells_iff.2 fun j hj => ?_
    rw [Nat.zero_add, streamBit_streamOf (by unfold packedLength; omega)]
  have hwalk := walk_symbols (root := t) (cap := cap) (out := []) (syms := bytes.map fun b => (b, (tableGet d b).bits))
    (by simpa using hleaf) (by rwa [hsyms]) (by simpa using hroom) 0
  rw [hsyms] at hwalk
  rw [decodeStream_of_whole (headerCount_streamOf hn) (length_streamOf _).ge]
  refine (congrArg (walkEnd _) hwalk).trans ?_
  simp [walk, walkEnd, Function.comp_def]

/-- DECODE of a stream of codewords gives their bytes (R230, R255). -/
theorem exec_decode_of_stream {u : State} {d : Table Entry} {bytes : List Byte} (hlen : u.inLen.toNat ≤ u.inCap)
    (hv : u.trieValid = true) (hin : inputBytes u = streamOf (encodeBits d bytes))
    (hleaf : ∀ b ∈ bytes, u.trie.reach (tableGet d b).bits = .leaf b) (hn : (encodeBits d bytes).length < 2 ^ 32)
    (hroom : bytes.length ≤ u.outCap) (hword : bytes.length < 2 ^ 32) :
    ∃ e, exec .decode u = .next e ∧ e.error = u.error ∧ e.outValid = true ∧ outputBytes e = bytes := by
  have hok := bodyDecode_of_ok hlen hv (hin.symm ▸ decodeStream_streamOf hleaf hn hroom)
  refine ⟨complete (finish (storeDecoded (encodeBits d bytes).length bytes u)), ?_, rfl, rfl, ?_⟩
  · rw [exec_eq, bodyOf, hok]
  · rw [outputBytes, complete_finish_outBuf, complete_finish_outLen, storeDecoded_outBuf, storeDecoded_outLen,
      BitVec.toNat_ofNat, Nat.mod_eq_of_lt hword, bytes_writeList]

/-! ## The round trip (R255) -/

section
variable {s : State} (hmax : maxLength (huffmanLengths (countInput s).freq) ≤ 32) (hn : (inputBits s).length < 2 ^ 32)
include hmax hn

/-- ENCODE after BUILD_DICT succeeds when the stream fits OUT. -/
theorem exec_encode_builtState (hlen : s.inLen.toNat ≤ s.inCap)
    (hcap : 4 + packedLength (inputBits s).length ≤ s.outCap) : exec .encode (builtState s) = .next (encodedState s) := by
  have hvalid : firstMissing (builtState s).dict 0 (inputBytes (builtState s)) = none :=
    firstMissing_inputBytes_eq_none fun k hk => inputCode_valid hmax (List.mem_map_of_mem (List.mem_range.2 hk))
  rw [exec_eq, bodyOf, bodyEncode_of_fits (s := builtState s) hlen rfl hvalid hn hcap]
  rfl

/-- R255: BUILD_TRIE after the two, and DECODE on any block that holds the trie and the stream. -/
theorem roundTrip : ∃ t, buildTrie (inputCode s) = .ok t ∧
    exec .buildTrie (encodedState s) = .next (trieState s t) ∧
    ∀ u : State, u.trieValid = true → u.trie = t → inputBytes u = outputBytes (encodedState s) →
      u.inLen.toNat ≤ u.inCap → s.inLen.toNat ≤ u.outCap →
      ∃ e, exec .decode u = .next e ∧ e.error = u.error ∧ e.outValid = true ∧ outputBytes e = inputBytes s := by
  obtain ⟨t, ht, hexec, hleaf⟩ := exec_buildTrie_of_code (s := encodedState s) rfl ⟨_, hmax, rfl⟩
  refine ⟨t, ht, hexec, fun u hv hu hin hucap hroom => ?_⟩
  rw [outputBytes_encodedState hn] at hin
  refine exec_decode_of_stream hucap hv hin (fun b hb => ?_) hn ?_ ?_
  · rw [hu]
    exact hleaf b (inputCode_valid hmax hb)
  · rwa [length_inputBytes]
  · rw [length_inputBytes]
    exact s.inLen.isLt

end

/-- Settles O56: a stream that fits a legal IN_CAP has a count that fits its header. -/
theorem roundTripGivesBackTheInput : Obligations.RoundTripGivesBackTheInput := by
  intro s hcapacity hlen hmax D total hout hin hroom
  have htotal : 4 + packedLength (inputBits s).length = total := rfl
  obtain ⟨-, hle⟩ := capacity_iff.1 hcapacity
  have hn : (inputBits s).length < 2 ^ 32 := by
    unfold packedLength at htotal
    omega
  obtain ⟨t, -, htrie, hdecode⟩ := roundTrip hmax hn
  refine ⟨builtState s, encodedState s, trieState s t, exec_buildDict_of_le hlen hmax,
    exec_encode_builtState hmax hn hlen (htotal.trans_le hout), htrie, rfl, rfl, encodedState_outLen hn,
    fun u huin huout hv hu hulen hcopy =>
      hdecode u hv hu (inputBytes_of_copied_output hulen hcopy) ?_ (huout ▸ hroom)⟩
  rw [hulen, encodedState_outLen hn, huin, htotal]
  exact hin

/-! ## The singleton alphabet (R257) -/

/-- Only the one byte of the input is counted. -/
theorem presentSymbols_of_copies {s : State} {b : Byte} (hpos : 1 ≤ s.inLen.toNat)
    (hin : inputBytes s = List.replicate s.inLen.toNat b) : presentSymbols (countInput s).freq = [b] := by
  refine List.perm_singleton.1 ((List.perm_ext_iff_of_nodup (presentSymbols_nodup _) (List.nodup_singleton b)).2
    fun sym => ?_)
  rw [mem_presentSymbols, BitVec.toNat_ne, countInput_freq_toNat, hin, freqCount, List.count_replicate,
    List.mem_singleton]
  by_cases h : b = sym
  · simpa [h] using Nat.ne_of_gt hpos
  · simp [h, Ne.symm h]

/-- R257: the sole codeword is one bit, a zero. -/
theorem inputCode_of_one {s : State} {b : Byte} (h : presentSymbols (countInput s).freq = [b]) (sym : Byte) :
    tableGet (inputCode s) sym = if sym = b then { valid := true, len := 1#6, val := 0#32 } else Entry.absent := by
  obtain ⟨-, hone, -⟩ := smallAlphabetsGetFixedLengths (countInput s).freq
  have hsorted : sortedLengths (lengthTable (huffmanLengths (countInput s).freq)) = [(b, 1)] := by
    refine List.perm_singleton.1 ((List.perm_ext_iff_of_nodup (sortedLengths_nodup _) (List.nodup_singleton _)).2
      fun p => ?_)
    rw [mem_sortedLengths, lengthTable, tableGet_of, hone b h, List.mem_singleton, Prod.ext_iff]
    by_cases hp : p.1 = b
    · have hne : p.2 = 1 → p.2 ≠ 0 := by omega
      simpa [hp] using hne
    · simp [hp]
  rw [inputCode, canonical, hsorted, tableGet_ofPairs]
  by_cases hs : sym = b
  · simp [canonicalCodes, codesAfter, presentEntry, hs]
  · simp [canonicalCodes, codesAfter, List.lookup, hs, beq_eq_false_iff_ne.2 hs]

/-- R257: the singleton's codewords are as many zero bits as the input has bytes. -/
theorem inputBits_of_copies {s : State} {b : Byte} (hpos : 1 ≤ s.inLen.toNat)
    (hin : inputBytes s = List.replicate s.inLen.toNat b) : inputBits s = List.replicate s.inLen.toNat false := by
  have hbits : (tableGet (inputCode s) b).bits = [false] := by
    rw [inputCode_of_one (presentSymbols_of_copies hpos hin), if_pos rfl]
    rfl
  rw [inputBits, encodeBits, hin, List.flatMap_replicate, hbits, List.flatten_replicate_singleton]

/-- Zero bits pack into zero bytes (R202, R203). -/
theorem streamOf_replicate_false {n k : Nat} (h4 : 4 ≤ k) (hk : k < 4 + packedLength n) :
    (streamOf (List.replicate n false)).getD k 0#8 = 0x00#8 := by
  obtain ⟨i, rfl⟩ := Nat.exists_eq_add_of_le h4
  rw [← Config.hdrBytes, streamOf_getD_packed (by rw [List.length_replicate]; omega)]
  simp [packByte]

/-- Settles O57: the sole codeword is a zero bit, so the stream's bits are all zero; the rest is the round trip. -/
theorem singletonAlphabetRoundTrips : Obligations.SingletonAlphabetRoundTrips := by
  intro s b hpos hlen hcopies hout
  have hin : inputBytes s = List.replicate s.inLen.toNat b :=
    List.eq_replicate_iff.2 ⟨length_inputBytes s, by simpa [inputBytes, Buffer.bytes] using hcopies⟩
  have hone := presentSymbols_of_copies hpos hin
  have hmax : maxLength (huffmanLengths (countInput s).freq) ≤ 32 := by
    obtain ⟨-, hlengths, -⟩ := smallAlphabetsGetFixedLengths (countInput s).freq
    refine maxLength_le_iff.2 fun sym => ?_
    rw [hlengths b hone]
    split <;> omega
  have hbits := inputBits_of_copies hpos hin
  have hcount : (inputBits s).length = s.inLen.toNat := by rw [hbits, List.length_replicate]
  have hn : (inputBits s).length < 2 ^ 32 := hcount.trans_lt s.inLen.isLt
  have houtLen := encodedState_outLen hn
  obtain ⟨t, -, htrie, hdecode⟩ := roundTrip hmax hn
  refine ⟨builtState s, encodedState s, exec_buildDict_of_le hlen hmax,
    exec_encode_builtState hmax hn hlen (hcount ▸ hout), inputCode_of_one hone, ?_, hcount ▸ houtLen,
    fun k h4 hk => ?_, trieState s t, htrie, fun u hv hu hulen hucap hroom hcopy =>
      hdecode u hv hu (inputBytes_of_copied_output hulen hcopy) hucap hroom⟩
  · rw [encodedState_bitCount, hcount, BitVec.ofNat_toNat, BitVec.setWidth_eq]
  · rw [houtLen] at hk
    rw [encodedState, complete_finish_outBuf, storeStream_outBuf, read_writeList_zero (by rwa [length_streamOf]), hbits]
    exact streamOf_replicate_false h4 (hcount ▸ hk)

/-! ## The empty input (R258) -/

/-- R258: no symbol is counted, so there is no codeword. -/
theorem inputCode_of_empty {s : State} (h : inputBytes s = []) : inputCode s = tableFill Entry.absent := by
  have hfreq : (countInput s).freq = tableFill 0#32 := table_ext fun sym => by simp [countInput, freqCount, h]
  rw [inputCode, hfreq, lengthTable_zero, canonical_zero]

/-- The trie of no codeword is the root (R221). -/
theorem buildTrie_fill_absent : buildTrie (tableFill Entry.absent) = .ok Trie.empty := by
  rw [buildTrie, insertAll_filter, List.filter_eq_nil_iff.2 (by simp [Entry.absent])]
  rfl

theorem serialiseDictionary_fill_absent : serialiseDictionary (tableFill Entry.absent) = [] := by
  rw [serialiseDictionary, serialOrder, List.filter_eq_nil_iff.2 (by simp [Entry.absent])]
  rfl

/-- Settles O58: the code is empty, so the stream has no bits and the trie no node below the root; DECODE is the round
trip's. -/
theorem emptyInputGivesEmptyOutput : Obligations.EmptyInputGivesEmptyOutput := by
  intro s hzero hout
  have hin : inputBytes s = [] := by simp [inputBytes, Buffer.bytes, hzero]
  have hcode := inputCode_of_empty hin
  have hbits : inputBits s = [] := by rw [inputBits, hin]; rfl
  have hn : (inputBits s).length < 2 ^ 32 := by simp [hbits]
  have hlen : s.inLen.toNat ≤ s.inCap := by simp [hzero]
  have hmax : maxLength (huffmanLengths (countInput s).freq) ≤ 32 :=
    (countInput_shallow (by simp [hzero])).trans (by omega)
  obtain ⟨t, ht, htrie, hdecode⟩ := roundTrip hmax hn
  obtain rfl : Trie.empty = t := by simpa [hcode, buildTrie_fill_absent] using ht
  refine ⟨builtState s, encodedState s, trieState s Trie.empty, exec_buildDict_of_le hlen hmax,
    exec_encode_builtState hmax hn hlen (by simpa [hbits, packedLength] using hout), htrie, ?_, ?_, ?_, ?_, ?_, ?_,
    rfl, rfl, rfl, fun u hulen hucap hcopy hv hu => ?_⟩
  · rw [builtState_nsym, hcode, numPresent_fill_absent]
  · exact fun sym => by rw [builtState_dict, hcode, tableGet_fill]
  · rw [builtState_dict, hcode, serialiseDictionary_fill_absent]
  · rw [outputBytes_encodedState hn, hbits]
    rfl
  · exact BitVec.eq_of_toNat_eq (by rw [encodedState_outLen hn, hbits]; rfl)
  · rw [encodedState_bitCount, hbits]
    rfl
  · obtain ⟨e, hexec, herror, hvalid, hbytes⟩ :=
      hdecode u hv hu hcopy (by rw [hulen]; exact hucap) (by simp [hzero])
    have hlength : e.outLen.toNat = (outputBytes e).length := by simp [outputBytes]
    exact ⟨e, hexec, BitVec.eq_of_toNat_eq (by rw [hlength, hbytes, hin]; rfl), hvalid, herror⟩

end Sys2Proof.Machine
end

section
/-! PROOFS. The interrupt output (60_exceptions.md R285) and the reset input (70_reset_and_hazards.md R300). -/

namespace Sys2Proof.Machine

/-! ## The interrupt level -/

/-- With DONE and ERROR clear the level is 0, whatever is enabled. -/
theorem irq_of_clear {s : State} (hdone : s.done = false) (herror : s.error = false) : irq s = false := by
  simp [irq, hdone, herror]

/-- Settles O21: the level is read off STATUS bits 1 and 2; the busy window, an issue and the W1C write clear both. -/
theorem interruptFollowsStatusAndEnables : Obligations.InterruptFollowsStatusAndEnables := by
  intro s
  have hwrite : busWrite s 0x00000C#24 0x00000006#32 = writeStatus 0x00000006#32 s :=
    busWrite_reg_of_not_dropped (r := .status) rfl rfl _
  refine ⟨?_, fun hinv hb => ?_, fun w => irq_of_clear (issue_done w s) (issue_error w s), ?_⟩
  · rw [statusWord_getLsbD, statusWord_getLsbD]
    rfl
  · obtain ⟨hdone, herror, -⟩ := hinv.busyClear hb
    exact irq_of_clear hdone herror
  · rw [hwrite]
    exact irq_of_clear (by simp) (by simp)

/-! ## The reset step -/

/-- A reset forgets the count of the busy window it cuts short. -/
theorem hardwareReset_countAccess (s : State) : hardwareReset (countAccess s) = hardwareReset s := by
  obtain ⟨d, hd⟩ := countAccess_eq s
  rw [hd]
  rfl

/-- Settles O23: the host's turn runs the reset, which reads nothing of the block but its parameters. -/
theorem hardwareResetRestoresResetValues : Obligations.HardwareResetRestoresResetValues := by
  intro s rest hm hp
  have hstep : step s = .next (popStmt (hardwareReset s)) := by
    rw [step_of_host hm hp, ← hardwareReset_countAccess]
    rfl
  have htail : s.program.tail = rest := congrArg List.tail hp
  rw [hstep, ← htail]
  exact ⟨_, _, _, _, rfl⟩

end Sys2Proof.Machine
end

section
/-! PROOFS. Every `wait` ends (70_reset_and_hazards.md R312): a poll in the busy window counts the window down, the
engine then completes the command, and a poll while idle is the last. -/

namespace Sys2Proof.Machine

/-! ## One poll of STATUS -/

/-- BUSY is not free in the busy window (R61): a poll sees it as it is. -/
theorem hostRead_status_busy (s : State) : (hostRead (Reg.offset .status) s).1.getLsbD 0 = s.busy :=
  (busRead_getLsbD (by decide)).trans (statusWord_getLsbD s 0)

theorem hostWait_of_idle {s : State} (hi : s.phase = .idle) :
    hostWait s = popStmt (hostRead (Reg.offset .status) s).2 :=
  if_neg (by rw [hostRead_status_busy, State.busy, hi]; decide)

theorem hostWait_of_busy {s : State} (hb : s.phase = .busy) : hostWait s = (hostRead (Reg.offset .status) s).2 :=
  if_pos (by rw [hostRead_status_busy, State.busy, hb]; rfl)

theorem hostRead_phase (off : Offset) (s : State) : (hostRead off s).2.phase = s.phase := by
  obtain ⟨d, tr, he⟩ := hostRead_state off s
  rw [he]

theorem hostRead_delay (off : Offset) (s : State) : (hostRead off s).2.delay = s.delay := by
  obtain ⟨d, tr, he⟩ := hostRead_state off s
  rw [he]

theorem countAccess_phase (s : State) : (countAccess s).phase = s.phase := by
  obtain ⟨d, hd⟩ := countAccess_eq s
  rw [hd]

theorem countAccess_delay_of_busy {s : State} (hb : s.phase = .busy) : (countAccess s).delay = s.delay - 1 := by
  rw [countAccess_of_busy hb]

/-! ## The steps of a wait -/

section
variable {s : State} {rest : List HostStmt} (hp : s.program = .wait :: rest)
include hp

/-- While idle the wait ends with its next poll. -/
theorem step_wait_of_idle (hi : s.phase = .idle) : ∃ t, step s = .next t ∧ t.program = rest ∧ t.phase = .idle := by
  have hm : engineMoves s = false := by simp [engineMoves, hi]
  have hstep : step s = .next (hostWait s) := by
    rw [step_of_host hm hp, countAccess_of_idle hi]
    rfl
  refine ⟨_, hstep, ?_, ?_⟩ <;> rw [hostWait_of_idle hi]
  · rw [popStmt_program, hostRead_program, hp, List.tail_cons]
  · rw [popStmt_phase, hostRead_phase, hi]

/-- A poll in the busy window takes one off its length and leaves the wait where it is. -/
theorem step_wait_of_busy {n : Nat} (hb : s.phase = .busy) (hd : s.delay = n + 1) :
    ∃ u, step s = .next u ∧ u.program = .wait :: rest ∧ u.phase = .busy ∧ u.delay = n := by
  have hm : engineMoves s = false := by simp [engineMoves, hd, hp]
  refine ⟨_, step_of_host hm hp, ?_, ?_, ?_⟩ <;> rw [hostWait_of_busy ((countAccess_phase s).trans hb)]
  · rw [hostRead_program, countAccess_program, hp]
  · rw [hostRead_phase, countAccess_phase, hb]
  · rw [hostRead_delay, countAccess_delay_of_busy hb, hd, Nat.add_sub_cancel]

end

/-- The engine's turn leaves the block idle and the host's program as it is. -/
theorem step_idle_of_engineMoves {s : State} (hm : engineMoves s = true) :
    ∃ u, step s = .next u ∧ u.program = s.program ∧ u.phase = .idle := by
  obtain ⟨u, hstep, hidle, -⟩ := everyCommandCompletes s hm
  have hu : u = complete (latchedBody s) := by
    rw [step_of_engineMoves hm, engineStep_eq] at hstep
    exact (Host.Outcome.next.inj hstep).symm
  exact ⟨u, hstep, by rw [hu, complete_program, latchedBody_program], hidle⟩

/-! ## The wait -/

/-- A wait begun in a busy window of `n` accesses: `n` polls, the completion, and the poll that sees it. -/
theorem runs_wait_of_busy {n : Nat} {s : State} {rest : List HostStmt} (hp : s.program = .wait :: rest)
    (hb : s.phase = .busy) (hd : s.delay = n) : ∃ t, Runs (n + 2) s t ∧ t.program = rest ∧ t.phase = .idle := by
  induction n generalizing s with
  | zero =>
    obtain ⟨u, hcomplete, hprogram, hidle⟩ := step_idle_of_engineMoves (engineMoves_iff.2 ⟨hb, .inl hd⟩)
    obtain ⟨t, hpoll, ht⟩ := step_wait_of_idle (hprogram.trans hp) hidle
    exact ⟨t, ⟨u, hcomplete, t, hpoll, rfl⟩, ht⟩
  | succ n ih =>
    obtain ⟨u, hpoll, hprogram, hbusy, hdelay⟩ := step_wait_of_busy hp hb hd
    obtain ⟨t, hruns, ht⟩ := ih hprogram hbusy hdelay
    exact ⟨t, ⟨u, hpoll, hruns⟩, ht⟩

/-- Settles O60: one poll while idle, and by induction on the window's length in the busy window. -/
theorem everyWaitEnds : Obligations.EveryWaitEnds := by
  intro s rest hp
  cases hphase : s.phase with
  | idle =>
    obtain ⟨t, hpoll, ht⟩ := step_wait_of_idle hp hphase
    exact ⟨1, t, by omega, ⟨t, hpoll, rfl⟩, ht⟩
  | busy =>
    obtain ⟨t, hruns, ht⟩ := runs_wait_of_busy hp hphase rfl
    exact ⟨s.delay + 2, t, le_rfl, hruns, ht⟩

end Sys2Proof.Machine
end
